-- ==== Sys2Proof/Word.lean ====
section
/-! DEFINITION. The word types of the block: host words, bytes and the 580-bit header frame. -/

namespace Sys2Proof

/-- A byte: one channel value, one payload byte, one name byte. -/
abbrev Byte := BitVec 8

/-- A word of the host register space and a command word (20_memory.md R62, 30_encoding.md R90). -/
abbrev Word := BitVec 32

/-- `HEADER_LEN` (00_scope.md R7, R8). -/
abbrev headerLen : Nat := 580

/-- The header buffer HDR (10_state.md R35). Header bit `HDR⟨h⟩` is `getMsbD h`: sequence index 0 is the
most significant bit, as `H` is written out in 41_header.md R147. -/
abbrev HdrBits := BitVec 580

end Sys2Proof
end

