-- ==== Sys2Proof/Config.lean ====
section
/-! DEFINITION. The implementation parameters of 00_scope.md R7 and the free values of 93_implementation_defined.md. -/

namespace Sys2Proof

/-- Side of the name-field padding (41_header.md R144, 92_eei_decisions.md D12). -/
inductive NamePad where
  | leading
  | trailing
  deriving DecidableEq, Repr

/-- Decoder end rule (44_decoder.md R215, 92_eei_decisions.md D10). -/
inductive DecEndRule where
  | dataBits
  | slots
  deriving DecidableEq, Repr

/-- The parameters of 00_scope.md R7 that are not constants. `START_FIELD_VALUE` is below 2^32 (D11), hence a word. -/
structure Params where
  pbufBytes       : Nat
  startFieldValue : Word
  namePad         : NamePad
  decEndRule      : DecEndRule
  deriving DecidableEq, Repr

/-- The defaults of 00_scope.md R7. `PBUF_BYTES` is OPEN there; 4096 is the value the spec's vectors assume.
DESIGN CHOICE (log 4). -/
def Params.default : Params :=
  { pbufBytes := 4096, startFieldValue := 581#32, namePad := .leading, decEndRule := .dataBits }

/-- `NAME_MAX` (00_scope.md R7). -/
abbrev nameMax : Nat := 64

/-- `NAME_FIELD_BITS` (00_scope.md R7). -/
abbrev nameFieldBits : Nat := 512

/-- `MODE_FIELD_BITS` (00_scope.md R7). -/
abbrev modeFieldBits : Nat := 3

/-- `START_FIELD_BITS` (00_scope.md R7). -/
abbrev startFieldBits : Nat := 32

/-- `END_FIELD_BITS` (00_scope.md R7). -/
abbrev endFieldBits : Nat := 32

/-- `ENC_START`, the payload offset the decoder uses (00_scope.md R7, 30_encoding.md R99). -/
abbrev encStart : Nat := 580

/-- `DIM_BITS` (00_scope.md R7): the width of WIDTH.W and HEIGHT.H. -/
abbrev dimBits : Nat := 16

/-- `CHANNELS` (00_scope.md R7). -/
abbrev channels : Nat := 3

/-- U1: the byte that an NBUF or PBUF byte reads as while nothing has written it since reset number `epoch`.
`offset` is its byte offset in the host register space. Free value (log 5). -/
opaque Config.ramByte (epoch offset : Nat) : Byte

/-- The channel value at image address `addr` that the collaborator has not supplied. Free value (log 8). -/
opaque Config.imageByte (addr : Nat) : Byte

/-- U2: the data of the `n`-th host read whose value 70_reset_and_hazards.md R287 leaves UNSPECIFIED.
Free value (log 6). -/
opaque Config.busyRead (n : Nat) : Word

end Sys2Proof
end

