-- ==== Sys2Proof/Syntax.lean ====
section
/-! DEFINITION. The commands of command set v1 (30_encoding.md R91): one constructor per row of spec/opcode_table.json. -/

namespace Sys2Proof

/-- A command. No command has an operand in its word (30_encoding.md R90, R93). -/
inductive Instr where
  /-- 45_control.md R241 -/
  | nop
  /-- 43_encoder.md R190 -/
  | encode
  /-- 44_decoder.md R210 -/
  | decode
  /-- 41_header.md R151 -/
  | hdrBuild
  /-- 41_header.md R152 -/
  | hdrParse
  deriving DecidableEq, Repr

end Sys2Proof
end

