-- ==== Sys2Proof/WellFormed.lean ====
section
/-! DEFINITION. What a well-formed command, command word and parameter set is. -/

namespace Sys2Proof

/-- Every command is well-formed: none has an operand to check (30_encoding.md R90). -/
def Instr.wf : Instr → Bool
  | .nop => true
  | .encode => true
  | .decode => true
  | .hdrBuild => true
  | .hdrParse => true

/-- Bits [31:4] of a command word must be zero (30_encoding.md R90). -/
def rsvdIsZero (w : Word) : Bool := w.extractLsb' 4 28 == 0#28

/-- Bits [3:0] of a command word are one of the five opcodes (30_encoding.md R91). -/
def opcodeIsKnown (w : Word) : Bool := (w.extractLsb' 0 4).toNat ≤ 4

/-- A legal command word (30_encoding.md R91, R92). -/
def wordWf (w : Word) : Bool := rsvdIsZero w && opcodeIsKnown w

/-- `PBUF_BYTES` is a multiple of 4, at least 4 (00_scope.md R7), and the PBUF window's offsets fit in 32 bits
(20_memory.md R61). -/
def Params.wf (p : Params) : Bool :=
  p.pbufBytes % 4 == 0 && 4 ≤ p.pbufBytes && p.pbufBytes + 0x1000 ≤ 2 ^ 32

end Sys2Proof
end

