-- ==== Sys2Proof/Decode.lean ====
section
/-! DEFINITION. Decoding and encoding of command words (30_encoding.md section 1). -/

namespace Sys2Proof

/-- Why a word selects no command (30_encoding.md R92). -/
inductive DecodeError where
  /-- bits [31:4] are not zero -/
  | reservedBits
  /-- the opcode is 0x5 to 0xF -/
  | reservedOpcode
  deriving DecidableEq, Repr

/-- `CMD.OPC`, bits [3:0] (30_encoding.md R90). -/
def opcField (w : Word) : BitVec 4 := w.extractLsb' 0 4

/-- `CMD.RSVD`, bits [31:4] (30_encoding.md R90). -/
def rsvdField (w : Word) : BitVec 28 := w.extractLsb' 4 28

/-- The opcode map of 30_encoding.md R91 over the OPC field. -/
def decodeOpc (opc : BitVec 4) : Except DecodeError Instr :=
  match opc.toNat with
  | 0 => .ok .nop
  | 1 => .ok .encode
  | 2 => .ok .decode
  | 3 => .ok .hdrBuild
  | 4 => .ok .hdrParse
  | _ => .error .reservedOpcode

/-- The command a word selects, or why it selects none (30_encoding.md R91, R92). Total on all words. -/
def decode (w : Word) : Except DecodeError Instr :=
  if rsvdField w = 0#28 then decodeOpc (opcField w) else .error .reservedBits

/-- The word of a command: the match values of 30_encoding.md R91. -/
def encode : Instr → Word
  | .nop => 0x00000000#32
  | .encode => 0x00000001#32
  | .decode => 0x00000002#32
  | .hdrBuild => 0x00000003#32
  | .hdrParse => 0x00000004#32

/-- What the decoder reads from an instruction of `nbits` bits numbered as spec/opcode_table.json numbers them.
A command word is one bus word of 32 bits (30_encoding.md R104), so a number that does not fit is no command word. -/
def decodeTableWord (nbits w : Nat) : Option Instr :=
  if w % 2 ^ nbits < 2 ^ 32 then (decode (BitVec.ofNat 32 (w % 2 ^ nbits))).toOption else none

/-- NOP: OPC 0000, RSVD zero. -/
theorem decode_word_nop : decode 0b00000000000000000000000000000000#32 = .ok .nop := by decide

/-- ENCODE: OPC 0001, RSVD zero. -/
theorem decode_word_encode : decode 0b00000000000000000000000000000001#32 = .ok .encode := by decide

/-- DECODE: OPC 0010, RSVD zero. -/
theorem decode_word_decode : decode 0b00000000000000000000000000000010#32 = .ok .decode := by decide

/-- HDR_BUILD: OPC 0011, RSVD zero. -/
theorem decode_word_hdrBuild : decode 0b00000000000000000000000000000011#32 = .ok .hdrBuild := by decide

/-- HDR_PARSE: OPC 0100, RSVD zero. -/
theorem decode_word_hdrParse : decode 0b00000000000000000000000000000100#32 = .ok .hdrParse := by decide

end Sys2Proof
end

