-- ==== Sys2Proof/Machine/State.lean ====
section
/-! DEFINITION. The state of the machine, its inputs, its stops, and the state after reset. Plain data throughout. -/

namespace Sys2Proof.Machine

/-- The error names of 60_exceptions.md R251. Codes 10 to 15 are reserved and never produced (V4), so they have no name. -/
inductive ErrCode where
  | none
  | illegalCommand
  | badGeometry
  | modeReserved
  | nameTooLong
  | bufferRange
  | valueTooWide
  | imageTooSmall
  | imageExhausted
  | truncatedPayload
  deriving DecidableEq, Repr

/-- The engine's phase. `idle`, `encWalk`, `decHdr` and `decPay` are those of 10_state.md R41. `start` (the command is
accepted, the engine has not begun) and `finish` (every effect is performed, completion is due) are the model's own
names for the two other moments at which BUSY = 1. DESIGN CHOICE (log 2). -/
inductive Phase where
  | idle
  | start
  | encWalk
  | decHdr
  | decPay
  | finish
  deriving DecidableEq, Repr

/-- A channel of a pixel, in processing order (00_scope.md R13). -/
inductive Channel where
  | r
  | g
  | b
  deriving DecidableEq, Repr

/-- A pixel: three channel values (10_state.md R38). -/
structure Pixel where
  r : Byte
  g : Byte
  b : Byte
  deriving DecidableEq, Repr

/-- STATUS (10_state.md R25). Its reserved bits are stuck at 0 and have no field. -/
structure Status where
  busy    : Bool
  done    : Bool
  err     : Bool
  errCode : ErrCode
  accErr  : Bool
  deriving DecidableEq, Repr

/-- CFG (10_state.md R28). -/
structure Cfg where
  mode    : BitVec 3
  isFile  : Bool
  nameLen : BitVec 7
  deriving DecidableEq, Repr

/-- P_HDR (10_state.md R32). -/
structure PHdr where
  pMode     : BitVec 3
  pFileType : Bool
  deriving DecidableEq, Repr

/-- The host-visible registers that hold state (10_state.md R21). ID is a constant and CMD is write-only. -/
structure Regs where
  /-- CTRL.IRQ_EN (R23) -/
  irqEn      : Bool
  status     : Status
  width      : BitVec 16
  height     : BitVec 16
  cfg        : Cfg
  payloadLen : Word
  encEnd     : Word
  outLen     : Word
  pHdr       : PHdr
  pStart     : Word
  deriving DecidableEq, Repr

/-- Byte memory: written cells, addresses strictly rising. An address that is not listed has no value of its own; a read
of it gives a free value (log 5, log 8). -/
abbrev Memory := List Host.Cell

/-- The external image memory (10_state.md R38): its real dimensions, and its channels keyed by
`3·(x·height + y) + c`. -/
structure Image where
  width  : Nat
  height : Nat
  cells  : Memory
  deriving DecidableEq, Repr

/-- The hidden engine state (10_state.md R41 to R46). Counters are natural numbers, as R44 allows. -/
structure Engine where
  phase  : Phase
  /-- the word latched at acceptance (R41, 45_control.md R240) -/
  cmd    : Word
  /-- pixel index (R42) -/
  k      : Nat
  /-- channel index (R42) -/
  c      : Channel
  /-- `bitIndex` (R43) -/
  i      : Nat
  /-- `pixelCounter` (R43) -/
  pcPix  : Nat
  /-- `bitCounter` (R43) -/
  s      : Nat
  /-- data bits collected, header included (R43) -/
  d      : Nat
  /-- the parsed end value (R43) -/
  encEnd : Nat
  /-- the payload bit count (R43) -/
  pb     : Nat
  /-- the pixel latch `P` (R45) -/
  latch  : Pixel
  /-- shift register of the byte assembler (R46) -/
  acc    : Byte
  /-- fill count of the byte assembler (R46) -/
  nacc   : BitVec 3
  /-- byte index of the byte assembler (R46) -/
  j      : Nat
  /-- MODEL: the code raised (60_exceptions.md R252) that completion will report (45_control.md R244). Log 2. -/
  result : ErrCode
  deriving DecidableEq, Repr

/-- Width of a host access (20_memory.md R62). -/
inductive Size where
  | byte
  | half
  | word
  deriving DecidableEq, Repr

/-- Direction of a host access. -/
inductive Dir where
  | read
  | write (data : Word)
  deriving DecidableEq, Repr

/-- One host access: direction, width and byte offset (20_memory.md R61, R62). -/
structure Access where
  dir    : Dir
  size   : Size
  offset : Word
  deriving DecidableEq, Repr

/-- What the outside world does next. `State.inputs` holds a list of these; their order against `engine` is the
interleaving of host and engine, which no rule fixes (45_control.md R243, U6). Log 1. -/
inductive Input where
  /-- one host access -/
  | access (a : Access)
  /-- ISSUE and WAIT of 30_encoding.md R105: a word write of `v` to CMD, then no access until the command completes -/
  | call (v : Word)
  /-- the engine takes one step -/
  | engine
  /-- the `rst` input is driven to a level, true for asserted (70_reset_and_hazards.md R280, log 14) -/
  | rst (level : Bool)
  /-- the image collaborator loads an image, channel bytes in walk order (70_reset_and_hazards.md R283) -/
  | loadImage (width height : Nat) (channels : List Byte)
  /-- the image collaborator reads a pixel (20_memory.md R66) -/
  | readPixel (x y : Nat)
  /-- the image collaborator writes a pixel (20_memory.md R66) -/
  | writePixel (x y : Nat) (p : Pixel)
  deriving DecidableEq, Repr

/-- The whole state (10_state.md R20) and the level of `rst`, with the model's own fields after it. -/
structure State where
  regs     : Regs
  nbuf     : Memory
  hdr      : HdrBits
  pbuf     : Memory
  image    : Image
  eng      : Engine
  /-- the level of the `rst` input, true while it is asserted (70_reset_and_hazards.md R280) -/
  rst      : Bool
  params   : Params
  inputs   : List Input
  rdata    : Word
  ipix     : Pixel
  ramEpoch : Nat
  draws    : Nat
  deriving DecidableEq, Repr

/-- Why the model stops with a fault. -/
inductive Fault where
  /-- Raised by `step` when the image collaborator loads an image or writes a pixel while STATUS.BUSY = 1, or reads a
  pixel while an ENCODE is running: the race of 70_reset_and_hazards.md R287 and U5, whose result is UNSPECIFIED. Safe:
  the model stops where hardware goes on (log 10). -/
  | imageRace
  deriving DecidableEq, Repr

/-- Why the model gives no meaning. -/
inductive Refusal where
  /-- Raised by an arm of `exec` for an instruction without a meaning. Safe. No arm raises it. -/
  | notModelled (mnemonic : String)
  /-- Raised by the pixel port and by the image collaborator's accesses when the external image has no such pixel:
  70_reset_and_hazards.md R284 and U7, "outside this spec". Safe: the model stops where hardware goes on (log 9). -/
  | pixelOutsideImage
  deriving DecidableEq, Repr

/-- STATUS after reset (10_state.md R48). -/
def Status.reset : Status :=
  { busy := false, done := false, err := false, errCode := .none, accErr := false }

/-- The registers after reset (10_state.md R48). -/
def Regs.reset : Regs :=
  { irqEn := false, status := Status.reset, width := 0#16, height := 0#16,
    cfg := { mode := 0#3, isFile := false, nameLen := 0#7 }, payloadLen := 0#32, encEnd := 0#32, outLen := 0#32,
    pHdr := { pMode := 0#3, pFileType := false }, pStart := 0#32 }

/-- The engine after reset: IDLE (10_state.md R48). The other values are UNSPECIFIED there; zero is a DESIGN CHOICE
(log 7). -/
def Engine.reset : Engine :=
  { phase := .idle, cmd := 0#32, k := 0, c := .r, i := 0, pcPix := 0, s := 0, d := 0, encEnd := 0, pb := 0,
    latch := { r := 0#8, g := 0#8, b := 0#8 }, acc := 0#8, nacc := 0#3, j := 0, result := .none }

/-- The machine right after power-on reset (10_state.md R48): registers as stated, NBUF and PBUF unwritten, no image
loaded (log 8), `rst` deasserted, no input pending (log 1). -/
def State.reset : State :=
  { regs := Regs.reset, nbuf := [], hdr := 0#580, pbuf := [], image := { width := 0, height := 0, cells := [] },
    eng := Engine.reset, rst := false, params := Params.default, inputs := [], rdata := 0#32,
    ipix := { r := 0#8, g := 0#8, b := 0#8 }, ramEpoch := 0, draws := 0 }

end Sys2Proof.Machine
end

