-- ==== Sys2Proof/Machine/Ops.lean ====
section
/-! DEFINITION. The shared operations over memory, pixels, buffers and the command lifecycle. -/

namespace Sys2Proof.Machine

/-- The outcome of a step of this machine. -/
abbrev Result := Host.Outcome State Fault Refusal

/-- Go on with a next state; stop where the first part stopped. -/
def andThen (r : Result) (f : State → Result) : Result :=
  match r with
  | .next t => f t
  | .fault e => .fault e
  | .refused e => .refused e

/-! ### Byte memory -/

/-- The written value at an address, if there is one. -/
def Memory.read? : Memory → Nat → Option Byte
  | [], _ => none
  | (b, v) :: m, a => if b = a then some v else Memory.read? m a

/-- Write one byte, keeping addresses strictly rising. -/
def Memory.write : Memory → Nat → Byte → Memory
  | [], a, v => [(a, v)]
  | (b, w) :: m, a, v =>
    if a < b then (a, v) :: (b, w) :: m
    else if a = b then (a, v) :: m
    else (b, w) :: Memory.write m a v

/-- The canonical form, from a lowest allowed address on: addresses strictly rising. -/
def Memory.wfFrom : Nat → Memory → Bool
  | _, [] => true
  | lo, (a, _) :: m => decide (lo ≤ a) && Memory.wfFrom (a + 1) m

/-- The canonical form of a memory: addresses strictly rising. No entry can equal what an unlisted address reads as,
since an unlisted address has no value of its own. -/
def Memory.wf (m : Memory) : Bool := Memory.wfFrom 0 m

/-- Every listed address is below a bound. -/
def Memory.below (n : Nat) (m : Memory) : Bool := m.all (fun cell => decide (cell.1 < n))

/-- Cells for consecutive addresses from `a`. -/
def Memory.ofBytes : Nat → List Byte → Memory
  | _, [] => []
  | a, v :: vs => (a, v) :: Memory.ofBytes (a + 1) vs

/-! ### Pixels and the pixel port (20_memory.md R66 to R70) -/

/-- Channel index (00_scope.md R13): R = 0, G = 1, B = 2. -/
def Channel.idx : Channel → Nat
  | .r => 0
  | .g => 1
  | .b => 2

/-- The channel value of a pixel. -/
def Pixel.get (p : Pixel) : Channel → Byte
  | .r => p.r
  | .g => p.g
  | .b => p.b

/-- Replace one channel value of a pixel. -/
def Pixel.set (p : Pixel) (c : Channel) (v : Byte) : Pixel :=
  match c with
  | .r => { p with r := v }
  | .g => { p with g := v }
  | .b => { p with b := v }

/-- A pixel as the 24-bit word of a physical port: R in bits [23:16], G in [15:8], B in [7:0] (20_memory.md R67).
The pixel port of the model moves triples, as R67 allows (log 25). -/
def Pixel.portWord (p : Pixel) : BitVec 24 := p.r ++ p.g ++ p.b

/-- The address of channel `c` of pixel (x, y). The layout is the model's own (log 25). -/
def Image.addr (img : Image) (x y : Nat) (c : Channel) : Nat := 3 * (x * img.height + y) + c.idx

/-- The image has pixel (x, y) (10_state.md R38). -/
def Image.has (img : Image) (x y : Nat) : Bool := decide (x < img.width) && decide (y < img.height)

/-- The channel value at an image address. One that the collaborator has not supplied is a free value (log 8). -/
def Image.byteAt (img : Image) (a : Nat) : Byte := (Memory.read? img.cells a).getD (Config.imageByte a)

/-- Channel `c` of pixel (x, y). -/
def Image.channel (img : Image) (x y : Nat) (c : Channel) : Byte := img.byteAt (img.addr x y c)

/-- Pixel (x, y). -/
def Image.pixel (img : Image) (x y : Nat) : Pixel :=
  { r := img.channel x y .r, g := img.channel x y .g, b := img.channel x y .b }

/-- Replace the pixel (x, y), all three channels at once (20_memory.md R68). -/
def Image.setPixel (img : Image) (x y : Nat) (p : Pixel) : Image :=
  { img with
    cells :=
      ((img.cells.write (img.addr x y .r) p.r).write (img.addr x y .g) p.g).write (img.addr x y .b) p.b }

/-- An image of the given dimensions whose channels are supplied in walk order (42_walker.md R170). -/
def Image.ofChannels (w h : Nat) (channels : List Byte) : Image :=
  { width := w, height := h, cells := Memory.ofBytes 0 (channels.take (3 * (w * h))) }

/-- `PixRead(x, y)` (20_memory.md R66). None where the external image has no such pixel (log 9). -/
def pixRead (s : State) (x y : Nat) : Option Pixel :=
  if s.image.has x y then some (s.image.pixel x y) else none

/-- `PixWrite(x, y, p)` (20_memory.md R66). None where the external image has no such pixel (log 9). -/
def pixWrite (s : State) (x y : Nat) (p : Pixel) : Option State :=
  if s.image.has x y then some { s with image := s.image.setPixel x y p } else none

/-! ### Buffers -/

/-- `NbufRead(n)`. An unwritten byte is a free value (U1, log 5). -/
def nbufRead (s : State) (n : Nat) : Byte :=
  (Memory.read? s.nbuf n).getD (Config.ramByte s.ramEpoch (0x100 + n))

/-- `NbufWrite(n, v)`. -/
def nbufWrite (n : Nat) (v : Byte) (s : State) : State := { s with nbuf := s.nbuf.write n v }

/-- `PbufRead(n)`. An unwritten byte is a free value (U1, log 5). -/
def pbufRead (s : State) (n : Nat) : Byte :=
  (Memory.read? s.pbuf n).getD (Config.ramByte s.ramEpoch (0x1000 + n))

/-- `PbufWrite(n, v)`. -/
def pbufWrite (n : Nat) (v : Byte) (s : State) : State := { s with pbuf := s.pbuf.write n v }

/-- Header bit `HDR⟨h⟩` in sequence indexing (00_scope.md R9); false past the last bit. -/
def hdrBit (h : HdrBits) (n : Nat) : Bool := h.getMsbD n

/-- `HDR⟨n⟩ <- b` for n < 580. -/
def hdrSetBit (h : HdrBits) (n : Nat) (b : Bool) : HdrBits :=
  if b then h ||| BitVec.twoPow 580 (579 - n) else h &&& ~~~(BitVec.twoPow 580 (579 - n))

/-- Change the STATUS fields. -/
def State.withStatus (s : State) (st : Status) : State := { s with regs := { s.regs with status := st } }

/-- Change the engine's state. -/
def State.withEng (s : State) (e : Engine) : State := { s with eng := e }

/-- `STATUS.ACCERR ← 1` (60_exceptions.md R259). -/
def setAccErr (s : State) : State := s.withStatus { s.regs.status with accErr := true }

/-! ### The command lifecycle: acceptance, raising an error, completion

The block has no trap (60_exceptions.md R258). What takes its place is written once here: `raiseError` followed by
`complete` is taking an error, `accept` is what clears it. -/

/-- Command acceptance with STATUS.BUSY = 0 (45_control.md R240). -/
def accept (v : Word) (s : State) : State :=
  { s with
    regs := { s.regs with
      status := { busy := true, done := false, err := false, errCode := .none, accErr := s.regs.status.accErr } },
    eng := { s.eng with cmd := v, phase := .start } }

/-- `raise Error(e)`: the command does nothing further and completion is due (60_exceptions.md R252). -/
def raiseError (e : ErrCode) (s : State) : State :=
  s.withEng { s.eng with phase := .finish, result := e }

/-- `complete with no error`: every effect is performed and completion is due. -/
def succeed (s : State) : State := raiseError .none s

/-- Completion, one indivisible step (45_control.md R244). -/
def complete (s : State) : State :=
  { s with
    regs := { s.regs with
      status :=
        { busy := false, done := true, err := s.eng.result != .none, errCode := s.eng.result,
          accErr := s.regs.status.accErr } },
    eng := { s.eng with phase := .idle } }

/-- A host write of `v` to CMD (45_control.md R240). -/
def issue (v : Word) (s : State) : State :=
  if s.regs.status.busy then setAccErr s else accept v s

/-- The block takes its reset values (70_reset_and_hazards.md R280): every register, buffer and hidden element as
10_state.md R48 says, the image memory not touched, unwritten RAM bytes arbitrary anew. The level of `rst`, the
parameters and the outside world's own fields are not the block's and stay (log 14). -/
def resetBlock (s : State) : State :=
  { State.reset with
    image := s.image, rst := s.rst, params := s.params, inputs := s.inputs, rdata := s.rdata, ipix := s.ipix,
    ramEpoch := s.ramEpoch + 1, draws := s.draws }

end Sys2Proof.Machine
end

