-- ==== Sys2Proof/Machine/Control.lean ====
section
/-! DEFINITION. The commands that do no codec work (45_control.md): NOP and the illegal command. -/

namespace Sys2Proof.Machine

/-- NOP (45_control.md R241). -/
def startNop (s : State) : State := succeed s

/-- An illegal command word (45_control.md R242). -/
def startIllegal (s : State) : State := raiseError .illegalCommand s

end Sys2Proof.Machine
end

