-- ==== Sys2Proof/Machine/BitStream.lean ====
section
/-! DEFINITION. The BitStream converter (40_bitstream.md): bytes and integers to MSB-first bit sequences and back.
A bit sequence is a `List Bool`, element 0 first emitted (00_scope.md R9). -/

namespace Sys2Proof.Machine

/-- Why a conversion fails (40_bitstream.md R122, R124). -/
inductive BitError where
  /-- `MalformedBitCount` -/
  | malformedBitCount
  /-- `ValueTooWide` -/
  | valueTooWide
  deriving DecidableEq, Repr

/-- `bits8(b) = ⟨b[7], …, b[0]⟩` (40_bitstream.md R120). -/
def bits8 (b : Byte) : List Bool := (List.range 8).map (fun q => b.getLsbD (7 - q))

/-- `textToBits` (40_bitstream.md R120): characters are 8-bit codes (00_scope.md R12). -/
def textToBits (text : List Byte) : List Bool := text.flatMap bits8

/-- `fileToBits` (40_bitstream.md R121): the same order, one group per raw byte. -/
def fileToBits (bytes : List Byte) : List Bool := bytes.flatMap bits8

/-- `bitsToInt` (40_bitstream.md R125): unsigned, most significant bit first. -/
def bitsToInt (bits : List Bool) : Nat := bits.foldl (fun v b => 2 * v + b.toNat) 0

/-- `bitsToBytes` (40_bitstream.md R122): groups of eight, most significant bit first. -/
def bitsToBytes (bits : List Bool) : Except BitError (List Byte) :=
  if bits.length % 8 = 0 then
    .ok ((List.range (bits.length / 8)).map (fun q => BitVec.ofNat 8 (bitsToInt ((bits.drop (8 * q)).take 8))))
  else .error .malformedBitCount

/-- `bitsToText` (40_bitstream.md R123): the character code is the byte itself. -/
def bitsToText (bits : List Bool) : Except BitError (List Byte) := bitsToBytes bits

/-- The low `width` bits of a value, most significant first: `intToBits` where it does not fail. -/
def intBits (value width : Nat) : List Bool := (List.range width).map (fun t => value.testBit (width - 1 - t))

/-- `intToBits` (40_bitstream.md R124). -/
def intToBits (value width : Nat) : Except BitError (List Bool) :=
  if 2 ^ width ≤ value then .error .valueTooWide else .ok (intBits value width)

/-- The `n` bits `f 0, f 1, …` as one vector, `f 0` the most significant. Irreducible, so that no proof
unfolds its list by accident. -/
@[irreducible] def ofMsbFn (n : Nat) (f : Nat → Bool) : BitVec n := BitVec.ofNat n (bitsToInt ((List.range n).map f))

/-- The 580-bit header buffer holding a bit sequence. Irreducible for the same reason. -/
@[irreducible] def hdrOfBits (bits : List Bool) : HdrBits := BitVec.ofNat 580 (bitsToInt bits)

/-- The slice `H⟨a:b)` (00_scope.md R9). -/
def hdrSlice (h : HdrBits) (a b : Nat) : List Bool := (List.range (b - a)).map (fun t => hdrBit h (a + t))

/-- Payload serializer (40_bitstream.md R127): payload bit `n` is bit 7 − n mod 8 of byte n div 8. -/
def payloadBit (s : State) (n : Nat) : Bool := (pbufRead s (n / 8)).getLsbD (7 - n % 8)

/-- The packer's registers at their start (40_bitstream.md R128). -/
def packerReset (s : State) : State := s.withEng { s.eng with acc := 0#8, nacc := 0#3, j := 0 }

/-- The shift register after one more bit (40_bitstream.md R128). -/
def packShift (acc : Byte) (b : Bool) : Byte := (acc <<< 1) ||| BitVec.setWidth 8 (BitVec.ofBool b)

/-- Payload packer (40_bitstream.md R128): append one bit; the eighth bit writes the byte to PBUF. -/
def packBit (b : Bool) (s : State) : State :=
  if s.eng.nacc = 7#3 then
    (pbufWrite s.eng.j (packShift s.eng.acc b) s).withEng
      { s.eng with acc := 0#8, nacc := 0#3, j := s.eng.j + 1 }
  else s.withEng { s.eng with acc := packShift s.eng.acc b, nacc := s.eng.nacc + 1#3 }

end Sys2Proof.Machine
end

