-- ==== Sys2Proof/Machine/Flags.lean ====
section
/-! DEFINITION. The flags and their host view: STATUS, CFG and P_HDR as words, error codes, W1C, the interrupt. -/

namespace Sys2Proof.Machine

/-- `code(CODE)` (60_exceptions.md R251). -/
def ErrCode.code : ErrCode → BitVec 4
  | .none => 0#4
  | .illegalCommand => 1#4
  | .badGeometry => 2#4
  | .modeReserved => 3#4
  | .nameTooLong => 4#4
  | .bufferRange => 5#4
  | .valueTooWide => 6#4
  | .imageTooSmall => 7#4
  | .imageExhausted => 8#4
  | .truncatedPayload => 9#4

/-- STATUS as a word (10_state.md R25): ACCERR bit 16, ERRCODE bits [11:8], ERR bit 2, DONE bit 1, BUSY bit 0. -/
def Status.toWord (st : Status) : Word :=
  0#15 ++ BitVec.ofBool st.accErr ++ 0#4 ++ st.errCode.code ++ 0#5 ++ BitVec.ofBool st.err ++ BitVec.ofBool st.done
    ++ BitVec.ofBool st.busy

/-- A host write to STATUS: W1C of DONE (bit 1) and ACCERR (bit 16), nothing else (10_state.md R25). -/
def Status.w1c (st : Status) (v : Word) : Status :=
  { st with done := st.done && !v.getLsbD 1, accErr := st.accErr && !v.getLsbD 16 }

/-- CFG as a word (10_state.md R28): NAME_LEN bits [22:16], IS_FILE bit 8, MODE bits [2:0]. -/
def Cfg.toWord (c : Cfg) : Word := 0#9 ++ c.nameLen ++ 0#7 ++ BitVec.ofBool c.isFile ++ 0#5 ++ c.mode

/-- The CFG a host write leaves: reserved bits are ignored (10_state.md R28). -/
def Cfg.ofWord (v : Word) : Cfg :=
  { mode := v.extractLsb' 0 3, isFile := v.getLsbD 8, nameLen := v.extractLsb' 16 7 }

/-- P_HDR as a word (10_state.md R32): P_FILETYPE bit 8, P_MODE bits [2:0]. -/
def PHdr.toWord (p : PHdr) : Word := 0#23 ++ BitVec.ofBool p.pFileType ++ 0#5 ++ p.pMode

/-- CTRL as a word (10_state.md R23): IRQ_EN bit 0. -/
def ctrlToWord (irqEn : Bool) : Word := 0#31 ++ BitVec.ofBool irqEn

/-- The interrupt output (60_exceptions.md R255). -/
def State.irq (s : State) : Bool := s.regs.status.done && s.regs.irqEn

end Sys2Proof.Machine
end

