-- ==== Sys2Proof/Machine/Walker.lean ====
section
/-! DEFINITION. The pixel walker and the channel-selection multiplexer (42_walker.md). -/

namespace Sys2Proof.Machine

/-- Walk position of pixel index `k` in an image of height `h` (42_walker.md R171). -/
def walkX (h k : Nat) : Nat := k / h

/-- Walk position of pixel index `k` in an image of height `h` (42_walker.md R171). -/
def walkY (h k : Nat) : Nat := k % h

/-- Slot of channel `c` of pixel `k` (42_walker.md R172). -/
def slotOf (k : Nat) (c : Channel) : Nat := 3 * k + c.idx

/-- The channel of a slot, `c = s mod 3` (42_walker.md R172). -/
def chanOfSlot (s : Nat) : Channel := if s % 3 = 0 then .r else if s % 3 = 1 then .g else .b

/-- The next channel of the same pixel (42_walker.md R170); B is the last. -/
def Channel.next : Channel → Channel
  | .r => .g
  | .g => .b
  | .b => .r

/-- Payload eligibility of pixel `k` in mode `m` (42_walker.md R174). -/
def payloadEligible (m k : Nat) : Bool := m == 0 || (m == 1 && k % 2 == 0)

/-- Encoder channel select (42_walker.md R175). -/
def writeE (i m k : Nat) : Bool := decide (i < 580) || payloadEligible m k

/-- Decoder channel select in the payload phase (42_walker.md R176). -/
def readD (s m k : Nat) : Bool := decide (580 ≤ s) && payloadEligible m k

/-- How many slots below `b` are payload-eligible in mode `m`: all of them in mode 0; three of every six in mode 1,
the channels of the even pixels. -/
def eligibleBelow (m b : Nat) : Nat :=
  if m = 0 then b else if m = 1 then 3 * (b / 6) + min (b % 6) 3 else 0

/-- `eligibleCount(m, a, b) = |s : a ≤ s < b and payloadEligible(m, s div 3)|` (42_walker.md R178), counted without
listing the slots (log 17). -/
def eligibleCount (m a b : Nat) : Nat := eligibleBelow m b - eligibleBelow m a

/-- `payloadCapacity(m, N)` (42_walker.md R178). -/
def payloadCapacity (m n : Nat) : Nat := eligibleCount m 580 (3 * n)

/-- The slot σ(i) of stream bit `i` (42_walker.md R177, closed form). -/
def sigma (m i : Nat) : Nat :=
  if m = 1 ∧ 580 ≤ i then 3 * (194 + 2 * ((i - 580) / 3)) + (i - 580) % 3 else i

/-- How many stream bits lie in the slots below `s`, so the index of the bit that slot `s` carries if it carries one:
the inverse of σ (42_walker.md R177). -/
def streamIndexAt (m s : Nat) : Nat := if s < 580 then s else 580 + eligibleCount m 580 s

/-- LSB write (42_walker.md R179). -/
def lsbWrite (v : Byte) (b : Bool) : Byte := (v &&& 0xFE#8) ||| BitVec.setWidth 8 (BitVec.ofBool b)

/-- LSB extract (42_walker.md R180). -/
def lsbExtract (v : Byte) : Bool := v.getLsbD 0

/-- One lane of the pixel lane operation (42_walker.md R181). -/
def lane (v : Byte) (enabled bit : Bool) : Byte := if enabled then lsbWrite v bit else v

/-- The pixel lane operation on three 8-bit lanes with a lane mask (42_walker.md R181): the enabled lanes take
consecutive stream bits `bit 0, bit 1, …`, lowest lane first. -/
def laneOp (p : Pixel) (er eg eb : Bool) (bit : Nat → Bool) : Pixel :=
  { r := lane p.r er (bit 0), g := lane p.g eg (bit er.toNat), b := lane p.b eb (bit (er.toNat + eg.toNat)) }

/-- The image value at a slot of the walk over height `h`. -/
def slotByte (img : Image) (h s : Nat) : Byte :=
  img.channel (walkX h (s / 3)) (walkY h (s / 3)) (chanOfSlot s)

/-- Move the cursor past the channel just processed: after B the pixel index and `pixelCounter` advance
(42_walker.md R173). -/
def Engine.advance (e : Engine) : Engine :=
  if e.c = .b then { e with k := e.k + 1, pcPix := e.pcPix + 1, c := .r } else { e with c := e.c.next }

/-- The pixel in the latch once channel `c` is to be processed: read at channel R, kept after it (10_state.md R45).
None where the external image has no such pixel. -/
def latchPixel (s : State) : Option Pixel :=
  if s.eng.c = .r then
    pixRead s (walkX s.regs.height.toNat s.eng.k) (walkY s.regs.height.toNat s.eng.k)
  else some s.eng.latch

end Sys2Proof.Machine
end

