-- ==== Sys2Proof/Machine/Operands.lean ====
section
/-! DEFINITION. The operands of the commands (30_encoding.md R93): fixed registers and buffers, zero-extended
(00_scope.md R11). -/

namespace Sys2Proof.Machine

/-- W = WIDTH.W. -/
def State.w (s : State) : Nat := s.regs.width.toNat

/-- H = HEIGHT.H. -/
def State.h (s : State) : Nat := s.regs.height.toNat

/-- N = W·H. -/
def State.n (s : State) : Nat := s.w * s.h

/-- m = CFG.MODE. -/
def State.mode (s : State) : Nat := s.regs.cfg.mode.toNat

/-- L = PAYLOAD_LEN. -/
def State.len (s : State) : Nat := s.regs.payloadLen.toNat

/-- `ENC_END = 580 + 8·L` (41_header.md R146). -/
def State.streamLen (s : State) : Nat := 580 + 8 * s.len

/-- The name, `NBUF[0..NAME_LEN−1]` (41_header.md R140). -/
def nameBytes (s : State) : List Byte := (List.range s.regs.cfg.nameLen.toNat).map (nbufRead s)

/-- The payload, `PBUF[0..L−1]` (43_encoder.md R190). -/
def payloadBytes (s : State) : List Byte := (List.range s.len).map (pbufRead s)

/-- `E⟨i⟩` (30_encoding.md R101): the header buffer's bit, then the serializer's. -/
def streamBit (s : State) (i : Nat) : Bool := if i < 580 then hdrBit s.hdr i else payloadBit s (i - 580)

/-- A file name that is too long (41_header.md R148, check 2). -/
def nameTooLong (s : State) : Bool := s.regs.cfg.isFile && decide (nameMax < s.regs.cfg.nameLen.toNat)

end Sys2Proof.Machine
end

