-- ==== Sys2Proof/Machine/Header.lean ====
section
/-! DEFINITION. The header frame builder and parser (41_header.md), and what HDR_BUILD and HDR_PARSE do. -/

namespace Sys2Proof.Machine

/-- Name bits before padding (41_header.md R143): for text, one zero bit. -/
def nameBitsRaw (isFile : Bool) (name : List Byte) : List Bool := if isFile then textToBits name else [false]

/-- Name padding to 512 bits (41_header.md R144). -/
def padName (pad : NamePad) (nb : List Bool) : List Bool :=
  match pad with
  | .leading => List.replicate (nameFieldBits - nb.length) false ++ nb
  | .trailing => nb ++ List.replicate (nameFieldBits - nb.length) false

/-- `buildHeader` (41_header.md R141 to R147): the 580 bits, for inputs that passed the checks of R148. -/
def headerBits (p : Params) (isFile : Bool) (mode : BitVec 3) (name : List Byte) (len : Nat) : List Bool :=
  [isFile] ++ intBits mode.toNat modeFieldBits ++ padName p.namePad (nameBitsRaw isFile name)
    ++ intBits p.startFieldValue.toNat startFieldBits ++ intBits (580 + 8 * len) endFieldBits

/-- The header that the configuration registers and NBUF describe. -/
def builtHeader (s : State) : List Bool :=
  headerBits s.params s.regs.cfg.isFile s.regs.cfg.mode (nameBytes s) s.len

/-- HDR and ENC_END take the built header (41_header.md R151, 43_encoder.md R190 step 2). -/
def storeHeader (s : State) : State :=
  { s with hdr := hdrOfBits (builtHeader s), regs := { s.regs with encEnd := BitVec.ofNat 32 s.streamLen } }

/-- The build checks of 41_header.md R148 with `MODE_LIMIT` = 2, first failure first. -/
def hdrBuildCheck (s : State) : ErrCode :=
  if 2 < s.mode then .modeReserved
  else if nameTooLong s then .nameTooLong
  else if 2 ^ 32 ≤ s.streamLen then .valueTooWide
  else .none

/-- HDR_BUILD (41_header.md R151). -/
def startHdrBuild (s : State) : State :=
  if hdrBuildCheck s = .none then succeed (storeHeader s) else raiseError (hdrBuildCheck s) s

/-- Byte `j` of the name field, `H⟨4+8j : 12+8j)` (30_encoding.md R98). -/
def nameFieldByte (h : HdrBits) (j : Nat) : Byte := BitVec.ofNat 8 (bitsToInt (hdrSlice h (4 + 8 * j) (12 + 8 * j)))

/-- NBUF after all 64 bytes are overwritten with the name field, byte 0 first (41_header.md R149).
Irreducible, so that no proof unfolds the 64 writes by accident. -/
@[irreducible] def parsedName (h : HdrBits) (nbuf : Memory) : Memory :=
  (List.range 64).foldl (fun m j => m.write j (nameFieldByte h j)) nbuf

/-- `parseHeader(HDR)` (41_header.md R149): writes P_HDR, P_START, ENC_END and NBUF[0..63], checks nothing (R150). -/
def parseHeader (s : State) : State :=
  { s with
    regs := { s.regs with
      pHdr := { pMode := BitVec.ofNat 3 (bitsToInt (hdrSlice s.hdr 1 4)), pFileType := hdrBit s.hdr 0 },
      pStart := BitVec.ofNat 32 (bitsToInt (hdrSlice s.hdr 516 548)),
      encEnd := BitVec.ofNat 32 (bitsToInt (hdrSlice s.hdr 548 580)) },
    nbuf := parsedName s.hdr s.nbuf }

/-- HDR_PARSE (41_header.md R152). -/
def startHdrParse (s : State) : State := succeed (parseHeader s)

end Sys2Proof.Machine
end

