-- ==== Sys2Proof/Machine/Decoder.lean ====
section
/-! DEFINITION. The LSB decoder (44_decoder.md). -/

namespace Sys2Proof.Machine

/-- DECODE at its start, before its checks: OUT_LEN ← 0 (44_decoder.md R210), the packer cleared (40_bitstream.md R128),
the cursor and the counters 0 (10_state.md section 6, R42, R43). DESIGN CHOICE: R210 starts the cursor after its first
two checks (log 15). -/
def beginDecode (s : State) : State :=
  packerReset
    { s with
      regs := { s.regs with outLen := 0#32 },
      eng := { s.eng with k := 0, c := .r, pcPix := 0, s := 0, d := 0 } }

/-- DECODE up to its walk (44_decoder.md R210, R211): its start, then the two checks before any pixel read. -/
def startDecode (s : State) : State :=
  let z := beginDecode s
  if s.w = 0 ∨ s.h = 0 then raiseError .badGeometry z
  else if 3 * s.n < 580 then raiseError .imageExhausted z
  else z.withEng { z.eng with phase := .decHdr }

/-- The payload bit count `pb` (44_decoder.md R215). -/
def payloadBits (rule : DecEndRule) (m encEnd : Nat) : Nat :=
  match rule with
  | .dataBits => encEnd - 580
  | .slots => eligibleCount m 580 (max 580 encEnd)

/-- The image can supply the payload (44_decoder.md R216). -/
def available (rule : DecEndRule) (m encEnd n : Nat) : Bool :=
  match rule with
  | .dataBits => decide (encEnd - 580 ≤ payloadCapacity m n)
  | .slots => decide (encEnd ≤ 3 * n)

/-- The checks after parsing (44_decoder.md R214, R216 to R218), first failure first. -/
def decodeCheck (s : State) : ErrCode :=
  let m := s.regs.pHdr.pMode.toNat
  let e := s.regs.encEnd.toNat
  let pb := payloadBits s.params.decEndRule m e
  if 1 < m then .modeReserved
  else if !available s.params.decEndRule m e s.n then .imageExhausted
  else if pb % 8 ≠ 0 then .truncatedPayload
  else if s.params.pbufBytes < pb / 8 then .bufferRange
  else .none

/-- `encEnd := ENC_END` right after the parse, and `pb` once the mode check has passed (44_decoder.md R210, R215). -/
def loadEnd (s : State) : State :=
  s.withEng
    { s.eng with
      encEnd := s.regs.encEnd.toNat,
      pb := if 1 < s.regs.pHdr.pMode.toNat then s.eng.pb
        else payloadBits s.params.decEndRule s.regs.pHdr.pMode.toNat s.regs.encEnd.toNat }

/-- The parse point (44_decoder.md R213 to R218): parse, load the end, check, and enter phase 2 with the packer reset. -/
def parsePoint (s : State) : State :=
  let t := loadEnd (parseHeader s)
  if decodeCheck t = .none then packerReset (t.withEng { t.eng with phase := .decPay })
  else raiseError (decodeCheck t) t

/-- One slot of phase 1 (44_decoder.md R212): the channel's LSB becomes `HDR⟨s⟩`; slot 579 is followed by the parse
point. -/
def decHdrStep (s : State) : Result :=
  match latchPixel s with
  | none => .refused .pixelOutsideImage
  | some p =>
    let t : State :=
      { s with
        hdr := hdrSetBit s.hdr s.eng.s (lsbExtract (p.get s.eng.c)),
        eng := Engine.advance { s.eng with latch := p, s := s.eng.s + 1, d := s.eng.d + 1 } }
    .next (if s.eng.s = 579 then parsePoint t else t)

/-- One slot of phase 2 (44_decoder.md R219 to R221): stop as soon as all `pb` bits are collected, else append the
channel's LSB to the packer if the multiplexer selects the slot. R219's `got` is kept as `d − 580` and the test is
`d = 580 + pb` under both end rules. DESIGN CHOICE (log 26). -/
def decPayStep (s : State) : Result :=
  if s.eng.d = 580 + s.eng.pb then
    .next (succeed { s with regs := { s.regs with outLen := BitVec.ofNat 32 (s.eng.pb / 8) } })
  else
    match latchPixel s with
    | none => .refused .pixelOutsideImage
    | some p =>
      let e := { s.eng with latch := p, s := s.eng.s + 1 }
      if readD s.eng.s s.regs.pHdr.pMode.toNat s.eng.k then
        let t := packBit (lsbExtract (p.get s.eng.c)) (s.withEng { e with d := s.eng.d + 1 })
        .next (t.withEng t.eng.advance)
      else .next (s.withEng e.advance)

end Sys2Proof.Machine
end

