-- ==== Sys2Proof/Machine/Encoder.lean ====
section
/-! DEFINITION. The LSB encoder (43_encoder.md). -/

namespace Sys2Proof.Machine

/-- The checks before any write (43_encoder.md R190 step 1, R191), first failure first. -/
def encodeCheck (s : State) : ErrCode :=
  if s.w = 0 ∨ s.h = 0 then .badGeometry
  else if 1 < s.mode then .modeReserved
  else if nameTooLong s then .nameTooLong
  else if s.params.pbufBytes < s.len then .bufferRange
  else if 2 ^ 32 ≤ s.streamLen then .valueTooWide
  else .none

/-- The exact capacity check (43_encoder.md R192, 42_walker.md R178). -/
def streamFits (s : State) : Bool := decide (580 ≤ 3 * s.n) && decide (8 * s.len ≤ payloadCapacity s.mode s.n)

/-- ENCODE initialises the hidden state it uses at its start, before its checks: the cursor and `bitIndex` are 0
(10_state.md section 6, R42, R43). DESIGN CHOICE: 43_encoder.md R190 writes them after the checks (log 15). -/
def beginEncode (s : State) : State := s.withEng { s.eng with k := 0, c := .r, i := 0, pcPix := 0 }

/-- The walk begins (43_encoder.md R190 step 4). -/
def enterEncWalk (s : State) : State := s.withEng { s.eng with phase := .encWalk }

/-- ENCODE up to its walk (43_encoder.md R190 steps 1 to 3). -/
def startEncode (s : State) : State :=
  if encodeCheck s = .none then
    if streamFits s then enterEncWalk (storeHeader (beginEncode s))
    else raiseError .imageTooSmall (storeHeader (beginEncode s))
  else raiseError (encodeCheck s) (beginEncode s)

/-- The channel select and LSB write of one slot (43_encoder.md R194 step 2), on the latched pixel `p`. -/
def encSlot (s : State) (p : Pixel) : Engine :=
  if writeE s.eng.i s.mode s.eng.k then
    { s.eng with latch := p.set s.eng.c (lsbWrite (p.get s.eng.c) (streamBit s s.eng.i)), i := s.eng.i + 1 }
  else { s.eng with latch := p }

/-- One slot of ENCODE's walk (43_encoder.md R194, R195): read the pixel at channel R, process the channel, write the
pixel back after channel B or when the stream ends, and end the walk when the stream ends. -/
def encWalkStep (s : State) : Result :=
  match latchPixel s with
  | none => .refused .pixelOutsideImage
  | some p =>
    let e := encSlot s p
    if e.c = .b ∨ e.i = s.regs.encEnd.toNat then
      match pixWrite s (walkX s.h e.k) (walkY s.h e.k) e.latch with
      | none => .refused .pixelOutsideImage
      | some t =>
        let u := t.withEng { e with k := e.k + 1, pcPix := e.pcPix + 1, c := .r }
        .next (if e.i = s.regs.encEnd.toNat then succeed u else u)
    else .next (s.withEng e.advance)

end Sys2Proof.Machine
end

