-- ==== Sys2Proof/Machine/Engine.lean ====
section
/-! DEFINITION. The engine: one step of the command it runs, and a run to completion. -/

namespace Sys2Proof.Machine

/-- What a command does at its start. -/
def startCommand (i : Instr) (s : State) : State :=
  match i with
  | .nop => startNop s
  | .encode => startEncode s
  | .decode => startDecode s
  | .hdrBuild => startHdrBuild s
  | .hdrParse => startHdrParse s

/-- The engine begins the command that the latched word selects (45_control.md R240). -/
def startWord (s : State) : State :=
  match decode s.eng.cmd with
  | .ok i => startCommand i s
  | .error _ => startIllegal s

/-- One engine step: the start of the command, one slot of a walk, or completion (log 3). An idle engine does
nothing. -/
def engineStep (s : State) : Result :=
  match s.eng.phase with
  | .idle => .next s
  | .start => .next (startWord s)
  | .encWalk => encWalkStep s
  | .decHdr => decHdrStep s
  | .decPay => decPayStep s
  | .finish => .next (complete s)

/-- `fuel` engine steps, ending early when the engine is idle or the run stops. -/
def runEngine : Nat → State → Result
  | 0, s => .next s
  | fuel + 1, s =>
    if s.eng.phase = .idle then .next s else andThen (engineStep s) (runEngine fuel)

/-- Engine steps enough for any command: every slot of the walk, the start, the end of phase 2, completion
(70_reset_and_hazards.md R291, log 18). -/
def engineFuel (s : State) : Nat := 3 * s.n + 4

/-- ISSUE and WAIT (30_encoding.md R105): a write of `v` to CMD, then the engine alone until the command completes.
While BUSY the write is dropped (45_control.md R240). -/
def callCommand (v : Word) (s : State) : Result :=
  if s.regs.status.busy then .next (setAccErr s) else runEngine (engineFuel s) (accept v s)

end Sys2Proof.Machine
end

