-- ==== Sys2Proof/Machine/Commands.lean ====
section
/-! DEFINITION. The meaning of each command: what issuing it and waiting for its completion does. -/

namespace Sys2Proof.Machine

/-- NOP (45_control.md R241): its own effect is `startNop`. -/
def execNop (s : State) : Result := callCommand 0x00000000#32 s

/-- ENCODE (43_encoder.md R190): its own effect is `startEncode`, then `encWalkStep` for every slot. -/
def execEncode (s : State) : Result := callCommand 0x00000001#32 s

/-- DECODE (44_decoder.md R210): its own effect is `startDecode`, then `decHdrStep` and `decPayStep` for every slot. -/
def execDecode (s : State) : Result := callCommand 0x00000002#32 s

/-- HDR_BUILD (41_header.md R151): its own effect is `startHdrBuild`. -/
def execHdrBuild (s : State) : Result := callCommand 0x00000003#32 s

/-- HDR_PARSE (41_header.md R152): its own effect is `startHdrParse`. -/
def execHdrParse (s : State) : Result := callCommand 0x00000004#32 s

/-- An illegal command word (45_control.md R242): its own effect is `startIllegal`. -/
def execIllegal (v : Word) (s : State) : Result := callCommand v s

end Sys2Proof.Machine
end

