-- ==== Sys2Proof/Machine/HostBus.lean ====
section
/-! DEFINITION. The host register interface: the register map, word accesses, access hazards (10_state.md R21 to R37,
20_memory.md R60 to R65, 70_reset_and_hazards.md R287), and the collaborator's image accesses. -/

namespace Sys2Proof.Machine

/-- What lies at an offset of the host register space (10_state.md R21, R37). -/
inductive HostReg where
  | id
  | ctrl
  | cmd
  | status
  | width
  | height
  | cfg
  | payloadLen
  | encEnd
  | outLen
  | pHdr
  | pStart
  /-- word `w` of NBUF -/
  | nbuf (w : Nat)
  /-- word `w` of HDR -/
  | hdr (w : Nat)
  /-- word `w` of PBUF -/
  | pbuf (w : Nat)
  | reserved
  deriving DecidableEq, Repr

/-- The register page below 0x030 (10_state.md R21). -/
def pageReg (off : Nat) : HostReg :=
  match off with
  | 0x000 => .id
  | 0x004 => .ctrl
  | 0x008 => .cmd
  | 0x00C => .status
  | 0x010 => .width
  | 0x014 => .height
  | 0x018 => .cfg
  | 0x01C => .payloadLen
  | 0x020 => .encEnd
  | 0x024 => .outLen
  | 0x028 => .pHdr
  | 0x02C => .pStart
  | _ => .reserved

/-- The register map (10_state.md R21); every other offset is reserved (R37). -/
def regAt (pbufBytes off : Nat) : HostReg :=
  if 0x100 ≤ off ∧ off < 0x140 then .nbuf ((off - 0x100) / 4)
  else if 0x200 ≤ off ∧ off < 0x24C then .hdr ((off - 0x200) / 4)
  else if 0x1000 ≤ off ∧ off < 0x1000 + pbufBytes then .pbuf ((off - 0x1000) / 4)
  else pageReg off

/-- Four bytes as a host word, byte 0 in bits [7:0] (20_memory.md R63, R64). -/
def wordOfBytes (b : Nat → Byte) : Word := b 3 ++ b 2 ++ b 1 ++ b 0

/-- Byte lane `q` of a host word (20_memory.md R63, R64). -/
def byteLane (v : Word) (q : Nat) : Byte := v.extractLsb' (8 * q) 8

/-- Word `w` of HDR: bit 31 − t is `HDR⟨32w + t⟩` (20_memory.md R65). Bits past `HDR⟨579⟩` read 0. -/
def hdrWord (h : HdrBits) (w : Nat) : Word := ofMsbFn 32 (fun t => hdrBit h (32 * w + t))

/-- HDR after a write of `v` to its word `w` (20_memory.md R65). Bits past `HDR⟨579⟩` are ignored. -/
def hdrSetWord (h : HdrBits) (w : Nat) (v : Word) : HdrBits :=
  ofMsbFn 580 (fun n => if n / 32 = w then v.getMsbD (n % 32) else hdrBit h n)

/-- Write the four byte lanes of `v` to bytes `4w` to `4w + 3` of a byte buffer. -/
def writeLanes (m : Memory) (w : Nat) (v : Word) : Memory :=
  (((m.write (4 * w) (byteLane v 0)).write (4 * w + 1) (byteLane v 1)).write (4 * w + 2) (byteLane v 2)).write
    (4 * w + 3) (byteLane v 3)

/-- The value a word read gives when no hazard applies (10_state.md R22 to R37). -/
def readReg (s : State) : HostReg → Word
  | .id => 0x4C534231#32
  | .ctrl => ctrlToWord s.regs.irqEn
  | .cmd => 0#32
  | .status => s.regs.status.toWord
  | .width => BitVec.setWidth 32 s.regs.width
  | .height => BitVec.setWidth 32 s.regs.height
  | .cfg => s.regs.cfg.toWord
  | .payloadLen => s.regs.payloadLen
  | .encEnd => s.regs.encEnd
  | .outLen => s.regs.outLen
  | .pHdr => s.regs.pHdr.toWord
  | .pStart => s.regs.pStart
  | .nbuf w => wordOfBytes (fun q => nbufRead s (4 * w + q))
  | .hdr w => hdrWord s.hdr w
  | .pbuf w => wordOfBytes (fun q => pbufRead s (4 * w + q))
  | .reserved => 0#32

/-- What a word write does when no hazard applies (10_state.md R22 to R37). Read-only and reserved offsets ignore it. -/
def writeReg (s : State) (v : Word) : HostReg → State
  | .id => s
  | .ctrl => { s with regs := { s.regs with irqEn := v.getLsbD 0 } }
  | .cmd => issue v s
  | .status => s.withStatus (s.regs.status.w1c v)
  | .width => { s with regs := { s.regs with width := v.extractLsb' 0 16 } }
  | .height => { s with regs := { s.regs with height := v.extractLsb' 0 16 } }
  | .cfg => { s with regs := { s.regs with cfg := Cfg.ofWord v } }
  | .payloadLen => { s with regs := { s.regs with payloadLen := v } }
  | .encEnd => s
  | .outLen => s
  | .pHdr => s
  | .pStart => s
  | .nbuf w => { s with nbuf := writeLanes s.nbuf w v }
  | .hdr w => { s with hdr := hdrSetWord s.hdr w v }
  | .pbuf w => { s with pbuf := writeLanes s.pbuf w v }
  | .reserved => s

/-- Reads that are UNSPECIFIED while BUSY (70_reset_and_hazards.md R287, 60_exceptions.md R259). -/
def HostReg.readIsHazard : HostReg → Bool
  | .encEnd | .outLen | .pHdr | .pStart | .nbuf _ | .hdr _ | .pbuf _ => true
  | .id | .ctrl | .cmd | .status | .width | .height | .cfg | .payloadLen | .reserved => false

/-- Writes that are dropped while BUSY (70_reset_and_hazards.md R287, 60_exceptions.md R259). A CMD write is one too;
`issue` drops it. -/
def HostReg.writeIsHazard : HostReg → Bool
  | .width | .height | .cfg | .payloadLen | .nbuf _ | .hdr _ | .pbuf _ => true
  | .id | .ctrl | .cmd | .status | .encEnd | .outLen | .pHdr | .pStart | .reserved => false

/-- A word read of a register: its data, and the hazard of reading results and buffers while BUSY, which gives a free
value (U2, log 6) and sets ACCERR. -/
def wordRead (s : State) (r : HostReg) : State :=
  if s.regs.status.busy && r.readIsHazard then
    setAccErr { s with rdata := Config.busyRead s.draws, draws := s.draws + 1 }
  else { s with rdata := readReg s r }

/-- A word write of a register, dropped with ACCERR where R287 says so. -/
def wordWrite (s : State) (v : Word) (r : HostReg) : State :=
  if s.regs.status.busy && r.writeIsHazard then setAccErr s else writeReg s v r

/-- An aligned 32-bit word access, the only kind the interface supports (20_memory.md R62). -/
def Access.supported (a : Access) : Bool := a.size == .word && a.offset.toNat % 4 == 0

/-- A byte, halfword or misaligned access (20_memory.md R62): a write is dropped, a read returns 0, both set ACCERR. -/
def unsupportedAccess (d : Dir) (s : State) : State :=
  match d with
  | .read => setAccErr { s with rdata := 0#32 }
  | .write _ => setAccErr s

/-- One host access (20_memory.md R62, 10_state.md R21). -/
def hostAccess (a : Access) (s : State) : State :=
  if a.supported then
    match a.dir with
    | .read => wordRead s (regAt s.params.pbufBytes a.offset.toNat)
    | .write v => wordWrite s v (regAt s.params.pbufBytes a.offset.toNat)
  else unsupportedAccess a.dir s

/-- A host access while `rst` is asserted: a read gives its data from the block's reset values, and the block stays at
them, whatever the access would otherwise do (70_reset_and_hazards.md R280, log 14). -/
def accessInReset (a : Access) (s : State) : State := { s with rdata := (hostAccess a s).rdata }

/-- The image collaborator loads an image (70_reset_and_hazards.md R283). -/
def loadImage (w h : Nat) (channels : List Byte) (s : State) : Result :=
  if s.regs.status.busy then .fault .imageRace
  else .next { s with image := Image.ofChannels w h channels }

/-- An ENCODE is running: BUSY, with ENCODE's word latched (10_state.md R41). -/
def State.encoding (s : State) : Bool := s.regs.status.busy && s.eng.cmd == encode .encode

/-- The image collaborator reads a pixel (20_memory.md R66). During ENCODE it must not; the other commands leave the
image as it is (70_reset_and_hazards.md R287, log 10). -/
def readPixel (x y : Nat) (s : State) : Result :=
  if s.encoding then .fault .imageRace
  else
    match pixRead s x y with
    | none => .refused .pixelOutsideImage
    | some p => .next { s with ipix := p }

/-- The image collaborator writes a pixel (20_memory.md R66). While BUSY it must not (20_memory.md R75, log 10). -/
def writePixel (x y : Nat) (p : Pixel) (s : State) : Result :=
  if s.regs.status.busy then .fault .imageRace
  else
    match pixWrite s x y p with
    | none => .refused .pixelOutsideImage
    | some t => .next t

end Sys2Proof.Machine
end

