-- ==== Sys2Proof/Machine/HostProgram.lean ====
section
/-! DEFINITION. The host-program notation of 30_encoding.md R105 as lists of inputs. -/

namespace Sys2Proof.Machine

/-- `WR <reg>, <v32>`: one word write. -/
def progWr (offset v : Word) : List Input := [.access { dir := .write v, size := .word, offset := offset }]

/-- `RD <reg>`: one word read. -/
def progRd (offset : Word) : List Input := [.access { dir := .read, size := .word, offset := offset }]

/-- The word of four bytes of a LOADB line, missing bytes 0. -/
def loadbWord (bytes : List Byte) (m : Nat) : Word := wordOfBytes (fun q => bytes.getD (4 * m + q) 0#8)

/-- `LOADB <buf>, b0, b1, …`: word writes from the buffer's base. -/
def progLoadb (base : Word) (bytes : List Byte) : List Input :=
  (List.range ((bytes.length + 3) / 4)).flatMap
    (fun m => progWr (base + BitVec.ofNat 32 (4 * m)) (loadbWord bytes m))

/-- `ISSUE <MNEMONIC>` alone: the write of the match value to CMD; the engine then runs by `Input.engine`. -/
def progIssue (i : Instr) : List Input := progWr 0x008#32 (encode i)

/-- `ISSUE <MNEMONIC>` followed by `WAIT`. The loop's reads of STATUS change nothing in the block, and their number is
UNSPECIFIED (45_control.md R243), so they are not listed. -/
def progIssueWait (i : Instr) : List Input := [.call (encode i)]

/-- `ACK`: clear DONE and ACCERR. -/
def progAck : List Input := progWr 0x00C#32 0x00010002#32

end Sys2Proof.Machine
end

