-- ==== Sys2Proof/Machine/Inputs.lean ====
section
/-! DEFINITION. What one input of the outside world does, out of reset and while `rst` is asserted. -/

namespace Sys2Proof.Machine

/-- Run the command a word selects, or the illegal command (30_encoding.md R91, R92). -/
def callWord (v : Word) (s : State) : Result :=
  match decode v with
  | .ok i => exec i s
  | .error _ => execIllegal v s

/-- The `rst` input goes from deasserted to a level (70_reset_and_hazards.md R280). Asserting it gives the block its
reset values and abandons a running command (R281). -/
def driveRst (level : Bool) (s : State) : State :=
  if level then { resetBlock s with rst := true } else s

/-- What one input does to a block whose `rst` is deasserted. -/
def inputOutOfReset (inp : Input) (s : State) : Result :=
  match inp with
  | .access a => .next (hostAccess a s)
  | .call v => callWord v s
  | .engine => engineStep s
  | .rst level => .next (driveRst level s)
  | .loadImage w h channels => loadImage w h channels s
  | .readPixel x y => readPixel x y s
  | .writePixel x y p => writePixel x y p s

/-- What one input does while `rst` is asserted, to a block `s` at its reset values (70_reset_and_hazards.md R280): no
access, no CMD write and no engine step changes it; the image is the collaborator's, and `rst` may be driven. -/
def inputInReset (inp : Input) (s : State) : Result :=
  match inp with
  | .access a => .next (accessInReset a s)
  | .call _ => .next s
  | .engine => .next s
  | .rst level => .next { s with rst := level }
  | .loadImage w h channels => loadImage w h channels s
  | .readPixel x y => readPixel x y s
  | .writePixel x y p => writePixel x y p s

/-- What one input does to the state it has been taken from. While `rst` is asserted the block takes its reset values
anew at every step, the one that deasserts it included (70_reset_and_hazards.md R280). -/
def takeInput (inp : Input) (s : State) : Result :=
  if s.rst then inputInReset inp (resetBlock s) else inputOutOfReset inp s

end Sys2Proof.Machine
end

