-- ==== Sys2Proof/Machine/Step.lean ====
section
/-! DEFINITION. One step of the machine. -/

namespace Sys2Proof.Machine

/-- One step: the next input if there is one, else the engine's own step (log 1). -/
def step (s : State) : Host.Outcome State Fault Refusal :=
  match s.inputs with
  | [] => takeInput .engine s
  | inp :: rest => takeInput inp { s with inputs := rest }

/-- `s` with the command word of an opcode-table row as its next input and `rst` deasserted, so that the next step runs
that command (log 1). -/
def State.withFetchWord (s : State) (nbits w : Nat) : State :=
  { s with rst := false, inputs := .call (BitVec.ofNat 32 (w % 2 ^ nbits)) :: s.inputs }

end Sys2Proof.Machine
end

