-- ==== Sys2Proof/Safety.lean ====
section
/-! DEFINITION. What counts as a sound state, and the words the statements are written in. -/

namespace Sys2Proof.Machine

/-! ### Sound states -/

/-- Every memory is in its canonical form and inside its space (10_state.md R34, R36, R38). -/
def MemSound (s : State) : Prop :=
  s.nbuf.wf = true ∧ Memory.below 64 s.nbuf = true ∧
  s.pbuf.wf = true ∧ Memory.below s.params.pbufBytes s.pbuf = true ∧
  s.image.cells.wf = true ∧ Memory.below (3 * (s.image.width * s.image.height)) s.image.cells = true

/-- STATUS and the phase agree (10_state.md R25, R41; 45_control.md R240, R244). -/
def StatusSound (s : State) : Prop :=
  (s.eng.phase = .idle ↔ s.regs.status.busy = false) ∧
  (s.regs.status.busy = true → s.regs.status.done = false ∧ s.regs.status.errCode = .none) ∧
  (s.regs.status.err = true ↔ s.regs.status.errCode ≠ .none)

/-- Where an ENCODE stands in its walk (10_state.md R42, R43; 43_encoder.md R191 to R195). -/
def EncSound (s : State) : Prop :=
  encodeCheck s = .none ∧ streamFits s = true ∧ s.regs.encEnd.toNat = s.streamLen ∧
  s.hdr = hdrOfBits (builtHeader s) ∧ s.eng.pcPix = s.eng.k ∧ s.eng.k < s.n ∧
  s.eng.i = streamIndexAt s.mode (slotOf s.eng.k s.eng.c) ∧ s.eng.i < s.streamLen

/-- Where a DECODE stands in phase 1 (10_state.md R43; 44_decoder.md R212). -/
def DecHdrSound (s : State) : Prop :=
  580 ≤ 3 * s.n ∧ s.eng.s = slotOf s.eng.k s.eng.c ∧ s.eng.s < 580 ∧ s.eng.d = s.eng.s ∧ s.eng.pcPix = s.eng.k

/-- Where a DECODE stands in phase 2 (10_state.md R43, R46; 44_decoder.md R214 to R220; 40_bitstream.md R128). -/
def DecPaySound (s : State) : Prop :=
  580 ≤ 3 * s.n ∧ decodeCheck s = .none ∧ s.eng.encEnd = s.regs.encEnd.toNat ∧
  s.eng.pb = payloadBits s.params.decEndRule s.regs.pHdr.pMode.toNat s.eng.encEnd ∧
  s.eng.s = slotOf s.eng.k s.eng.c ∧ 580 ≤ s.eng.s ∧ s.eng.pcPix = s.eng.k ∧
  s.eng.d = 580 + eligibleCount s.regs.pHdr.pMode.toNat 580 s.eng.s ∧ s.eng.d ≤ 580 + s.eng.pb ∧
  s.eng.nacc.toNat = (s.eng.d - 580) % 8 ∧ s.eng.j = (s.eng.d - 580) / 8

/-- The engine's hidden state fits its phase. -/
def EngineSound (s : State) : Prop :=
  (s.eng.phase = .encWalk → EncSound s) ∧ (s.eng.phase = .decHdr → DecHdrSound s) ∧
  (s.eng.phase = .decPay → DecPaySound s)

/-- A sound state: the invariant of the machine. -/
def Inv (s : State) : Prop := s.params.wf = true ∧ MemSound s ∧ StatusSound s ∧ EngineSound s

/-! ### Words for statements -/

/-- A word write of `v` at a byte offset (20_memory.md R62). -/
def Access.wr (offset v : Word) : Access := { dir := .write v, size := .word, offset := offset }

/-- A word read at a byte offset (20_memory.md R62). -/
def Access.rd (offset : Word) : Access := { dir := .read, size := .word, offset := offset }

/-- The block accepts a command (45_control.md R240). -/
def State.idle (s : State) : Prop := s.regs.status.busy = false

/-- The external image has pixel `k` of the walk. -/
def State.hasPixel (s : State) (k : Nat) : Prop := s.image.has (walkX s.h k) (walkY s.h k) = true

/-- The launch premise of 70_reset_and_hazards.md R284, as far as the block needs it: the registers' geometry lies
inside the external image. -/
def State.fitsImage (s : State) : Prop := s.w ≤ s.image.width ∧ s.h ≤ s.image.height

/-- `s` after the command word `v` has completed with code `e` and changed nothing else (45_control.md R240, R244). -/
def State.completed (s : State) (v : Word) (e : ErrCode) : State :=
  { s with
    regs := { s.regs with
      status :=
        { busy := false, done := true, err := e != .none, errCode := e, accErr := s.regs.status.accErr } },
    eng := { s.eng with cmd := v, phase := .idle, result := e } }

/-- The channel value at slot `n` of the walk that the geometry registers describe (42_walker.md R172). -/
def State.slot (s : State) (n : Nat) : Byte := slotByte s.image s.h n

/-- The image address of slot `n` of that walk. -/
def State.slotAddr (s : State) (n : Nat) : Nat :=
  s.image.addr (walkX s.h (n / 3)) (walkY s.h (n / 3)) (chanOfSlot n)

/-- The 580 bits that DECODE extracts in phase 1 (44_decoder.md R212). -/
def State.imageHeader (s : State) : HdrBits := ofMsbFn 580 (fun n => lsbExtract (s.slot n))

/-- The state of a DECODE right after its parse point, up to the hidden engine state: OUT_LEN is 0, HDR holds the
580 extracted bits and the parsed header is written (44_decoder.md R210, R212, R213). -/
def State.parsed (s : State) : State :=
  parseHeader { s with hdr := s.imageHeader, regs := { s.regs with outLen := 0#32 } }

/-- The slot of the last bit that an ENCODE of this configuration embeds (42_walker.md R177). -/
def State.lastSlot (s : State) : Nat := sigma s.mode (s.streamLen - 1)

/-- The stream `E = H ++ fileToBits(PBUF[0..L-1])` of an ENCODE of this configuration (30_encoding.md R101,
43_encoder.md R193). -/
def State.stream (s : State) : List Bool := builtHeader s ++ fileToBits (payloadBytes s)

end Sys2Proof.Machine
end

