-- ==== Sys2Proof/Certificates/Slice0/Obligations.lean ====
section
/-! DEFINITION. The statements for the provers. `s.idle` is STATUS.BUSY = 0. -/

open Sys2Proof Sys2Proof.Machine

/-! ### Encodings (30_encoding.md section 1) -/

/-- Words written out from R90 and R91 decode to their commands; two illegal words of R92 do not decode. -/
def Obligations.CommandWordsDecode : Prop :=
  decode 0b00000000000000000000000000000000#32 = .ok .nop ∧
  decode 0b00000000000000000000000000000001#32 = .ok .encode ∧
  decode 0b00000000000000000000000000000010#32 = .ok .decode ∧
  decode 0b00000000000000000000000000000011#32 = .ok .hdrBuild ∧
  decode 0b00000000000000000000000000000100#32 = .ok .hdrParse ∧
  decode 0b00000000000000000000000000000101#32 = .error .reservedOpcode ∧
  decode 0b00000000000000000000000000010001#32 = .error .reservedBits

/-- R91: for every word, the command is selected exactly by its match value. -/
def Obligations.WordsSelectCommands : Prop :=
  ∀ w : Word,
    (decode w = .ok .nop ↔ w = 0x00000000#32) ∧ (decode w = .ok .encode ↔ w = 0x00000001#32) ∧
    (decode w = .ok .decode ↔ w = 0x00000002#32) ∧ (decode w = .ok .hdrBuild ↔ w = 0x00000003#32) ∧
    (decode w = .ok .hdrParse ↔ w = 0x00000004#32)

/-- Decoding an encoded well-formed command gives it back, and its word is legal. -/
def Obligations.DecodeOfEncode : Prop :=
  ∀ i : Instr, i.wf = true → decode (encode i) = .ok i ∧ wordWf (encode i) = true

/-- R92, R242: every illegal word, issued while idle, completes with ILLEGAL_COMMAND; nothing but STATUS and the latched
word changes. Issued by ISSUE and WAIT, or by a write and two engine steps. That exactly two engine steps complete it is
the model's: its phases `start` and `finish` (log 2) and its engine steps (log 3). -/
def Obligations.IllegalWordCompletes : Prop :=
  ∀ (w : Word) (s : State), s.idle → (w.extractLsb' 4 28 ≠ 0#28 ∨ 5 ≤ (w.extractLsb' 0 4).toNat) →
    callWord w s = .next (s.completed w .illegalCommand) ∧
    runEngine 2 (hostAccess (Access.wr 0x008#32 w) s) = .next (s.completed w .illegalCommand)

/-! ### Steps and the command lifecycle (45_control.md) -/

/-- A step runs the decoded command of the next input; a word without one runs the illegal command; an access input
performs the access; with no input the engine steps. `rst` is deasserted. The queue of inputs is the model's (log 1). -/
def Obligations.StepRunsDecodedCommand : Prop :=
  ∀ (s : State) (rest : List Input) (v : Word) (i : Instr) (a : Access),
    (decode v = .ok i → step (s.withFetchWord 32 v.toNat) = exec i { s with rst := false }) ∧
    (s.rst = false →
      (s.inputs = .call v :: rest → decode v = .ok i → step s = exec i { s with inputs := rest }) ∧
      (s.inputs = .call v :: rest → (∀ j, decode v ≠ .ok j) → step s = execIllegal v { s with inputs := rest }) ∧
      (s.inputs = .access a :: rest → step s = .next (hostAccess a { s with inputs := rest })) ∧
      (s.inputs = .engine :: rest → step s = engineStep { s with inputs := rest }) ∧
      (s.inputs = [] → step s = engineStep s))

/-- R240: a write to CMD is accepted in one step while idle; while BUSY it is dropped with ACCERR. The engine then executes
the command that the word selects. Two clauses are the model's: a waited call while BUSY is dropped too (log 24), and an
accepted command waits in the phase `start` for the engine's first step (log 2). -/
def Obligations.CommandAcceptance : Prop :=
  ∀ (s : State) (v : Word),
    (s.idle → hostAccess (Access.wr 0x008#32 v) s =
      { s with
        regs := { s.regs with
          status :=
            { busy := true, done := false, err := false, errCode := .none, accErr := s.regs.status.accErr } },
        eng := { s.eng with cmd := v, phase := .start } }) ∧
    (¬ s.idle → hostAccess (Access.wr 0x008#32 v) s =
      { s with regs := { s.regs with status := { s.regs.status with accErr := true } } }) ∧
    (¬ s.idle → ∀ i, exec i s =
      .next { s with regs := { s.regs with status := { s.regs.status with accErr := true } } }) ∧
    (∀ i, decode v = .ok i → s.eng.cmd = v → s.eng.phase = .start → engineStep s = .next (startCommand i s))

/-- R252, R244: raising an error keeps what the command wrote and ends it; the one engine step left is completion, which
reports the code, drops BUSY, sets DONE and goes IDLE. The phase between the two is the model's (log 2). -/
def Obligations.RaiseEndsCommand : Prop :=
  ∀ (e : ErrCode) (s : State),
    raiseError e s = { s with eng := { s.eng with phase := .finish, result := e } } ∧
    ∀ fuel, 1 ≤ fuel →
      runEngine fuel (raiseError e s) = .next
        { s with
          regs := { s.regs with
            status :=
              { busy := false, done := true, err := e != .none, errCode := e, accErr := s.regs.status.accErr } },
          eng := { s.eng with phase := .idle, result := e } }

/-- R241: NOP. -/
def Obligations.NopResult : Prop :=
  ∀ s : State, s.idle → exec .nop s = .next (s.completed 0x00000000#32 .none)

/-- R243: every command word, issued while idle on an image that holds the W×H pixels, completes: BUSY 0, DONE 1, IDLE,
ERR exactly when a code is reported, `irq` following IRQ_EN. All five commands and every illegal word. -/
def Obligations.EveryCommandCompletes : Prop :=
  ∀ (v : Word) (s : State), s.idle → s.fitsImage →
    ∃ t, callWord v s = .next t ∧ t.regs.status.busy = false ∧ t.regs.status.done = true ∧ t.eng.phase = .idle ∧
      t.regs.status.err = (t.regs.status.errCode != .none) ∧ t.regs.status.accErr = s.regs.status.accErr ∧
      t.irq = s.regs.irqEn ∧ (∀ i, decode v = .ok i → exec i s = .next t)

/-- Issuing by a write to CMD and letting the engine step until it is idle reaches the same state as ISSUE and WAIT in
one step. The two forms are the model's (log 1, log 3). -/
def Obligations.StepwiseRunAgreesWithCall : Prop :=
  ∀ (v : Word) (s t : State), s.idle → s.rst = false → s.inputs = [] → callWord v s = .next t →
    ∃ n, core.run n { s with inputs := [.access (Access.wr 0x008#32 v)] } = .next t

/-! ### BitStream converter (40_bitstream.md) -/

/-- R120, R121: text and file bits, one group of eight per byte, most significant bit first. -/
def Obligations.TextAndFileBits : Prop :=
  ∀ t : List Byte,
    (textToBits t).length = 8 * t.length ∧ fileToBits t = textToBits t ∧ textToBits [] = [] ∧
    (∀ m q, m < t.length → q < 8 → (textToBits t)[8 * m + q]? = some ((t.getD m 0#8).getLsbD (7 - q)))

/-- R122, R123: bytes from bits, and the error for a length that is not a multiple of 8. -/
def Obligations.BitsToBytes : Prop :=
  ∀ bits : List Bool,
    (bits.length % 8 ≠ 0 → bitsToBytes bits = .error .malformedBitCount) ∧
    (bits.length % 8 = 0 → ∃ out, bitsToBytes bits = .ok out ∧ out.length = bits.length / 8 ∧
      ∀ q, q < out.length →
        (out.getD q 0#8).toNat =
          ((List.range 8).map (fun t => (bits.getD (8 * q + t) false).toNat * 2 ^ (7 - t))).sum) ∧
    bitsToText bits = bitsToBytes bits

/-- R124: the binary representation of a value, and the error when it is too wide. -/
def Obligations.IntToBits : Prop :=
  ∀ value width : Nat,
    (2 ^ width ≤ value → intToBits value width = .error .valueTooWide) ∧
    (value < 2 ^ width → ∃ b, intToBits value width = .ok b ∧ b.length = width ∧
      ∀ t, t < width → b[t]? = some (value.testBit (width - 1 - t))) ∧
    intToBits 0 width = .ok (List.replicate width false) ∧
    intToBits (2 ^ width - 1) width = .ok (List.replicate width true) ∧
    intToBits (2 ^ width) width = .error .valueTooWide

/-- R125: the unsigned big-endian value of a bit sequence. -/
def Obligations.BitsToInt : Prop :=
  ∀ b : List Bool,
    bitsToInt b = ((List.range b.length).map (fun t => (b.getD t false).toNat * 2 ^ (b.length - 1 - t))).sum

/-- R126: the functions invert each other where both are defined. -/
def Obligations.BitStreamFunctionsInvert : Prop :=
  (∀ b : List Byte, bitsToBytes (fileToBits b) = .ok b ∧ (fileToBits b).length = 8 * b.length) ∧
  (∀ v w : Nat, v < 2 ^ w → ∃ b, intToBits v w = .ok b ∧ bitsToInt b = v ∧ b.length = w)

/-- R128: the packer, fed whole bytes of bits, writes to PBUF the bytes that `bitsToBytes` gives, in order, and nothing
else; it ends empty. -/
def Obligations.PackerAssemblesBytes : Prop :=
  ∀ (s : State) (bits : List Bool) (bytes : List Byte), bitsToBytes bits = .ok bytes →
    ∃ pb,
      bits.foldl (fun u b => packBit b u) (packerReset s) =
        { s with pbuf := pb, eng := { s.eng with acc := 0#8, nacc := 0#3, j := bytes.length } } ∧
      ∀ j, pbufRead { s with pbuf := pb } j = if j < bytes.length then bytes.getD j 0#8 else pbufRead s j

/-! ### Pixel walker and multiplexer (42_walker.md) -/

/-- R171, R172: pixel index and slot index are one-to-one with walk positions and channels. -/
def Obligations.WalkIndices : Prop :=
  (∀ w h k, k < w * h → walkX h k < w ∧ walkY h k < h ∧ k = walkX h k * h + walkY h k) ∧
  (∀ w h x y, x < w → y < h → x * h + y < w * h ∧ walkX h (x * h + y) = x ∧ walkY h (x * h + y) = y) ∧
  (∀ n k c, slotOf k c / 3 = k ∧ slotOf k c % 3 = c.idx ∧ chanOfSlot (slotOf k c) = c ∧
    (slotOf k c < 3 * n ↔ k < n)) ∧
  (∀ s, slotOf (s / 3) (chanOfSlot s) = s)

/-- R174, R175, R176, R179, R180: the multiplexer's selects, and LSB write and extract. -/
def Obligations.SelectsAndLsbOperations : Prop :=
  (∀ i s m k : Nat,
    (payloadEligible m k = true ↔ m = 0 ∨ (m = 1 ∧ k % 2 = 0)) ∧
    (writeE i m k = true ↔ i < 580 ∨ m = 0 ∨ (m = 1 ∧ k % 2 = 0)) ∧
    (readD s m k = true ↔ 580 ≤ s ∧ (m = 0 ∨ (m = 1 ∧ k % 2 = 0)))) ∧
  (∀ (v : Byte) (b : Bool),
    (lsbWrite v b).getLsbD 0 = b ∧ (∀ j, 1 ≤ j → (lsbWrite v b).getLsbD j = v.getLsbD j) ∧
    lsbExtract v = v.getLsbD 0 ∧ (v.getLsbD 0 = b → lsbWrite v b = v))

/-- R177: the two selects agree past slot 580; σ(i) is i below 580, and the (i − 580)-th eligible slot at or after slot
580 from there on; the slots that carry a bit are exactly the values of σ; σ in closed form. -/
def Obligations.StreamPlacement : Prop :=
  ∀ m : Nat, m ≤ 1 →
    (∀ i k, i < 580 → writeE i m k = true) ∧
    (∀ i s k, 580 ≤ i → 580 ≤ s → writeE i m k = payloadEligible m k ∧ readD s m k = payloadEligible m k) ∧
    (∀ i, i < 580 → sigma m i = i) ∧
    (∀ i, 580 ≤ i → 580 ≤ sigma m i ∧ payloadEligible m (sigma m i / 3) = true ∧
      ((Finset.Ico 580 (sigma m i)).filter (fun s => payloadEligible m (s / 3) = true)).card = i - 580) ∧
    (∀ s, (s < 580 ∨ payloadEligible m (s / 3) = true) ↔ ∃ i, sigma m i = s) ∧
    (∀ i, sigma 0 i = i) ∧
    (∀ n, sigma 1 (580 + n) = 3 * (194 + 2 * (n / 3)) + n % 3)

/-- R178: capacity counts the eligible slots; its closed forms; a stream fits exactly when its last bit's slot exists. -/
def Obligations.CapacityCountsEligibleSlots : Prop :=
  (∀ m a b, eligibleCount m a b = ((Finset.Ico a b).filter (fun s => payloadEligible m (s / 3) = true)).card) ∧
  (∀ n, 580 ≤ 3 * n → payloadCapacity 0 n = 3 * n - 580 ∧ payloadCapacity 1 n = 3 * ((n - 193) / 2)) ∧
  (∀ m n b, m ≤ 1 → 580 ≤ b → ((580 ≤ 3 * n ∧ b - 580 ≤ payloadCapacity m n) ↔ sigma m (b - 1) < 3 * n))

/-! ### Header codec (41_header.md) -/

/-- R141 to R147: the built header has 580 bits and its fields stand at their offsets, MSB first, under either padding. -/
def Obligations.HeaderFields : Prop :=
  ∀ (p : Params) (isFile : Bool) (mode : BitVec 3) (name : List Byte) (len : Nat),
    (isFile = true → name.length ≤ 64) →
    (headerBits p isFile mode name len).length = 580 ∧
    (headerBits p isFile mode name len)[0]? = some isFile ∧
    (∀ t, t < 3 → (headerBits p isFile mode name len)[1 + t]? = some (mode.getLsbD (2 - t))) ∧
    (isFile = false → ∀ t, t < 512 → (headerBits p isFile mode name len)[4 + t]? = some false) ∧
    (isFile = true → p.namePad = .leading →
      (∀ t, t < 512 - 8 * name.length → (headerBits p isFile mode name len)[4 + t]? = some false) ∧
      (∀ q t, q < name.length → t < 8 →
        (headerBits p isFile mode name len)[516 - 8 * name.length + 8 * q + t]? =
          some ((name.getD q 0#8).getLsbD (7 - t)))) ∧
    (isFile = true → p.namePad = .trailing →
      (∀ q t, q < name.length → t < 8 →
        (headerBits p isFile mode name len)[4 + 8 * q + t]? = some ((name.getD q 0#8).getLsbD (7 - t))) ∧
      (∀ t, 8 * name.length ≤ t → t < 512 → (headerBits p isFile mode name len)[4 + t]? = some false)) ∧
    (∀ t, t < 32 → (headerBits p isFile mode name len)[516 + t]? = some (p.startFieldValue.getLsbD (31 - t))) ∧
    (∀ t, t < 32 → (headerBits p isFile mode name len)[548 + t]? = some ((580 + 8 * len).testBit (31 - t))) ∧
    Params.default.namePad = .leading ∧ Params.default.startFieldValue = 581#32

/-- R148, R151: HDR_BUILD reports the first failing check and changes nothing else, or stores the built header and
ENC_END = 580 + 8·L and changes nothing else. -/
def Obligations.HdrBuildResult : Prop :=
  ∀ s : State, s.idle →
    (2 < s.mode → exec .hdrBuild s = .next (s.completed 0x00000003#32 .modeReserved)) ∧
    (s.mode ≤ 2 → s.regs.cfg.isFile = true → 64 < s.regs.cfg.nameLen.toNat →
      exec .hdrBuild s = .next (s.completed 0x00000003#32 .nameTooLong)) ∧
    (s.mode ≤ 2 → (s.regs.cfg.isFile = true → s.regs.cfg.nameLen.toNat ≤ 64) → 2 ^ 32 ≤ 580 + 8 * s.len →
      exec .hdrBuild s = .next (s.completed 0x00000003#32 .valueTooWide)) ∧
    (s.mode ≤ 2 → (s.regs.cfg.isFile = true → s.regs.cfg.nameLen.toNat ≤ 64) → 580 + 8 * s.len < 2 ^ 32 →
      ∃ t, exec .hdrBuild s = .next t ∧
        t = { s.completed 0x00000003#32 .none with
          hdr := t.hdr,
          regs := { (s.completed 0x00000003#32 .none).regs with encEnd := BitVec.ofNat 32 (580 + 8 * s.len) } } ∧
        ∀ h, h < 580 →
          (headerBits s.params s.regs.cfg.isFile s.regs.cfg.mode (nameBytes s) s.len)[h]? = some (hdrBit t.hdr h))

/-- R149, R150, R152: HDR_PARSE writes the slices of HDR to P_HDR, P_START, ENC_END and all 64 bytes of NBUF, for every
HDR, and nothing else. -/
def Obligations.HdrParseResult : Prop :=
  ∀ s : State, s.idle →
    ∃ t, exec .hdrParse s = .next t ∧
      t = { s.completed 0x00000004#32 .none with
        nbuf := t.nbuf,
        regs := { (s.completed 0x00000004#32 .none).regs with
          pHdr := { pMode := BitVec.ofNat 3 (bitsToInt (hdrSlice s.hdr 1 4)), pFileType := hdrBit s.hdr 0 },
          pStart := BitVec.ofNat 32 (bitsToInt (hdrSlice s.hdr 516 548)),
          encEnd := BitVec.ofNat 32 (bitsToInt (hdrSlice s.hdr 548 580)) } } ∧
      (∀ j, j < 64 → nbufRead t j = BitVec.ofNat 8 (bitsToInt (hdrSlice s.hdr (4 + 8 * j) (12 + 8 * j)))) ∧
      (∀ j, 64 ≤ j → nbufRead t j = nbufRead s j)

/-- R153: HDR_BUILD then HDR_PARSE gives back the inputs. With TRAILING padding the name lies at field bytes
0..NAME_LEN−1 (R144); a text header gives an all-zero name. -/
def Obligations.HeaderRoundTrip : Prop :=
  ∀ s : State, s.idle → s.mode ≤ 2 → (s.regs.cfg.isFile = true → s.regs.cfg.nameLen.toNat ≤ 64) →
    580 + 8 * s.len < 2 ^ 32 →
    ∃ t u, exec .hdrBuild s = .next t ∧ exec .hdrParse t = .next u ∧
      (builtHeader s).length = 580 ∧
      u.regs.pHdr.pFileType = s.regs.cfg.isFile ∧ u.regs.pHdr.pMode = s.regs.cfg.mode ∧
      u.regs.encEnd.toNat = 580 + 8 * s.len ∧ u.regs.pStart = s.params.startFieldValue ∧
      (s.regs.cfg.isFile = true → s.params.namePad = .leading →
        (∀ q, q < s.regs.cfg.nameLen.toNat → nbufRead u (64 - s.regs.cfg.nameLen.toNat + q) = nbufRead s q) ∧
        (∀ j, j < 64 - s.regs.cfg.nameLen.toNat → nbufRead u j = 0#8)) ∧
      (s.regs.cfg.isFile = true → s.params.namePad = .trailing →
        (∀ q, q < s.regs.cfg.nameLen.toNat → nbufRead u q = nbufRead s q) ∧
        (∀ j, s.regs.cfg.nameLen.toNat ≤ j → j < 64 → nbufRead u j = 0#8)) ∧
      (s.regs.cfg.isFile = false → ∀ j, j < 64 → nbufRead u j = 0#8)

/-! ### ENCODE (43_encoder.md) -/

/-- R190 step 1, R191: the checks in order, first failure first; a failed check writes nothing. The hidden cursor and
`bitIndex` are 0, as at the start of every ENCODE (R42, R43); that this start comes before the checks is the model's
(log 15). -/
def Obligations.EncodeChecksInOrder : Prop :=
  ∀ s : State, s.idle →
    let z : State := { s with eng := { s.eng with k := 0, c := .r, i := 0, pcPix := 0 } }
    (s.w = 0 ∨ s.h = 0 → exec .encode s = .next (z.completed 0x00000001#32 .badGeometry)) ∧
    (0 < s.w → 0 < s.h →
      (1 < s.mode → exec .encode s = .next (z.completed 0x00000001#32 .modeReserved)) ∧
      (s.mode ≤ 1 →
        (s.regs.cfg.isFile = true → 64 < s.regs.cfg.nameLen.toNat →
          exec .encode s = .next (z.completed 0x00000001#32 .nameTooLong)) ∧
        ((s.regs.cfg.isFile = true → s.regs.cfg.nameLen.toNat ≤ 64) →
          (s.params.pbufBytes < s.len → exec .encode s = .next (z.completed 0x00000001#32 .bufferRange)) ∧
          (s.len ≤ s.params.pbufBytes → 2 ^ 32 ≤ 580 + 8 * s.len →
            exec .encode s = .next (z.completed 0x00000001#32 .valueTooWide)))))

/-- R192: a stream that does not fit gives IMAGE_TOO_SMALL; HDR and ENC_END hold the built header and nothing else
changes, the image included, but the hidden cursor and `bitIndex`, which the start of every ENCODE sets to 0 (R42, R43);
that this start comes before the check is the model's (log 15). -/
def Obligations.EncodeTooSmallKeepsImage : Prop :=
  ∀ s : State, s.idle → encodeCheck s = .none →
    let z : State := { s with eng := { s.eng with k := 0, c := .r, i := 0, pcPix := 0 } }
    (3 * s.n < 580 ∨ payloadCapacity s.mode s.n < 8 * s.len) →
    ∃ t, exec .encode s = .next t ∧
      t = { z.completed 0x00000001#32 .imageTooSmall with
        hdr := t.hdr,
        regs := { (z.completed 0x00000001#32 .imageTooSmall).regs with encEnd := BitVec.ofNat 32 (580 + 8 * s.len) } } ∧
      ∀ h, h < 580 → (builtHeader s)[h]? = some (hdrBit t.hdr h)

/-- R181, R194: the engine steps of one pixel, from channel R, are one lane operation on the pixel: the enabled lanes
take consecutive stream bits, one whole pixel is written back, and the walk goes to the next pixel or ends with the
stream. Nothing but the image and the engine's own state changes. One engine step per slot, so one to three for a pixel,
and the phase `finish` are the model's (log 3, log 2). -/
def Obligations.EncodePixelIsLaneOperation : Prop :=
  ∀ s : State, s.eng.phase = .encWalk → s.eng.c = .r → s.eng.i < s.regs.encEnd.toNat → s.hasPixel s.eng.k →
    let er := writeE s.eng.i s.mode s.eng.k
    let ig := s.eng.i + er.toNat
    let eg := decide (ig < s.regs.encEnd.toNat) && writeE ig s.mode s.eng.k
    let ib := ig + eg.toNat
    let eb := decide (ib < s.regs.encEnd.toNat) && writeE ib s.mode s.eng.k
    let x := walkX s.h s.eng.k
    let y := walkY s.h s.eng.k
    ∃ j t, 1 ≤ j ∧ j ≤ 3 ∧ runEngine j s = .next t ∧
      t = { s with
        image := s.image.setPixel x y
          (laneOp (s.image.pixel x y) er eg eb (fun q => streamBit s (s.eng.i + q))),
        eng := { s.eng with
          latch := t.eng.latch, i := ib + eb.toNat, k := s.eng.k + 1, pcPix := s.eng.pcPix + 1,
          phase := if ib + eb.toNat = s.regs.encEnd.toNat then .finish else .encWalk,
          result := if ib + eb.toNat = s.regs.encEnd.toNat then .none else s.eng.result } }

/-- R193, R195, R196: a successful ENCODE embeds stream bit i in the LSB of slot σ(i) and leaves every other channel of
the image as it was; HDR, ENC_END, STATUS and the engine's hidden state are all that changes besides. -/
def Obligations.EncodeEmbedsStream : Prop :=
  ∀ s : State, s.idle → encodeCheck s = .none → 580 ≤ 3 * s.n → 8 * s.len ≤ payloadCapacity s.mode s.n →
    (∀ k, k ≤ s.lastSlot / 3 → s.hasPixel k) →
    ∃ t, exec .encode s = .next t ∧
      t = { s.completed 0x00000001#32 .none with
        hdr := t.hdr, image := t.image, eng := t.eng,
        regs := { (s.completed 0x00000001#32 .none).regs with encEnd := BitVec.ofNat 32 (580 + 8 * s.len) } } ∧
      t.eng.phase = .idle ∧ t.image.width = s.image.width ∧ t.image.height = s.image.height ∧
      s.stream.length = 580 + 8 * s.len ∧
      (∀ h, h < 580 → s.stream[h]? = some (hdrBit t.hdr h)) ∧
      (∀ i, i < 580 + 8 * s.len →
        t.image.byteAt (s.slotAddr (sigma s.mode i)) =
          lsbWrite (s.image.byteAt (s.slotAddr (sigma s.mode i))) (s.stream.getD i false)) ∧
      (∀ a, (∀ i, i < 580 + 8 * s.len → a ≠ s.slotAddr (sigma s.mode i)) → t.image.byteAt a = s.image.byteAt a)

/-- R281: `rst` at any moment of an ENCODE leaves the registers reset and IDLE with DONE = 0, and an image in which the
pixels of some prefix of the walk hold what the complete ENCODE gives them and every other channel is as before. -/
def Obligations.ResetDuringEncodeLeavesPrefix : Prop :=
  ∀ (s t u : State) (m : Nat), s.idle → encodeCheck s = .none → 580 ≤ 3 * s.n →
    8 * s.len ≤ payloadCapacity s.mode s.n → exec .encode s = .next t → runEngine m (accept 0x00000001#32 s) = .next u →
    (resetBlock u).regs = Regs.reset ∧ (resetBlock u).eng.phase = .idle ∧
    ∃ p, p ≤ s.lastSlot / 3 + 1 ∧
      (∀ k c, k < p → (resetBlock u).image.byteAt (s.slotAddr (slotOf k c)) = t.image.byteAt (s.slotAddr (slotOf k c))) ∧
      (∀ a, (∀ k c, k < p → a ≠ s.slotAddr (slotOf k c)) → (resetBlock u).image.byteAt a = s.image.byteAt a)

/-! ### DECODE (44_decoder.md) -/

/-- R210, R211: the checks before any pixel read. OUT_LEN is 0 and nothing else changes but the hidden state that the
start of every DECODE sets: the packer is clear (R128), the cursor and the counters are 0 (R42, R43). That this start
comes before the checks is the model's (log 15). -/
def Obligations.DecodeEarlyErrors : Prop :=
  ∀ s : State, s.idle →
    let z : State :=
      { s with
        regs := { s.regs with outLen := 0#32 },
        eng := { s.eng with k := 0, c := .r, pcPix := 0, s := 0, d := 0, acc := 0#8, nacc := 0#3, j := 0 } }
    (s.w = 0 ∨ s.h = 0 → exec .decode s = .next (z.completed 0x00000002#32 .badGeometry)) ∧
    (0 < s.w → 0 < s.h → 3 * s.n < 580 → exec .decode s = .next (z.completed 0x00000002#32 .imageExhausted))

/-- R213, R214, R216, R217, R218: after the parse point, the checks in order under either end rule; the parsed header is
written, OUT_LEN is 0, and PBUF, the image and the configuration are unchanged. -/
def Obligations.DecodeParseErrors : Prop :=
  ∀ s : State, s.idle → 0 < s.w → 0 < s.h → 580 ≤ 3 * s.n → (∀ k, k ≤ 193 → s.hasPixel k) →
    let m := s.parsed.regs.pHdr.pMode.toNat
    let e := s.parsed.regs.encEnd.toNat
    let pb := match s.params.decEndRule with
      | .dataBits => e - 580
      | .slots => eligibleCount m 580 (max 580 e)
    let code :=
      if 1 < m then ErrCode.modeReserved
      else if (s.params.decEndRule = .dataBits ∧ payloadCapacity m s.n < pb) ∨
        (s.params.decEndRule = .slots ∧ 3 * s.n < e) then .imageExhausted
      else if pb % 8 ≠ 0 then .truncatedPayload
      else if s.params.pbufBytes < pb / 8 then .bufferRange
      else .none
    code ≠ .none →
      ∃ t, exec .decode s = .next t ∧ t = { s.parsed.completed 0x00000002#32 code with eng := t.eng } ∧
        t.eng.phase = .idle

/-- R212, R215, R219, R220, R221: a DECODE whose checks pass delivers the bytes of the LSBs of the first `pb` eligible
slots, under either end rule. OUT_LEN = pb / 8; PBUF bytes from there on, the image and the configuration are unchanged;
HDR and the parsed fields hold the header of slots 0..579. -/
def Obligations.DecodeExtractsPayload : Prop :=
  ∀ s : State, s.idle → 0 < s.w → 0 < s.h → 580 ≤ 3 * s.n →
    let m := s.parsed.regs.pHdr.pMode.toNat
    let pb := match s.params.decEndRule with
      | .dataBits => s.parsed.regs.encEnd.toNat - 580
      | .slots => eligibleCount m 580 (max 580 s.parsed.regs.encEnd.toNat)
    decodeCheck s.parsed = .none → (∀ k, k ≤ sigma m (579 + pb) / 3 → s.hasPixel k) →
      ∃ t bytes, exec .decode s = .next t ∧
        t = { s.parsed.completed 0x00000002#32 .none with
          pbuf := t.pbuf, eng := t.eng,
          regs := { (s.parsed.completed 0x00000002#32 .none).regs with outLen := BitVec.ofNat 32 (pb / 8) } } ∧
        t.eng.phase = .idle ∧ pb / 8 < 2 ^ 32 ∧
        bitsToBytes ((List.range pb).map (fun n => lsbExtract (s.slot (sigma m (580 + n))))) = .ok bytes ∧
        bytes.length = pb / 8 ∧
        (∀ j, pbufRead t j = if j < pb / 8 then bytes.getD j 0#8 else pbufRead s j)

/-- R212, R213: the 580 bits that phase 1 stores are the LSBs of slots 0..579, and the parsed fields are their slices. -/
def Obligations.DecodeReadsHeaderFromImage : Prop :=
  ∀ s : State,
    (∀ n, n < 580 → hdrBit s.parsed.hdr n = (s.image.byteAt (s.slotAddr n)).getLsbD 0) ∧
    s.parsed.regs.pHdr.pFileType = hdrBit s.parsed.hdr 0 ∧
    s.parsed.regs.pHdr.pMode.toNat = bitsToInt (hdrSlice s.parsed.hdr 1 4) ∧
    s.parsed.regs.pStart.toNat = bitsToInt (hdrSlice s.parsed.hdr 516 548) ∧
    s.parsed.regs.encEnd.toNat = bitsToInt (hdrSlice s.parsed.hdr 548 580) ∧
    (∀ j, j < 64 → (nbufRead s.parsed j).toNat = bitsToInt (hdrSlice s.parsed.hdr (4 + 8 * j) (12 + 8 * j)))

/-- R224: ENCODE followed by DECODE under DATA_BITS gives the payload, the mode, the file type and the name back, and the
DECODE leaves the image as ENCODE left it. -/
def Obligations.EncodeDecodeRoundTrip : Prop :=
  ∀ s : State, s.idle → s.fitsImage → s.params.decEndRule = .dataBits → encodeCheck s = .none →
    580 ≤ 3 * s.n → 8 * s.len ≤ payloadCapacity s.mode s.n →
    ∃ t u, exec .encode s = .next t ∧ exec .decode t = .next u ∧
      t.regs.status.errCode = .none ∧ u.regs.status.errCode = .none ∧
      u.regs.outLen.toNat = s.len ∧ (∀ j, j < s.len → pbufRead u j = pbufRead s j) ∧
      u.regs.pHdr.pFileType = s.regs.cfg.isFile ∧ u.regs.pHdr.pMode = s.regs.cfg.mode ∧
      u.regs.encEnd = t.regs.encEnd ∧ u.image = t.image ∧
      (s.regs.cfg.isFile = true → s.params.namePad = .leading →
        (∀ q, q < s.regs.cfg.nameLen.toNat → nbufRead u (64 - s.regs.cfg.nameLen.toNat + q) = nbufRead s q) ∧
        (∀ j, j < 64 - s.regs.cfg.nameLen.toNat → nbufRead u j = 0#8))

/-- R225: under SLOTS, a mode-1 DECODE of a stream of L ≥ 1 bytes has fewer than 8·L payload bits, and ends in
TRUNCATED_PAYLOAD or in a payload shorter than L. For L = 3 it has 12 bits and ends in TRUNCATED_PAYLOAD. -/
def Obligations.SlotsRuleLosesModeOnePayload : Prop :=
  (∀ len, 1 ≤ len → payloadBits .slots 1 (580 + 8 * len) = eligibleCount 1 580 (580 + 8 * len) ∧
    eligibleCount 1 580 (580 + 8 * len) < 8 * len) ∧
  payloadBits .slots 1 (580 + 8 * 3) = 12 ∧
  ∀ s : State, s.idle → s.fitsImage → s.params.decEndRule = .slots → s.mode = 1 → 1 ≤ s.len → encodeCheck s = .none →
    580 ≤ 3 * s.n → 8 * s.len ≤ payloadCapacity 1 s.n →
    ∃ t u, exec .encode s = .next t ∧ exec .decode t = .next u ∧
      (u.regs.status.errCode = .truncatedPayload ∨ (u.regs.status.errCode = .none ∧ u.regs.outLen.toNat < s.len)) ∧
      (s.len = 3 → u.regs.status.errCode = .truncatedPayload)

/-- U7, log 9: an ENCODE or DECODE that passes its checks and whose walk meets a pixel that the external image does not
have is refused by name. The stop is the model's choice; the spec leaves the pixel's response outside. -/
def Obligations.WalkStopsOutsideImage : Prop :=
  ∀ (s : State) (k : Nat), s.idle → 580 ≤ 3 * s.n → ¬ s.hasPixel k →
    (encodeCheck s = .none → 8 * s.len ≤ payloadCapacity s.mode s.n → k ≤ s.lastSlot / 3 →
      exec .encode s = .refused .pixelOutsideImage) ∧
    (k ≤ 193 → exec .decode s = .refused .pixelOutsideImage) ∧
    ((∀ j, j ≤ 193 → s.hasPixel j) → decodeCheck s.parsed = .none →
      k ≤ sigma s.parsed.regs.pHdr.pMode.toNat
        (579 + payloadBits s.params.decEndRule s.parsed.regs.pHdr.pMode.toNat s.parsed.regs.encEnd.toNat) / 3 →
      exec .decode s = .refused .pixelOutsideImage)

/-- R93: DECODE takes the channel mode from the image, not from CFG: its run does not depend on CFG or PAYLOAD_LEN. -/
def Obligations.DecodeIgnoresConfiguration : Prop :=
  ∀ (s t : State) (c : Cfg) (len : Word), exec .decode s = .next t →
    exec .decode { s with regs := { s.regs with cfg := c, payloadLen := len } } =
      .next { t with regs := { t.regs with cfg := c, payloadLen := len } }

/-! ### What commands may change and report (30_encoding.md R93, 60_exceptions.md) -/

/-- R93: what each command writes. Everything not listed for it is unchanged (the hidden engine state, which no command
reads before it sets it, apart). -/
def Obligations.CommandWriteSets : Prop :=
  ∀ (i : Instr) (s t : State), s.idle → exec i s = .next t →
    t = { s with
      regs := { s.regs with
        status := t.regs.status,
        encEnd := if i = .nop then s.regs.encEnd else t.regs.encEnd,
        outLen := if i = .decode then t.regs.outLen else s.regs.outLen,
        pHdr := if i = .decode ∨ i = .hdrParse then t.regs.pHdr else s.regs.pHdr,
        pStart := if i = .decode ∨ i = .hdrParse then t.regs.pStart else s.regs.pStart },
      nbuf := if i = .decode ∨ i = .hdrParse then t.nbuf else s.nbuf,
      hdr := if i = .encode ∨ i = .decode ∨ i = .hdrBuild then t.hdr else s.hdr,
      pbuf := if i = .decode then t.pbuf else s.pbuf,
      image := if i = .encode then t.image else s.image,
      eng := t.eng } ∧
    t.regs.status.accErr = s.regs.status.accErr

/-- R253: a command that errs has changed, besides STATUS and the hidden engine state, exactly this. HDR_BUILD: nothing.
ENCODE: nothing, or HDR and ENC_END with IMAGE_TOO_SMALL. DECODE: OUT_LEN, which is 0, and after the parse point the
parsed header. An illegal word: nothing. -/
def Obligations.ErrorsArePrecise : Prop :=
  (∀ (i : Instr) (s t : State), s.idle → exec i s = .next t → t.regs.status.errCode ≠ .none →
    let parsed := i = .decode ∧ 0 < s.w ∧ 0 < s.h ∧ 580 ≤ 3 * s.n
    let built := i = .encode ∧ t.regs.status.errCode = .imageTooSmall
    t = { s with
      regs := { s.regs with
        status := t.regs.status,
        encEnd := if parsed ∨ built then t.regs.encEnd else s.regs.encEnd,
        outLen := if i = .decode then 0#32 else s.regs.outLen,
        pHdr := if parsed then t.regs.pHdr else s.regs.pHdr,
        pStart := if parsed then t.regs.pStart else s.regs.pStart },
      nbuf := if parsed then t.nbuf else s.nbuf,
      hdr := if parsed ∨ built then t.hdr else s.hdr,
      eng := t.eng }) ∧
  ∀ (v : Word) (s : State), s.idle → (∀ j, decode v ≠ .ok j) →
    callWord v s = .next (s.completed v .illegalCommand)

/-- R251, R254: the codes each command can report. -/
def Obligations.CommandsReportTheirErrors : Prop :=
  ∀ (i : Instr) (s t : State), s.idle → exec i s = .next t →
    match i with
    | .nop => t.regs.status.errCode = .none
    | .hdrParse => t.regs.status.errCode = .none
    | .hdrBuild => t.regs.status.errCode ∈ [ErrCode.none, .modeReserved, .nameTooLong, .valueTooWide]
    | .encode =>
      t.regs.status.errCode ∈
        [ErrCode.none, .badGeometry, .modeReserved, .nameTooLong, .bufferRange, .valueTooWide, .imageTooSmall]
    | .decode =>
      t.regs.status.errCode ∈
        [ErrCode.none, .badGeometry, .imageExhausted, .modeReserved, .truncatedPayload, .bufferRange]

/-- R255, R256: `irq`; it follows IRQ_EN when a command completes; what makes it fall: W1C of DONE, IRQ_EN written 0,
the next acceptance, reset. Reading STATUS does not. -/
def Obligations.InterruptOutput : Prop :=
  ∀ (s : State) (v : Word),
    s.irq = (s.regs.status.done && s.regs.irqEn) ∧
    (v.getLsbD 1 = true → (hostAccess (Access.wr 0x00C#32 v) s).irq = false) ∧
    (v.getLsbD 1 = false → (hostAccess (Access.wr 0x00C#32 v) s).irq = s.irq) ∧
    (hostAccess (Access.wr 0x004#32 v) s).irq = (s.regs.status.done && v.getLsbD 0) ∧
    (s.idle → (hostAccess (Access.wr 0x008#32 v) s).irq = false) ∧
    (hostAccess (Access.rd 0x00C#32) s).irq = s.irq ∧
    (resetBlock s).irq = false ∧ (complete s).irq = s.regs.irqEn

/-- R259, R25: ACCERR is sticky: a step clears it only by a STATUS write with bit 16, or by reset: `rst` goes asserted, or
is. -/
def Obligations.AccErrIsSticky : Prop :=
  ∀ s t : State, step s = .next t → s.regs.status.accErr = true → t.regs.status.accErr = false →
    s.rst = true ∨ ∃ rest, s.inputs = .rst true :: rest ∨
      ∃ v : Word, v.getLsbD 16 = true ∧ s.inputs = .access (Access.wr 0x00C#32 v) :: rest

/-- R25, R257: DONE rises only when a command completes: by the engine's completion step, or by a waited call; never
while `rst` is asserted. -/
def Obligations.DoneRisesOnlyAtCompletion : Prop :=
  ∀ s t : State, step s = .next t → s.regs.status.done = false → t.regs.status.done = true →
    s.rst = false ∧
    ((s.eng.phase = .finish ∧ (s.inputs = [] ∨ ∃ rest, s.inputs = .engine :: rest)) ∨
      (s.idle ∧ ∃ v rest, s.inputs = .call v :: rest))

/-! ### The host register interface (10_state.md, 20_memory.md) -/

/-- R23, R26 to R29: a write while idle stores the register's fields and nothing else; the read after it gives the stored
bits, reserved bits 0. -/
def Obligations.ConfigurationReadAfterWrite : Prop :=
  ∀ (s : State) (v : Word), s.idle →
    (hostAccess (Access.wr 0x004#32 v) s = { s with regs := { s.regs with irqEn := v.getLsbD 0 } } ∧
      (hostAccess (Access.rd 0x004#32) (hostAccess (Access.wr 0x004#32 v) s)).rdata = v &&& 0x00000001#32) ∧
    (hostAccess (Access.wr 0x010#32 v) s = { s with regs := { s.regs with width := v.extractLsb' 0 16 } } ∧
      (hostAccess (Access.rd 0x010#32) (hostAccess (Access.wr 0x010#32 v) s)).rdata = v &&& 0x0000FFFF#32) ∧
    (hostAccess (Access.wr 0x014#32 v) s = { s with regs := { s.regs with height := v.extractLsb' 0 16 } } ∧
      (hostAccess (Access.rd 0x014#32) (hostAccess (Access.wr 0x014#32 v) s)).rdata = v &&& 0x0000FFFF#32) ∧
    (hostAccess (Access.wr 0x018#32 v) s =
        { s with regs := { s.regs with
          cfg := { mode := v.extractLsb' 0 3, isFile := v.getLsbD 8, nameLen := v.extractLsb' 16 7 } } } ∧
      (hostAccess (Access.rd 0x018#32) (hostAccess (Access.wr 0x018#32 v) s)).rdata = v &&& 0x007F0107#32) ∧
    (hostAccess (Access.wr 0x01C#32 v) s = { s with regs := { s.regs with payloadLen := v } } ∧
      (hostAccess (Access.rd 0x01C#32) (hostAccess (Access.wr 0x01C#32 v) s)).rdata = v)

/-- R25, R251: the STATUS word, readable at any time, the numbers of the error codes in it, and its W1C write, which
clears DONE and ACCERR and nothing else. -/
def Obligations.StatusRegister : Prop :=
  ∀ (s : State) (v : Word),
    (∃ d, hostAccess (Access.rd 0x00C#32) s = { s with rdata := d } ∧
      d.getLsbD 0 = s.regs.status.busy ∧ d.getLsbD 1 = s.regs.status.done ∧ d.getLsbD 2 = s.regs.status.err ∧
      d.extractLsb' 8 4 = s.regs.status.errCode.code ∧ d.getLsbD 16 = s.regs.status.accErr ∧
      d &&& 0xFFFEF0F8#32 = 0#32) ∧
    hostAccess (Access.wr 0x00C#32 v) s =
      { s with regs := { s.regs with
        status := { s.regs.status with
          done := s.regs.status.done && !v.getLsbD 1, accErr := s.regs.status.accErr && !v.getLsbD 16 } } } ∧
    ErrCode.none.code = 0#4 ∧ ErrCode.illegalCommand.code = 1#4 ∧ ErrCode.badGeometry.code = 2#4 ∧
    ErrCode.modeReserved.code = 3#4 ∧ ErrCode.nameTooLong.code = 4#4 ∧ ErrCode.bufferRange.code = 5#4 ∧
    ErrCode.valueTooWide.code = 6#4 ∧ ErrCode.imageTooSmall.code = 7#4 ∧ ErrCode.imageExhausted.code = 8#4 ∧
    ErrCode.truncatedPayload.code = 9#4

/-- R21, R22, R24, R30 to R33: writes to the read-only registers change nothing; reads of ID and CMD; reads of the result
registers while idle. That a read of CMD and a write to a read-only register set no ACCERR while BUSY either is the
model's (log 12). The read data's field is the model's too (log 13). -/
def Obligations.ReadOnlyRegisters : Prop :=
  ∀ (s : State) (v : Word),
    (∀ off ∈ [0x000#32, 0x020#32, 0x024#32, 0x028#32, 0x02C#32], hostAccess (Access.wr off v) s = s) ∧
    hostAccess (Access.rd 0x000#32) s = { s with rdata := 0x4C534231#32 } ∧
    hostAccess (Access.rd 0x008#32) s = { s with rdata := 0#32 } ∧
    (s.idle →
      hostAccess (Access.rd 0x020#32) s = { s with rdata := s.regs.encEnd } ∧
      hostAccess (Access.rd 0x024#32) s = { s with rdata := s.regs.outLen } ∧
      hostAccess (Access.rd 0x02C#32) s = { s with rdata := s.regs.pStart } ∧
      ∃ d, hostAccess (Access.rd 0x028#32) s = { s with rdata := d } ∧ d.extractLsb' 0 3 = s.regs.pHdr.pMode ∧
        d.getLsbD 8 = s.regs.pHdr.pFileType ∧ d &&& 0xFFFFFEF8#32 = 0#32)

/-- R63, R64: NBUF and PBUF words over their whole windows, little-endian byte lanes; a write changes its four bytes and
nothing else. -/
def Obligations.BufferWords : Prop :=
  ∀ (s : State) (m : Nat) (v : Word), s.idle → s.params.wf = true →
    (m < 16 →
      (∃ nb, hostAccess (Access.wr (BitVec.ofNat 32 (0x100 + 4 * m)) v) s = { s with nbuf := nb } ∧
        ∀ n, nbufRead { s with nbuf := nb } n = if n / 4 = m then v.extractLsb' (8 * (n % 4)) 8 else nbufRead s n) ∧
      (∃ d, hostAccess (Access.rd (BitVec.ofNat 32 (0x100 + 4 * m))) s = { s with rdata := d } ∧
        ∀ n, n / 4 = m → nbufRead s n = d.extractLsb' (8 * (n % 4)) 8)) ∧
    (4 * m < s.params.pbufBytes →
      (∃ pb, hostAccess (Access.wr (BitVec.ofNat 32 (0x1000 + 4 * m)) v) s = { s with pbuf := pb } ∧
        ∀ n, pbufRead { s with pbuf := pb } n = if n / 4 = m then v.extractLsb' (8 * (n % 4)) 8 else pbufRead s n) ∧
      (∃ d, hostAccess (Access.rd (BitVec.ofNat 32 (0x1000 + 4 * m))) s = { s with rdata := d } ∧
        ∀ n, n / 4 = m → pbufRead s n = d.extractLsb' (8 * (n % 4)) 8))

/-- R65: HDR words, MSB first; of word 18 only bits [31:28] exist. -/
def Obligations.HdrWords : Prop :=
  ∀ (s : State) (m : Nat) (v : Word), s.idle → m < 19 →
    (∃ h, hostAccess (Access.wr (BitVec.ofNat 32 (0x200 + 4 * m)) v) s = { s with hdr := h } ∧
      ∀ n, n < 580 → hdrBit h n = if n / 32 = m then v.getLsbD (31 - n % 32) else hdrBit s.hdr n) ∧
    (∃ d, hostAccess (Access.rd (BitVec.ofNat 32 (0x200 + 4 * m))) s = { s with rdata := d } ∧
      ∀ t, t < 32 → d.getLsbD (31 - t) = if 32 * m + t < 580 then hdrBit s.hdr (32 * m + t) else false)

/-- R37: reserved offsets read 0 and ignore writes, without ACCERR, at any time; so do bits [27:0] of HDR word 18. -/
def Obligations.ReservedOffsets : Prop :=
  ∀ (s : State) (off v : Word), off.toNat % 4 = 0 →
    ((0x030 ≤ off.toNat ∧ off.toNat ≤ 0x0FC) ∨ (0x140 ≤ off.toNat ∧ off.toNat ≤ 0x1FC) ∨
      (0x24C ≤ off.toNat ∧ off.toNat ≤ 0xFFC) ∨ 0x1000 + s.params.pbufBytes ≤ off.toNat) →
    hostAccess (Access.rd off) s = { s with rdata := 0#32 } ∧ hostAccess (Access.wr off v) s = s ∧
    (s.idle →
      (hostAccess (Access.rd 0x248#32) s).rdata &&& 0x0FFFFFFF#32 = 0#32 ∧
      hostAccess (Access.wr 0x248#32 v) s = hostAccess (Access.wr 0x248#32 (v &&& 0xF0000000#32)) s)

/-- R62: a byte, halfword or misaligned access, at any offset and any time: a write is dropped, a read returns 0, both
set ACCERR and change nothing else. That R62 wins over R37 at reserved offsets, and over R287 for reads while BUSY, is the
model's (log 11). -/
def Obligations.UnsupportedAccess : Prop :=
  ∀ (s : State) (a : Access), a.size ≠ .word ∨ a.offset.toNat % 4 ≠ 0 →
    (a.dir = .read → hostAccess a s =
      { s with rdata := 0#32, regs := { s.regs with status := { s.regs.status with accErr := true } } }) ∧
    (∀ v, a.dir = .write v → hostAccess a s =
      { s with regs := { s.regs with status := { s.regs.status with accErr := true } } })

/-- R287, R49, R259: accesses while BUSY. Writes of configuration, buffers and CMD are dropped with ACCERR; reads of
results and buffers give a value nothing constrains, with ACCERR; the allowed reads give their values; CTRL is writable. -/
def Obligations.BusyAccesses : Prop :=
  ∀ (s : State) (v off : Word), ¬ s.idle → off.toNat % 4 = 0 →
    (off ∈ [0x008#32, 0x010#32, 0x014#32, 0x018#32, 0x01C#32] ∨ (0x100 ≤ off.toNat ∧ off.toNat < 0x140) ∨
      (0x200 ≤ off.toNat ∧ off.toNat < 0x24C) ∨ (0x1000 ≤ off.toNat ∧ off.toNat < 0x1000 + s.params.pbufBytes) →
      hostAccess (Access.wr off v) s =
        { s with regs := { s.regs with status := { s.regs.status with accErr := true } } }) ∧
    (off ∈ [0x020#32, 0x024#32, 0x028#32, 0x02C#32] ∨ (0x100 ≤ off.toNat ∧ off.toNat < 0x140) ∨
      (0x200 ≤ off.toNat ∧ off.toNat < 0x24C) ∨ (0x1000 ≤ off.toNat ∧ off.toNat < 0x1000 + s.params.pbufBytes) →
      hostAccess (Access.rd off) s =
        { s with
          rdata := Config.busyRead s.draws, draws := s.draws + 1,
          regs := { s.regs with status := { s.regs.status with accErr := true } } }) ∧
    (hostAccess (Access.rd 0x004#32) s = { s with rdata := ctrlToWord s.regs.irqEn } ∧
      hostAccess (Access.rd 0x010#32) s = { s with rdata := s.regs.width.setWidth 32 } ∧
      hostAccess (Access.rd 0x014#32) s = { s with rdata := s.regs.height.setWidth 32 } ∧
      hostAccess (Access.rd 0x018#32) s = { s with rdata := s.regs.cfg.toWord } ∧
      hostAccess (Access.rd 0x01C#32) s = { s with rdata := s.regs.payloadLen } ∧
      hostAccess (Access.wr 0x004#32 v) s = { s with regs := { s.regs with irqEn := v.getLsbD 0 } })

/-! ### The image memory (20_memory.md) -/

/-- R66, R68, R69: while idle the collaborator reads and writes whole pixels; a read changes nothing, a read after a write
gives the pixel written, other pixels stay, and writing back the pixel just read leaves the image memory unchanged. R287:
a read is no race while a command other than ENCODE runs either; that R287 decides there against R75 is the model's
(log 10), and so is the field of the pixel read (log 13). -/
def Obligations.PixelReadAndWrite : Prop :=
  ∀ (s : State) (x y : Nat) (p : Pixel), s.image.has x y = true →
    (s.idle ∨ s.eng.cmd ≠ 0x00000001#32 → readPixel x y s = .next { s with ipix := s.image.pixel x y }) ∧
    (s.idle → ∃ t, writePixel x y p s = .next t ∧ t = { s with image := t.image } ∧
      t.image.width = s.image.width ∧ t.image.height = s.image.height ∧ t.image.pixel x y = p ∧
      (∀ a b, s.image.has a b = true → (a, b) ≠ (x, y) → t.image.pixel a b = s.image.pixel a b) ∧
      (p = s.image.pixel x y → ∀ a, t.image.byteAt a = s.image.byteAt a))

/-- R70: while a command walks, the pixel it is at lies inside W×H: every pixel-port access of the engine does. -/
def Obligations.WalkStaysInBounds : Prop :=
  ∀ s : State, Inv s →
    (s.eng.phase = .encWalk ∨ s.eng.phase = .decHdr ∨ (s.eng.phase = .decPay ∧ s.eng.d ≠ 580 + s.eng.pb)) →
    s.eng.k < s.n ∧ walkX s.h s.eng.k < s.w ∧ walkY s.h s.eng.k < s.h

/-- R66, R93, R253: a step changes the image only in ENCODE's walk, in a waited ENCODE, or by the image collaborator, the
first two only with `rst` deasserted. -/
def Obligations.OnlyEncodeAndCollaboratorChangeImage : Prop :=
  ∀ s t : State, step s = .next t → t.image ≠ s.image →
    (s.rst = false ∧ s.eng.phase = .encWalk ∧ (s.inputs = [] ∨ ∃ rest, s.inputs = .engine :: rest)) ∨
    (s.rst = false ∧ s.idle ∧ ∃ rest, s.inputs = .call 0x00000001#32 :: rest) ∨
    ((s.idle ∨ s.rst = true) ∧ ∃ rest,
      (∃ w h cs, s.inputs = .loadImage w h cs :: rest) ∨ (∃ x y p, s.inputs = .writePixel x y p :: rest))

/-! ### Reset, invariants, stops -/

/-- R280, R48: asserting `rst`, at any moment, gives every register its reset value, HDR all zero, the engine IDLE and
`irq` 0, and leaves the image; NBUF and PBUF bytes read as values nothing constrains. Power-on reset gives the same
register values. What else survives `rst` is the model's (log 14). -/
def Obligations.ResetInput : Prop :=
  (∀ (s : State) (rest : List Input), s.inputs = .rst true :: rest →
    ∃ t, step s = .next t ∧ t.rst = true ∧ t.irq = false ∧ t.eng.phase = .idle ∧ t.image = s.image ∧ t.hdr = 0#580 ∧
      t.regs = State.reset.regs ∧ t.params = s.params ∧ t.inputs = rest ∧
      (∀ n, nbufRead t n = Config.ramByte (s.ramEpoch + 1) (0x100 + n)) ∧
      (∀ n, pbufRead t n = Config.ramByte (s.ramEpoch + 1) (0x1000 + n))) ∧
  State.reset.regs =
    { irqEn := false,
      status := { busy := false, done := false, err := false, errCode := .none, accErr := false },
      width := 0#16, height := 0#16, cfg := { mode := 0#3, isFile := false, nameLen := 0#7 },
      payloadLen := 0#32, encEnd := 0#32, outLen := 0#32,
      pHdr := { pMode := 0#3, pFileType := false }, pStart := 0#32 } ∧
  State.reset.hdr = 0#580 ∧ State.reset.eng.phase = .idle ∧ State.reset.irq = false ∧ State.reset.rst = false

/-- The invariant holds right after reset. -/
def Obligations.ResetHoldsInvariant : Prop := Inv State.reset

/-- The invariant: canonical memories inside their spaces, STATUS agreeing with the phase, the walk's counters agreeing
with the cursor and the checks. Every step keeps it. -/
def Obligations.StepKeepsInvariant : Prop := ∀ s t : State, Inv s → step s = .next t → Inv t

/-- R49: while a command runs, no step but reset changes the configuration. No step changes the parameters. -/
def Obligations.ConfigurationStableWhileBusy : Prop :=
  ∀ s t : State, step s = .next t →
    t.params = s.params ∧
    (¬ s.idle → s.rst = false → (∀ rest, s.inputs ≠ .rst true :: rest) →
      t.regs.width = s.regs.width ∧ t.regs.height = s.regs.height ∧ t.regs.cfg = s.regs.cfg ∧
      t.regs.payloadLen = s.regs.payloadLen)

/-- The model stops only where it says. A fault is exactly the race of R287 and U5: the image collaborator loads or writes
while BUSY, or reads while an ENCODE runs (log 10); none while `rst` is asserted. A refusal is a pixel that the image does
not have (log 9) and comes neither from a host access nor from a reset, and while `rst` is asserted only from the
collaborator. -/
def Obligations.StopsAreNamed : Prop :=
  ∀ s : State,
    (∀ f, step s = .fault f ↔ s.rst = false ∧ ¬ s.idle ∧ f = .imageRace ∧
      ∃ rest, (∃ w h cs, s.inputs = .loadImage w h cs :: rest) ∨
        (s.eng.cmd = 0x00000001#32 ∧ ∃ x y, s.inputs = .readPixel x y :: rest) ∨
        (∃ x y p, s.inputs = .writePixel x y p :: rest)) ∧
    (∀ r, step s = .refused r → r = .pixelOutsideImage ∧
      (∀ rest, (∀ level, s.inputs ≠ .rst level :: rest) ∧ ∀ a, s.inputs ≠ .access a :: rest) ∧
      (s.rst = true → ∃ rest x y,
        s.inputs = .readPixel x y :: rest ∨ ∃ p, s.inputs = .writePixel x y p :: rest))

/-- R280: while `rst` is asserted, and at the step that deasserts it, whatever happens leaves every register at its reset
value, HDR zero, the engine IDLE, `irq` 0 and NBUF and PBUF at values nothing constrains. Every host access, CMD write,
waited call and engine step is taken and changes nothing of the block; the image changes only by its collaborator; `rst`
is deasserted only by being driven so, and the block then accepts a command at once. That the host interface answers at
all while `rst` is asserted is the model's (log 14). -/
def Obligations.AssertedResetHoldsBlock : Prop :=
  ∀ s : State, s.rst = true →
    (∀ t, step s = .next t →
      t.regs = State.reset.regs ∧ t.hdr = 0#580 ∧ t.eng.phase = .idle ∧ t.irq = false ∧ t.params = s.params ∧
      (∀ n, nbufRead t n = Config.ramByte (s.ramEpoch + 1) (0x100 + n)) ∧
      (∀ n, pbufRead t n = Config.ramByte (s.ramEpoch + 1) (0x1000 + n)) ∧
      (t.rst = true ∨ ∃ rest, s.inputs = .rst false :: rest) ∧
      (t.image = s.image ∨ ∃ rest, (∃ w h cs, s.inputs = .loadImage w h cs :: rest) ∨
        (∃ x y p, s.inputs = .writePixel x y p :: rest))) ∧
    (s.inputs = [] → ∃ t, step s = .next t) ∧
    (∀ rest, s.inputs = .engine :: rest ∨ (∃ a, s.inputs = .access a :: rest) ∨ (∃ v, s.inputs = .call v :: rest) →
      ∃ t, step s = .next t ∧ t.image = s.image ∧ t.rst = true ∧ t.inputs = rest) ∧
    (∀ rest level, s.inputs = .rst level :: rest →
      ∃ t, step s = .next t ∧ t.image = s.image ∧ t.rst = level ∧ t.inputs = rest ∧ t.idle)
end

