-- ==== Sys2Proof/Laws/BitStream.lean ====
section
/-! SUPPORT. The BitStream functions: lengths, single bits, and what the header buffer holds after a store. -/

namespace Sys2Proof.Machine

/-! ### bitsToInt -/

@[simp] theorem bitsToInt_nil : bitsToInt [] = 0 := rfl

theorem bitsToInt_foldl (bs : List Bool) (v : Nat) :
    bs.foldl (fun v b => 2 * v + b.toNat) v = v * 2 ^ bs.length + bitsToInt bs := by
  induction bs generalizing v with
  | nil => simp [bitsToInt]
  | cons b bs ih =>
    have h : bitsToInt (b :: bs) = (2 * 0 + b.toNat) * 2 ^ bs.length + bitsToInt bs := ih (2 * 0 + b.toNat)
    rw [List.foldl_cons, ih, h, List.length_cons, Nat.pow_succ]
    ring

theorem bitsToInt_append (as bs : List Bool) : bitsToInt (as ++ bs) = bitsToInt as * 2 ^ bs.length + bitsToInt bs := by
  conv_lhs => unfold bitsToInt
  rw [List.foldl_append, bitsToInt_foldl]
  rfl

theorem bitsToInt_concat (bs : List Bool) (b : Bool) : bitsToInt (bs ++ [b]) = 2 * bitsToInt bs + b.toNat := by
  simp [bitsToInt]

theorem bitsToInt_lt (bs : List Bool) : bitsToInt bs < 2 ^ bs.length := by
  induction bs using List.reverseRecOn with
  | nil => simp
  | append_singleton bs b ih =>
    rw [bitsToInt_concat, List.length_append, List.length_singleton, Nat.pow_succ]
    have : b.toNat ≤ 1 := Bool.toNat_le b
    omega

/-- Bit `j` of the value is the `j`-th bit from the end of the sequence. -/
theorem bitsToInt_testBit (bs : List Bool) (j : Nat) :
    (bitsToInt bs).testBit j = (decide (j < bs.length) && bs.getD (bs.length - 1 - j) false) := by
  induction bs using List.reverseRecOn generalizing j with
  | nil => simp
  | append_singleton bs b ih =>
    rw [bitsToInt_concat]
    cases j with
    | zero =>
      have : (2 * bitsToInt bs + b.toNat).testBit 0 = b := by
        rw [Nat.testBit_zero]; cases b <;> simp [Nat.add_mod]
      simp [this]
    | succ j =>
      rw [Nat.testBit_succ]
      have : (2 * bitsToInt bs + b.toNat) / 2 = bitsToInt bs := by
        have : b.toNat ≤ 1 := Bool.toNat_le b
        omega
      rw [this, ih]
      simp only [List.length_append, List.length_singleton]
      by_cases h : j < bs.length
      · have e : bs.length + 1 - 1 - (j + 1) = bs.length - 1 - j := by omega
        simp only [h, decide_true, Bool.true_and, show j + 1 < bs.length + 1 by omega, e]
        rw [List.getD_append _ _ _ _ (by omega)]
      · simp [h]

/-! ### intBits and intToBits -/

@[simp] theorem intBits_length (v w : Nat) : (intBits v w).length = w := by simp [intBits]

theorem intBits_getElem (v w t : Nat) (h : t < (intBits v w).length) : (intBits v w)[t] = v.testBit (w - 1 - t) := by
  simp [intBits]

theorem bitsToInt_intBits (v w : Nat) : bitsToInt (intBits v w) = v % 2 ^ w := by
  apply Nat.eq_of_testBit_eq
  intro j
  rw [bitsToInt_testBit, Nat.testBit_mod_two_pow, intBits_length]
  by_cases h : j < w
  · simp only [h, decide_true, Bool.true_and]
    rw [List.getD_eq_getElem _ _ (by simp; omega), intBits_getElem]
    congr 1
    omega
  · simp [h]

theorem bitsToInt_intBits_of_lt {v w : Nat} (h : v < 2 ^ w) : bitsToInt (intBits v w) = v := by
  rw [bitsToInt_intBits, Nat.mod_eq_of_lt h]

/-! ### bytes -/

@[simp] theorem bits8_length (b : Byte) : (bits8 b).length = 8 := rfl

theorem bits8_eq_intBits (b : Byte) : bits8 b = intBits b.toNat 8 := rfl

theorem bitsToInt_bits8 (b : Byte) : bitsToInt (bits8 b) = b.toNat := by
  rw [bits8_eq_intBits]; exact bitsToInt_intBits_of_lt b.isLt

theorem fileToBits_eq_textToBits (bs : List Byte) : fileToBits bs = textToBits bs := rfl

@[simp] theorem textToBits_length (bs : List Byte) : (textToBits bs).length = 8 * bs.length := by
  induction bs with
  | nil => rfl
  | cons b bs ih =>
    simp only [textToBits, List.flatMap_cons, List.length_append, bits8_length, List.length_cons] at ih ⊢
    omega

/-- Bit `n` of a byte sequence is bit 7 − n mod 8 of its byte n div 8. -/
theorem textToBits_getD (bs : List Byte) (n : Nat) :
    (textToBits bs).getD n false = (bs.getD (n / 8) 0#8).getLsbD (7 - n % 8) := by
  induction bs generalizing n with
  | nil => simp [textToBits]
  | cons b bs ih =>
    have e : textToBits (b :: bs) = bits8 b ++ textToBits bs := rfl
    rw [e]
    by_cases h : n < 8
    · rw [List.getD_append _ _ _ _ (by simpa using h), Nat.div_eq_of_lt h, Nat.mod_eq_of_lt h]
      rw [List.getD_eq_getElem _ _ (by simpa using h)]
      simp [bits8]
    · rw [List.getD_append_right _ _ _ _ (by simp; omega), bits8_length, ih]
      have h1 : n / 8 = (n - 8) / 8 + 1 := by omega
      have h2 : n % 8 = (n - 8) % 8 := by omega
      rw [h1, h2]
      simp

/-! ### vectors from bits -/

theorem ofMsbFn_getMsbD (n : Nat) (f : Nat → Bool) (t : Nat) :
    (ofMsbFn n f).getMsbD t = (decide (t < n) && f t) := by
  rw [BitVec.getMsbD, ofMsbFn]
  by_cases h : t < n
  · simp only [h, decide_true, Bool.true_and]
    rw [BitVec.getLsbD_ofNat, bitsToInt_testBit]
    simp only [List.length_map, List.length_range]
    have e : n - 1 - (n - 1 - t) = t := by omega
    rw [e, List.getD_eq_getElem _ _ (by simpa using h)]
    simp [show n - 1 - t < n by omega]
  · simp [h]

theorem hdrBit_hdrOfBits {bits : List Bool} (h : bits.length = 580) (n : Nat) :
    hdrBit (hdrOfBits bits) n = bits.getD n false := by
  rw [hdrBit, BitVec.getMsbD, hdrOfBits]
  by_cases hn : n < 580
  · simp only [hn, decide_true, Bool.true_and]
    rw [BitVec.getLsbD_ofNat, bitsToInt_testBit, h]
    have e : 580 - 1 - (580 - 1 - n) = n := by omega
    rw [e]
    simp [show 580 - 1 - n < 580 by omega]
  · rw [List.getD_eq_default _ _ (by omega)]
    simp [hn]

theorem HdrBits.ext_bit {a b : HdrBits} (h : ∀ n < 580, hdrBit a n = hdrBit b n) : a = b := by
  apply BitVec.eq_of_getMsbD_eq
  intro i hi
  exact h i hi

theorem hdrBit_of_ge (h : HdrBits) {n : Nat} (hn : 580 ≤ n) : hdrBit h n = false := by
  simp [hdrBit, BitVec.getMsbD, show ¬ n < 580 by omega]

theorem hdrBit_hdrSetBit (h : HdrBits) {n : Nat} (b : Bool) (hn : n < 580) (t : Nat) :
    hdrBit (hdrSetBit h n b) t = if t = n then b else hdrBit h t := by
  by_cases ht : t < 580
  · simp only [hdrBit, hdrSetBit, BitVec.getMsbD, ht, decide_true, Bool.true_and]
    cases b
    · simp only [Bool.false_eq_true, if_false, BitVec.getLsbD_and, BitVec.getLsbD_not, BitVec.getLsbD_twoPow]
      by_cases e : t = n
      · simp [e, show 579 - n < 580 by omega]
      · have : 579 - n ≠ 579 - t := by omega
        simp [e, this, show 579 - t < 580 by omega]
    · simp only [if_true, BitVec.getLsbD_or, BitVec.getLsbD_twoPow]
      by_cases e : t = n
      · simp [e, show 579 - n < 580 by omega]
      · have : 579 - n ≠ 579 - t := by omega
        simp [e, this]
  · rw [hdrBit_of_ge _ (by omega), hdrBit_of_ge _ (by omega), if_neg (by omega)]

@[simp] theorem hdrSlice_length (h : HdrBits) (a b : Nat) : (hdrSlice h a b).length = b - a := by simp [hdrSlice]

theorem hdrSlice_congr {g h : HdrBits} {a b : Nat} (e : ∀ n, a ≤ n → n < b → hdrBit g n = hdrBit h n) :
    hdrSlice g a b = hdrSlice h a b := by
  apply List.map_congr_left
  intro t ht
  rw [List.mem_range] at ht
  exact e _ (by omega) (by omega)

/-- A slice of a stored bit sequence is that slice of the sequence. -/
theorem hdrSlice_hdrOfBits {pre mid post : List Bool} (h : (pre ++ mid ++ post).length = 580) :
    hdrSlice (hdrOfBits (pre ++ mid ++ post)) pre.length (pre.length + mid.length) = mid := by
  apply List.ext_getElem
  · simp
  · intro t h1 h2
    simp only [hdrSlice, List.getElem_map, List.getElem_range]
    rw [hdrBit_hdrOfBits h, List.append_assoc, List.getD_append_right _ _ _ _ (by omega)]
    rw [show pre.length + t - pre.length = t by omega, List.getD_append _ _ _ _ h2, List.getD_eq_getElem _ _ h2]

/-! ### host words of HDR -/

theorem hdrWord_getMsbD (h : HdrBits) (w t : Nat) :
    (hdrWord h w).getMsbD t = (decide (t < 32) && hdrBit h (32 * w + t)) := ofMsbFn_getMsbD 32 _ t

theorem hdrBit_hdrSetWord (h : HdrBits) (w : Nat) (v : Word) (n : Nat) :
    hdrBit (hdrSetWord h w v) n =
      (decide (n < 580) && if n / 32 = w then v.getMsbD (n % 32) else hdrBit h n) := ofMsbFn_getMsbD 580 _ n

/-! ### the packer -/

theorem packShift_toNat (acc : Byte) (b : Bool) : (packShift acc b).toNat = (2 * acc.toNat + b.toNat) % 256 := by
  have h : ∀ (a : Byte) (b : Bool), (packShift a b).toNat = (2 * a.toNat + b.toNat) % 256 := by decide +kernel
  exact h acc b

theorem packShift_bitsToInt (bs : List Bool) (b : Bool) :
    packShift (BitVec.ofNat 8 (bitsToInt bs)) b = BitVec.ofNat 8 (bitsToInt (bs ++ [b])) := by
  apply BitVec.eq_of_toNat_eq
  rw [packShift_toNat, bitsToInt_concat, BitVec.toNat_ofNat, BitVec.toNat_ofNat]
  omega

end Sys2Proof.Machine
end

