-- ==== Sys2Proof/Laws/Memory.lean ====
section
/-! SUPPORT. Byte memory: read after write, and the canonical form that every operation keeps. -/

namespace Sys2Proof.Machine

@[simp] theorem Memory.read?_nil (a : Nat) : Memory.read? [] a = none := rfl

theorem Memory.read?_write (m : Memory) (a b : Nat) (v : Byte) :
    Memory.read? (Memory.write m a v) b = if a = b then some v else Memory.read? m b := by
  induction m with
  | nil => simp [Memory.write, Memory.read?]
  | cons cell m ih =>
    obtain ⟨x, w⟩ := cell
    simp only [Memory.write]
    split
    · simp [Memory.read?]
    · split
      · subst_vars; simp only [Memory.read?]; split <;> rfl
      · simp only [Memory.read?, ih]
        split
        · rw [if_neg (by omega)]
        · rfl

@[simp] theorem Memory.read?_write_same (m : Memory) (a : Nat) (v : Byte) :
    Memory.read? (Memory.write m a v) a = some v := by simp [Memory.read?_write]

theorem Memory.read?_write_other (m : Memory) {a b : Nat} (v : Byte) (h : a ≠ b) :
    Memory.read? (Memory.write m a v) b = Memory.read? m b := by simp [Memory.read?_write, h]

theorem Memory.wfFrom_mono {lo hi : Nat} {m : Memory} (h : Memory.wfFrom hi m = true) (hle : lo ≤ hi) :
    Memory.wfFrom lo m = true := by
  cases m with
  | nil => rfl
  | cons cell m =>
    simp only [Memory.wfFrom, Bool.and_eq_true, decide_eq_true_eq] at h ⊢
    exact ⟨by omega, h.2⟩

theorem Memory.wfFrom_write {lo : Nat} {m : Memory} {a : Nat} (v : Byte) (h : Memory.wfFrom lo m = true)
    (ha : lo ≤ a) : Memory.wfFrom lo (Memory.write m a v) = true := by
  induction m generalizing lo with
  | nil => simpa [Memory.write, Memory.wfFrom] using ha
  | cons cell m ih =>
    obtain ⟨x, w⟩ := cell
    simp only [Memory.wfFrom, Bool.and_eq_true, decide_eq_true_eq] at h
    simp only [Memory.write]
    split
    · simp only [Memory.wfFrom, Bool.and_eq_true, decide_eq_true_eq]
      exact ⟨ha, by omega, h.2⟩
    · split
      · subst_vars
        simp only [Memory.wfFrom, Bool.and_eq_true, decide_eq_true_eq]
        exact h
      · simp only [Memory.wfFrom, Bool.and_eq_true, decide_eq_true_eq]
        exact ⟨h.1, ih h.2 (by omega)⟩

theorem Memory.wf_nil : Memory.wf [] = true := rfl

theorem Memory.wf_write {m : Memory} (h : m.wf = true) (a : Nat) (v : Byte) : (m.write a v).wf = true :=
  Memory.wfFrom_write v h (Nat.zero_le a)

theorem Memory.below_nil (n : Nat) : Memory.below n [] = true := rfl

theorem Memory.below_write {n : Nat} {m : Memory} {a : Nat} (v : Byte) (h : Memory.below n m = true) (ha : a < n) :
    Memory.below n (m.write a v) = true := by
  induction m with
  | nil => simpa [Memory.write, Memory.below] using ha
  | cons cell m ih =>
    obtain ⟨x, w⟩ := cell
    simp only [Memory.below, List.all_cons, Bool.and_eq_true, decide_eq_true_eq] at h ih ⊢
    simp only [Memory.write]
    split
    · simp only [List.all_cons, Bool.and_eq_true, decide_eq_true_eq]; exact ⟨ha, h⟩
    · split
      · simp only [List.all_cons, Bool.and_eq_true, decide_eq_true_eq]; exact ⟨ha, h.2⟩
      · simp only [List.all_cons, Bool.and_eq_true, decide_eq_true_eq]; exact ⟨h.1, ih h.2⟩

theorem Memory.wfFrom_ofBytes (a : Nat) (bs : List Byte) : Memory.wfFrom a (Memory.ofBytes a bs) = true := by
  induction bs generalizing a with
  | nil => rfl
  | cons v vs ih =>
    simp only [Memory.ofBytes, Memory.wfFrom, Bool.and_eq_true, decide_eq_true_eq]
    exact ⟨Nat.le_refl a, ih (a + 1)⟩

theorem Memory.wf_ofBytes (a : Nat) (bs : List Byte) : (Memory.ofBytes a bs).wf = true :=
  Memory.wfFrom_mono (Memory.wfFrom_ofBytes a bs) (Nat.zero_le a)

theorem Memory.below_ofBytes (a n : Nat) (bs : List Byte) (h : a + bs.length ≤ n) :
    Memory.below n (Memory.ofBytes a bs) = true := by
  induction bs generalizing a with
  | nil => rfl
  | cons v vs ih =>
    simp only [List.length_cons] at h
    simp only [Memory.below, Memory.ofBytes, List.all_cons, Bool.and_eq_true, decide_eq_true_eq]
    exact ⟨by omega, ih (a + 1) (by omega)⟩

theorem Memory.read?_ofBytes (a b : Nat) (bs : List Byte) :
    Memory.read? (Memory.ofBytes a bs) b = if a ≤ b then bs[b - a]? else none := by
  induction bs generalizing a with
  | nil => simp [Memory.ofBytes]
  | cons v vs ih =>
    simp only [Memory.ofBytes, Memory.read?, ih]
    by_cases h : a = b
    · subst h; simp
    · rw [if_neg h]
      by_cases hb : a + 1 ≤ b
      · rw [if_pos hb, if_pos (by omega), show b - a = (b - (a + 1)) + 1 by omega, List.getElem?_cons_succ]
      · rw [if_neg hb, if_neg (by omega)]

theorem Memory.writeLanes_read? (m : Memory) (w : Nat) (v : Word) (a : Nat) :
    Memory.read? (writeLanes m w v) a = if a / 4 = w then some (byteLane v (a % 4)) else Memory.read? m a := by
  simp only [writeLanes, Memory.read?_write]
  by_cases h : a / 4 = w
  · rw [if_pos h]
    have : a % 4 = 0 ∨ a % 4 = 1 ∨ a % 4 = 2 ∨ a % 4 = 3 := by omega
    rcases this with h4 | h4 | h4 | h4 <;>
      (repeat' split) <;> first | omega | rw [h4]
  · rw [if_neg h]
    (repeat' split) <;> first | omega | rfl

theorem Memory.writeLanes_wf {m : Memory} (h : m.wf = true) (w : Nat) (v : Word) : (writeLanes m w v).wf = true :=
  Memory.wf_write (Memory.wf_write (Memory.wf_write (Memory.wf_write h _ _) _ _) _ _) _ _

theorem Memory.writeLanes_below {n : Nat} {m : Memory} (h : Memory.below n m = true) (w : Nat) (v : Word)
    (hw : 4 * w + 3 < n) : Memory.below n (writeLanes m w v) = true :=
  Memory.below_write _ (Memory.below_write _ (Memory.below_write _ (Memory.below_write _ h (by omega)) (by omega))
    (by omega)) hw

/-! ### The image memory -/

theorem Channel.idx_lt (c : Channel) : c.idx < 3 := by cases c <;> decide

theorem Channel.idx_inj {c d : Channel} (h : c.idx = d.idx) : c = d := by
  cases c <;> cases d <;> simp_all [Channel.idx]

@[simp] theorem Pixel.get_set_same (p : Pixel) (c : Channel) (v : Byte) : (p.set c v).get c = v := by
  cases c <;> rfl

theorem Pixel.get_set_other (p : Pixel) {c d : Channel} (v : Byte) (h : c ≠ d) : (p.set c v).get d = p.get d := by
  cases c <;> cases d <;> first | rfl | exact absurd rfl h

theorem Image.pixel_get (img : Image) (x y : Nat) (c : Channel) : (img.pixel x y).get c = img.channel x y c := by
  cases c <;> rfl

@[simp] theorem Image.setPixel_width (img : Image) (x y : Nat) (p : Pixel) : (img.setPixel x y p).width = img.width := rfl

@[simp] theorem Image.setPixel_height (img : Image) (x y : Nat) (p : Pixel) :
    (img.setPixel x y p).height = img.height := rfl

@[simp] theorem Image.setPixel_has (img : Image) (x y a b : Nat) (p : Pixel) :
    (img.setPixel x y p).has a b = img.has a b := rfl

@[simp] theorem Image.setPixel_addr (img : Image) (x y a b : Nat) (p : Pixel) (c : Channel) :
    (img.setPixel x y p).addr a b c = img.addr a b c := rfl

/-- One whole-pixel write: the three channel addresses of the pixel take its values, every other address reads as
before. -/
theorem Image.setPixel_byteAt (img : Image) (x y : Nat) (p : Pixel) (a : Nat) :
    (img.setPixel x y p).byteAt a =
      if a = img.addr x y .r then p.r else if a = img.addr x y .g then p.g else if a = img.addr x y .b then p.b
      else img.byteAt a := by
  have hg : img.addr x y .g = img.addr x y .r + 1 := rfl
  have hb : img.addr x y .b = img.addr x y .r + 2 := rfl
  show (Memory.read? (((img.cells.write (img.addr x y .r) p.r).write (img.addr x y .g) p.g).write
    (img.addr x y .b) p.b) a).getD (Config.imageByte a) = _
  rw [Memory.read?_write, Memory.read?_write, Memory.read?_write, hg, hb]
  generalize img.addr x y .r = base
  by_cases h0 : a = base
  · subst h0; simp
  · by_cases h1 : a = base + 1
    · subst h1; simp
    · by_cases h2 : a = base + 2
      · subst h2; simp
      · rw [if_neg (Ne.symm h2), if_neg (Ne.symm h1), if_neg (Ne.symm h0), if_neg h0, if_neg h1, if_neg h2]; rfl

theorem Image.setPixel_channel_same (img : Image) (x y : Nat) (p : Pixel) (c : Channel) :
    (img.setPixel x y p).channel x y c = p.get c := by
  show (img.setPixel x y p).byteAt (img.addr x y c) = _
  rw [Image.setPixel_byteAt]
  cases c <;> simp [Image.addr, Channel.idx, Pixel.get]

theorem Image.addr_inj {img : Image} {x y a b : Nat} {c d : Channel} (hy : y < img.height) (hb : b < img.height)
    (h : img.addr x y c = img.addr a b d) : x = a ∧ y = b ∧ c = d := by
  have hc := c.idx_lt
  have hd := d.idx_lt
  simp only [Image.addr] at h
  have e : c.idx = d.idx := by omega
  have e2 : x * img.height + y = a * img.height + b := by omega
  have e3 : y = b := by
    have h1 : (x * img.height + y) % img.height = (a * img.height + b) % img.height := by rw [e2]
    rwa [Nat.mul_comm x, Nat.mul_comm a, Nat.mul_add_mod, Nat.mul_add_mod, Nat.mod_eq_of_lt hy,
      Nat.mod_eq_of_lt hb] at h1
  subst e3
  have e4 : x * img.height = a * img.height := by omega
  exact ⟨Nat.eq_of_mul_eq_mul_right (by omega) e4, rfl, Channel.idx_inj e⟩

theorem Image.setPixel_channel_other {img : Image} {x y a b : Nat} {p : Pixel} {d : Channel} (hy : y < img.height)
    (hb : b < img.height) (h : x ≠ a ∨ y ≠ b) : (img.setPixel x y p).channel a b d = img.channel a b d := by
  have key : ∀ c, img.addr a b d ≠ img.addr x y c := fun c e => by
    obtain ⟨e1, e2, -⟩ := Image.addr_inj hb hy e
    rcases h with h | h
    · exact h e1.symm
    · exact h e2.symm
  simp only [Image.channel, Image.setPixel_addr, Image.setPixel_byteAt, key, if_false]

theorem Image.addr_lt {img : Image} {x y : Nat} (c : Channel) (h : img.has x y = true) :
    img.addr x y c < 3 * (img.width * img.height) := by
  simp only [Image.has, Bool.and_eq_true, decide_eq_true_eq] at h
  have hc := c.idx_lt
  have h1 : x * img.height + img.height ≤ img.width * img.height := by
    rw [← Nat.succ_mul]; exact Nat.mul_le_mul_right _ h.1
  simp only [Image.addr]
  omega

/-- A whole-pixel write keeps the image's canonical form and its bound. -/
theorem Image.setPixel_wf {img : Image} {x y : Nat} (p : Pixel) (h : img.cells.wf = true) :
    (img.setPixel x y p).cells.wf = true :=
  Memory.wf_write (Memory.wf_write (Memory.wf_write h _ _) _ _) _ _

theorem Image.setPixel_below {img : Image} {x y : Nat} (p : Pixel) (hxy : img.has x y = true)
    (h : Memory.below (3 * (img.width * img.height)) img.cells = true) :
    Memory.below (3 * (img.width * img.height)) (img.setPixel x y p).cells = true :=
  Memory.below_write _ (Memory.below_write _ (Memory.below_write _ h (Image.addr_lt _ hxy)) (Image.addr_lt _ hxy))
    (Image.addr_lt _ hxy)

theorem Image.ofChannels_wf (w h : Nat) (bs : List Byte) : (Image.ofChannels w h bs).cells.wf = true :=
  Memory.wf_ofBytes 0 _

theorem Image.ofChannels_below (w h : Nat) (bs : List Byte) :
    Memory.below (3 * (w * h)) (Image.ofChannels w h bs).cells = true :=
  Memory.below_ofBytes 0 _ _ (by simp only [Nat.zero_add, List.length_take]; omega)

end Sys2Proof.Machine
end

