-- ==== Sys2Proof/Laws/State.lean ====
section
/-! SUPPORT. One lemma per field per named update of State, true by rfl. -/

namespace Sys2Proof.Machine

/-! ### State.withStatus -/

@[simp] theorem State.withStatus_regs_irqEn (s : State) (st : Status) : (s.withStatus st).regs.irqEn = s.regs.irqEn := rfl
@[simp] theorem State.withStatus_regs_width (s : State) (st : Status) : (s.withStatus st).regs.width = s.regs.width := rfl
@[simp] theorem State.withStatus_regs_height (s : State) (st : Status) : (s.withStatus st).regs.height = s.regs.height := rfl
@[simp] theorem State.withStatus_regs_cfg (s : State) (st : Status) : (s.withStatus st).regs.cfg = s.regs.cfg := rfl
@[simp] theorem State.withStatus_regs_payloadLen (s : State) (st : Status) : (s.withStatus st).regs.payloadLen = s.regs.payloadLen := rfl
@[simp] theorem State.withStatus_regs_encEnd (s : State) (st : Status) : (s.withStatus st).regs.encEnd = s.regs.encEnd := rfl
@[simp] theorem State.withStatus_regs_outLen (s : State) (st : Status) : (s.withStatus st).regs.outLen = s.regs.outLen := rfl
@[simp] theorem State.withStatus_regs_pHdr (s : State) (st : Status) : (s.withStatus st).regs.pHdr = s.regs.pHdr := rfl
@[simp] theorem State.withStatus_regs_pStart (s : State) (st : Status) : (s.withStatus st).regs.pStart = s.regs.pStart := rfl
@[simp] theorem State.withStatus_regs_status (s : State) (st : Status) : (s.withStatus st).regs.status = st := rfl
@[simp] theorem State.withStatus_nbuf (s : State) (st : Status) : (s.withStatus st).nbuf = s.nbuf := rfl
@[simp] theorem State.withStatus_hdr (s : State) (st : Status) : (s.withStatus st).hdr = s.hdr := rfl
@[simp] theorem State.withStatus_pbuf (s : State) (st : Status) : (s.withStatus st).pbuf = s.pbuf := rfl
@[simp] theorem State.withStatus_image (s : State) (st : Status) : (s.withStatus st).image = s.image := rfl
@[simp] theorem State.withStatus_eng (s : State) (st : Status) : (s.withStatus st).eng = s.eng := rfl
@[simp] theorem State.withStatus_rst (s : State) (st : Status) : (s.withStatus st).rst = s.rst := rfl
@[simp] theorem State.withStatus_params (s : State) (st : Status) : (s.withStatus st).params = s.params := rfl
@[simp] theorem State.withStatus_inputs (s : State) (st : Status) : (s.withStatus st).inputs = s.inputs := rfl
@[simp] theorem State.withStatus_rdata (s : State) (st : Status) : (s.withStatus st).rdata = s.rdata := rfl
@[simp] theorem State.withStatus_ipix (s : State) (st : Status) : (s.withStatus st).ipix = s.ipix := rfl
@[simp] theorem State.withStatus_ramEpoch (s : State) (st : Status) : (s.withStatus st).ramEpoch = s.ramEpoch := rfl
@[simp] theorem State.withStatus_draws (s : State) (st : Status) : (s.withStatus st).draws = s.draws := rfl

/-! ### State.withEng -/

@[simp] theorem State.withEng_regs (s : State) (e : Engine) : (s.withEng e).regs = s.regs := rfl
@[simp] theorem State.withEng_nbuf (s : State) (e : Engine) : (s.withEng e).nbuf = s.nbuf := rfl
@[simp] theorem State.withEng_hdr (s : State) (e : Engine) : (s.withEng e).hdr = s.hdr := rfl
@[simp] theorem State.withEng_pbuf (s : State) (e : Engine) : (s.withEng e).pbuf = s.pbuf := rfl
@[simp] theorem State.withEng_image (s : State) (e : Engine) : (s.withEng e).image = s.image := rfl
@[simp] theorem State.withEng_eng (s : State) (e : Engine) : (s.withEng e).eng = e := rfl
@[simp] theorem State.withEng_rst (s : State) (e : Engine) : (s.withEng e).rst = s.rst := rfl
@[simp] theorem State.withEng_params (s : State) (e : Engine) : (s.withEng e).params = s.params := rfl
@[simp] theorem State.withEng_inputs (s : State) (e : Engine) : (s.withEng e).inputs = s.inputs := rfl
@[simp] theorem State.withEng_rdata (s : State) (e : Engine) : (s.withEng e).rdata = s.rdata := rfl
@[simp] theorem State.withEng_ipix (s : State) (e : Engine) : (s.withEng e).ipix = s.ipix := rfl
@[simp] theorem State.withEng_ramEpoch (s : State) (e : Engine) : (s.withEng e).ramEpoch = s.ramEpoch := rfl
@[simp] theorem State.withEng_draws (s : State) (e : Engine) : (s.withEng e).draws = s.draws := rfl

/-! ### setAccErr -/

@[simp] theorem setAccErr_regs_irqEn (s : State) : (setAccErr s).regs.irqEn = s.regs.irqEn := rfl
@[simp] theorem setAccErr_regs_width (s : State) : (setAccErr s).regs.width = s.regs.width := rfl
@[simp] theorem setAccErr_regs_height (s : State) : (setAccErr s).regs.height = s.regs.height := rfl
@[simp] theorem setAccErr_regs_cfg (s : State) : (setAccErr s).regs.cfg = s.regs.cfg := rfl
@[simp] theorem setAccErr_regs_payloadLen (s : State) : (setAccErr s).regs.payloadLen = s.regs.payloadLen := rfl
@[simp] theorem setAccErr_regs_encEnd (s : State) : (setAccErr s).regs.encEnd = s.regs.encEnd := rfl
@[simp] theorem setAccErr_regs_outLen (s : State) : (setAccErr s).regs.outLen = s.regs.outLen := rfl
@[simp] theorem setAccErr_regs_pHdr (s : State) : (setAccErr s).regs.pHdr = s.regs.pHdr := rfl
@[simp] theorem setAccErr_regs_pStart (s : State) : (setAccErr s).regs.pStart = s.regs.pStart := rfl
@[simp] theorem setAccErr_busy (s : State) : (setAccErr s).regs.status.busy = s.regs.status.busy := rfl
@[simp] theorem setAccErr_done (s : State) : (setAccErr s).regs.status.done = s.regs.status.done := rfl
@[simp] theorem setAccErr_err (s : State) : (setAccErr s).regs.status.err = s.regs.status.err := rfl
@[simp] theorem setAccErr_errCode (s : State) : (setAccErr s).regs.status.errCode = s.regs.status.errCode := rfl
@[simp] theorem setAccErr_accErr (s : State) : (setAccErr s).regs.status.accErr = true := rfl
@[simp] theorem setAccErr_nbuf (s : State) : (setAccErr s).nbuf = s.nbuf := rfl
@[simp] theorem setAccErr_hdr (s : State) : (setAccErr s).hdr = s.hdr := rfl
@[simp] theorem setAccErr_pbuf (s : State) : (setAccErr s).pbuf = s.pbuf := rfl
@[simp] theorem setAccErr_image (s : State) : (setAccErr s).image = s.image := rfl
@[simp] theorem setAccErr_eng (s : State) : (setAccErr s).eng = s.eng := rfl
@[simp] theorem setAccErr_rst (s : State) : (setAccErr s).rst = s.rst := rfl
@[simp] theorem setAccErr_params (s : State) : (setAccErr s).params = s.params := rfl
@[simp] theorem setAccErr_inputs (s : State) : (setAccErr s).inputs = s.inputs := rfl
@[simp] theorem setAccErr_rdata (s : State) : (setAccErr s).rdata = s.rdata := rfl
@[simp] theorem setAccErr_ipix (s : State) : (setAccErr s).ipix = s.ipix := rfl
@[simp] theorem setAccErr_ramEpoch (s : State) : (setAccErr s).ramEpoch = s.ramEpoch := rfl
@[simp] theorem setAccErr_draws (s : State) : (setAccErr s).draws = s.draws := rfl

/-! ### accept -/

@[simp] theorem accept_regs_irqEn (v : Word) (s : State) : (accept v s).regs.irqEn = s.regs.irqEn := rfl
@[simp] theorem accept_regs_width (v : Word) (s : State) : (accept v s).regs.width = s.regs.width := rfl
@[simp] theorem accept_regs_height (v : Word) (s : State) : (accept v s).regs.height = s.regs.height := rfl
@[simp] theorem accept_regs_cfg (v : Word) (s : State) : (accept v s).regs.cfg = s.regs.cfg := rfl
@[simp] theorem accept_regs_payloadLen (v : Word) (s : State) : (accept v s).regs.payloadLen = s.regs.payloadLen := rfl
@[simp] theorem accept_regs_encEnd (v : Word) (s : State) : (accept v s).regs.encEnd = s.regs.encEnd := rfl
@[simp] theorem accept_regs_outLen (v : Word) (s : State) : (accept v s).regs.outLen = s.regs.outLen := rfl
@[simp] theorem accept_regs_pHdr (v : Word) (s : State) : (accept v s).regs.pHdr = s.regs.pHdr := rfl
@[simp] theorem accept_regs_pStart (v : Word) (s : State) : (accept v s).regs.pStart = s.regs.pStart := rfl
@[simp] theorem accept_busy (v : Word) (s : State) : (accept v s).regs.status.busy = true := rfl
@[simp] theorem accept_done (v : Word) (s : State) : (accept v s).regs.status.done = false := rfl
@[simp] theorem accept_err (v : Word) (s : State) : (accept v s).regs.status.err = false := rfl
@[simp] theorem accept_errCode (v : Word) (s : State) : (accept v s).regs.status.errCode = ErrCode.none := rfl
@[simp] theorem accept_accErr (v : Word) (s : State) : (accept v s).regs.status.accErr = s.regs.status.accErr := rfl
@[simp] theorem accept_nbuf (v : Word) (s : State) : (accept v s).nbuf = s.nbuf := rfl
@[simp] theorem accept_hdr (v : Word) (s : State) : (accept v s).hdr = s.hdr := rfl
@[simp] theorem accept_pbuf (v : Word) (s : State) : (accept v s).pbuf = s.pbuf := rfl
@[simp] theorem accept_image (v : Word) (s : State) : (accept v s).image = s.image := rfl
@[simp] theorem accept_phase (v : Word) (s : State) : (accept v s).eng.phase = Phase.start := rfl
@[simp] theorem accept_cmd (v : Word) (s : State) : (accept v s).eng.cmd = v := rfl
@[simp] theorem accept_eng_k (v : Word) (s : State) : (accept v s).eng.k = s.eng.k := rfl
@[simp] theorem accept_eng_c (v : Word) (s : State) : (accept v s).eng.c = s.eng.c := rfl
@[simp] theorem accept_eng_i (v : Word) (s : State) : (accept v s).eng.i = s.eng.i := rfl
@[simp] theorem accept_eng_pcPix (v : Word) (s : State) : (accept v s).eng.pcPix = s.eng.pcPix := rfl
@[simp] theorem accept_eng_s (v : Word) (s : State) : (accept v s).eng.s = s.eng.s := rfl
@[simp] theorem accept_eng_d (v : Word) (s : State) : (accept v s).eng.d = s.eng.d := rfl
@[simp] theorem accept_eng_encEnd (v : Word) (s : State) : (accept v s).eng.encEnd = s.eng.encEnd := rfl
@[simp] theorem accept_eng_pb (v : Word) (s : State) : (accept v s).eng.pb = s.eng.pb := rfl
@[simp] theorem accept_eng_latch (v : Word) (s : State) : (accept v s).eng.latch = s.eng.latch := rfl
@[simp] theorem accept_eng_acc (v : Word) (s : State) : (accept v s).eng.acc = s.eng.acc := rfl
@[simp] theorem accept_eng_nacc (v : Word) (s : State) : (accept v s).eng.nacc = s.eng.nacc := rfl
@[simp] theorem accept_eng_j (v : Word) (s : State) : (accept v s).eng.j = s.eng.j := rfl
@[simp] theorem accept_eng_result (v : Word) (s : State) : (accept v s).eng.result = s.eng.result := rfl
@[simp] theorem accept_rst (v : Word) (s : State) : (accept v s).rst = s.rst := rfl
@[simp] theorem accept_params (v : Word) (s : State) : (accept v s).params = s.params := rfl
@[simp] theorem accept_inputs (v : Word) (s : State) : (accept v s).inputs = s.inputs := rfl
@[simp] theorem accept_rdata (v : Word) (s : State) : (accept v s).rdata = s.rdata := rfl
@[simp] theorem accept_ipix (v : Word) (s : State) : (accept v s).ipix = s.ipix := rfl
@[simp] theorem accept_ramEpoch (v : Word) (s : State) : (accept v s).ramEpoch = s.ramEpoch := rfl
@[simp] theorem accept_draws (v : Word) (s : State) : (accept v s).draws = s.draws := rfl

/-! ### raiseError -/

@[simp] theorem raiseError_regs (e : ErrCode) (s : State) : (raiseError e s).regs = s.regs := rfl
@[simp] theorem raiseError_nbuf (e : ErrCode) (s : State) : (raiseError e s).nbuf = s.nbuf := rfl
@[simp] theorem raiseError_hdr (e : ErrCode) (s : State) : (raiseError e s).hdr = s.hdr := rfl
@[simp] theorem raiseError_pbuf (e : ErrCode) (s : State) : (raiseError e s).pbuf = s.pbuf := rfl
@[simp] theorem raiseError_image (e : ErrCode) (s : State) : (raiseError e s).image = s.image := rfl
@[simp] theorem raiseError_phase (e : ErrCode) (s : State) : (raiseError e s).eng.phase = Phase.finish := rfl
@[simp] theorem raiseError_result (e : ErrCode) (s : State) : (raiseError e s).eng.result = e := rfl
@[simp] theorem raiseError_eng_cmd (e : ErrCode) (s : State) : (raiseError e s).eng.cmd = s.eng.cmd := rfl
@[simp] theorem raiseError_eng_k (e : ErrCode) (s : State) : (raiseError e s).eng.k = s.eng.k := rfl
@[simp] theorem raiseError_eng_c (e : ErrCode) (s : State) : (raiseError e s).eng.c = s.eng.c := rfl
@[simp] theorem raiseError_eng_i (e : ErrCode) (s : State) : (raiseError e s).eng.i = s.eng.i := rfl
@[simp] theorem raiseError_eng_pcPix (e : ErrCode) (s : State) : (raiseError e s).eng.pcPix = s.eng.pcPix := rfl
@[simp] theorem raiseError_eng_s (e : ErrCode) (s : State) : (raiseError e s).eng.s = s.eng.s := rfl
@[simp] theorem raiseError_eng_d (e : ErrCode) (s : State) : (raiseError e s).eng.d = s.eng.d := rfl
@[simp] theorem raiseError_eng_encEnd (e : ErrCode) (s : State) : (raiseError e s).eng.encEnd = s.eng.encEnd := rfl
@[simp] theorem raiseError_eng_pb (e : ErrCode) (s : State) : (raiseError e s).eng.pb = s.eng.pb := rfl
@[simp] theorem raiseError_eng_latch (e : ErrCode) (s : State) : (raiseError e s).eng.latch = s.eng.latch := rfl
@[simp] theorem raiseError_eng_acc (e : ErrCode) (s : State) : (raiseError e s).eng.acc = s.eng.acc := rfl
@[simp] theorem raiseError_eng_nacc (e : ErrCode) (s : State) : (raiseError e s).eng.nacc = s.eng.nacc := rfl
@[simp] theorem raiseError_eng_j (e : ErrCode) (s : State) : (raiseError e s).eng.j = s.eng.j := rfl
@[simp] theorem raiseError_rst (e : ErrCode) (s : State) : (raiseError e s).rst = s.rst := rfl
@[simp] theorem raiseError_params (e : ErrCode) (s : State) : (raiseError e s).params = s.params := rfl
@[simp] theorem raiseError_inputs (e : ErrCode) (s : State) : (raiseError e s).inputs = s.inputs := rfl
@[simp] theorem raiseError_rdata (e : ErrCode) (s : State) : (raiseError e s).rdata = s.rdata := rfl
@[simp] theorem raiseError_ipix (e : ErrCode) (s : State) : (raiseError e s).ipix = s.ipix := rfl
@[simp] theorem raiseError_ramEpoch (e : ErrCode) (s : State) : (raiseError e s).ramEpoch = s.ramEpoch := rfl
@[simp] theorem raiseError_draws (e : ErrCode) (s : State) : (raiseError e s).draws = s.draws := rfl

/-! ### succeed -/

@[simp] theorem succeed_regs (s : State) : (succeed s).regs = s.regs := rfl
@[simp] theorem succeed_nbuf (s : State) : (succeed s).nbuf = s.nbuf := rfl
@[simp] theorem succeed_hdr (s : State) : (succeed s).hdr = s.hdr := rfl
@[simp] theorem succeed_pbuf (s : State) : (succeed s).pbuf = s.pbuf := rfl
@[simp] theorem succeed_image (s : State) : (succeed s).image = s.image := rfl
@[simp] theorem succeed_phase (s : State) : (succeed s).eng.phase = Phase.finish := rfl
@[simp] theorem succeed_result (s : State) : (succeed s).eng.result = ErrCode.none := rfl
@[simp] theorem succeed_eng_cmd (s : State) : (succeed s).eng.cmd = s.eng.cmd := rfl
@[simp] theorem succeed_eng_k (s : State) : (succeed s).eng.k = s.eng.k := rfl
@[simp] theorem succeed_eng_c (s : State) : (succeed s).eng.c = s.eng.c := rfl
@[simp] theorem succeed_eng_i (s : State) : (succeed s).eng.i = s.eng.i := rfl
@[simp] theorem succeed_eng_pcPix (s : State) : (succeed s).eng.pcPix = s.eng.pcPix := rfl
@[simp] theorem succeed_eng_s (s : State) : (succeed s).eng.s = s.eng.s := rfl
@[simp] theorem succeed_eng_d (s : State) : (succeed s).eng.d = s.eng.d := rfl
@[simp] theorem succeed_eng_encEnd (s : State) : (succeed s).eng.encEnd = s.eng.encEnd := rfl
@[simp] theorem succeed_eng_pb (s : State) : (succeed s).eng.pb = s.eng.pb := rfl
@[simp] theorem succeed_eng_latch (s : State) : (succeed s).eng.latch = s.eng.latch := rfl
@[simp] theorem succeed_eng_acc (s : State) : (succeed s).eng.acc = s.eng.acc := rfl
@[simp] theorem succeed_eng_nacc (s : State) : (succeed s).eng.nacc = s.eng.nacc := rfl
@[simp] theorem succeed_eng_j (s : State) : (succeed s).eng.j = s.eng.j := rfl
@[simp] theorem succeed_rst (s : State) : (succeed s).rst = s.rst := rfl
@[simp] theorem succeed_params (s : State) : (succeed s).params = s.params := rfl
@[simp] theorem succeed_inputs (s : State) : (succeed s).inputs = s.inputs := rfl
@[simp] theorem succeed_rdata (s : State) : (succeed s).rdata = s.rdata := rfl
@[simp] theorem succeed_ipix (s : State) : (succeed s).ipix = s.ipix := rfl
@[simp] theorem succeed_ramEpoch (s : State) : (succeed s).ramEpoch = s.ramEpoch := rfl
@[simp] theorem succeed_draws (s : State) : (succeed s).draws = s.draws := rfl

/-! ### complete -/

@[simp] theorem complete_regs_irqEn (s : State) : (complete s).regs.irqEn = s.regs.irqEn := rfl
@[simp] theorem complete_regs_width (s : State) : (complete s).regs.width = s.regs.width := rfl
@[simp] theorem complete_regs_height (s : State) : (complete s).regs.height = s.regs.height := rfl
@[simp] theorem complete_regs_cfg (s : State) : (complete s).regs.cfg = s.regs.cfg := rfl
@[simp] theorem complete_regs_payloadLen (s : State) : (complete s).regs.payloadLen = s.regs.payloadLen := rfl
@[simp] theorem complete_regs_encEnd (s : State) : (complete s).regs.encEnd = s.regs.encEnd := rfl
@[simp] theorem complete_regs_outLen (s : State) : (complete s).regs.outLen = s.regs.outLen := rfl
@[simp] theorem complete_regs_pHdr (s : State) : (complete s).regs.pHdr = s.regs.pHdr := rfl
@[simp] theorem complete_regs_pStart (s : State) : (complete s).regs.pStart = s.regs.pStart := rfl
@[simp] theorem complete_busy (s : State) : (complete s).regs.status.busy = false := rfl
@[simp] theorem complete_done (s : State) : (complete s).regs.status.done = true := rfl
@[simp] theorem complete_err (s : State) : (complete s).regs.status.err = (s.eng.result != ErrCode.none) := rfl
@[simp] theorem complete_errCode (s : State) : (complete s).regs.status.errCode = s.eng.result := rfl
@[simp] theorem complete_accErr (s : State) : (complete s).regs.status.accErr = s.regs.status.accErr := rfl
@[simp] theorem complete_nbuf (s : State) : (complete s).nbuf = s.nbuf := rfl
@[simp] theorem complete_hdr (s : State) : (complete s).hdr = s.hdr := rfl
@[simp] theorem complete_pbuf (s : State) : (complete s).pbuf = s.pbuf := rfl
@[simp] theorem complete_image (s : State) : (complete s).image = s.image := rfl
@[simp] theorem complete_phase (s : State) : (complete s).eng.phase = Phase.idle := rfl
@[simp] theorem complete_eng_cmd (s : State) : (complete s).eng.cmd = s.eng.cmd := rfl
@[simp] theorem complete_eng_k (s : State) : (complete s).eng.k = s.eng.k := rfl
@[simp] theorem complete_eng_c (s : State) : (complete s).eng.c = s.eng.c := rfl
@[simp] theorem complete_eng_i (s : State) : (complete s).eng.i = s.eng.i := rfl
@[simp] theorem complete_eng_pcPix (s : State) : (complete s).eng.pcPix = s.eng.pcPix := rfl
@[simp] theorem complete_eng_s (s : State) : (complete s).eng.s = s.eng.s := rfl
@[simp] theorem complete_eng_d (s : State) : (complete s).eng.d = s.eng.d := rfl
@[simp] theorem complete_eng_encEnd (s : State) : (complete s).eng.encEnd = s.eng.encEnd := rfl
@[simp] theorem complete_eng_pb (s : State) : (complete s).eng.pb = s.eng.pb := rfl
@[simp] theorem complete_eng_latch (s : State) : (complete s).eng.latch = s.eng.latch := rfl
@[simp] theorem complete_eng_acc (s : State) : (complete s).eng.acc = s.eng.acc := rfl
@[simp] theorem complete_eng_nacc (s : State) : (complete s).eng.nacc = s.eng.nacc := rfl
@[simp] theorem complete_eng_j (s : State) : (complete s).eng.j = s.eng.j := rfl
@[simp] theorem complete_eng_result (s : State) : (complete s).eng.result = s.eng.result := rfl
@[simp] theorem complete_rst (s : State) : (complete s).rst = s.rst := rfl
@[simp] theorem complete_params (s : State) : (complete s).params = s.params := rfl
@[simp] theorem complete_inputs (s : State) : (complete s).inputs = s.inputs := rfl
@[simp] theorem complete_rdata (s : State) : (complete s).rdata = s.rdata := rfl
@[simp] theorem complete_ipix (s : State) : (complete s).ipix = s.ipix := rfl
@[simp] theorem complete_ramEpoch (s : State) : (complete s).ramEpoch = s.ramEpoch := rfl
@[simp] theorem complete_draws (s : State) : (complete s).draws = s.draws := rfl

/-! ### nbufWrite -/

@[simp] theorem nbufWrite_regs (n : Nat) (v : Byte) (s : State) : (nbufWrite n v s).regs = s.regs := rfl
@[simp] theorem nbufWrite_nbuf (n : Nat) (v : Byte) (s : State) : (nbufWrite n v s).nbuf = s.nbuf.write n v := rfl
@[simp] theorem nbufWrite_hdr (n : Nat) (v : Byte) (s : State) : (nbufWrite n v s).hdr = s.hdr := rfl
@[simp] theorem nbufWrite_pbuf (n : Nat) (v : Byte) (s : State) : (nbufWrite n v s).pbuf = s.pbuf := rfl
@[simp] theorem nbufWrite_image (n : Nat) (v : Byte) (s : State) : (nbufWrite n v s).image = s.image := rfl
@[simp] theorem nbufWrite_eng (n : Nat) (v : Byte) (s : State) : (nbufWrite n v s).eng = s.eng := rfl
@[simp] theorem nbufWrite_rst (n : Nat) (v : Byte) (s : State) : (nbufWrite n v s).rst = s.rst := rfl
@[simp] theorem nbufWrite_params (n : Nat) (v : Byte) (s : State) : (nbufWrite n v s).params = s.params := rfl
@[simp] theorem nbufWrite_inputs (n : Nat) (v : Byte) (s : State) : (nbufWrite n v s).inputs = s.inputs := rfl
@[simp] theorem nbufWrite_rdata (n : Nat) (v : Byte) (s : State) : (nbufWrite n v s).rdata = s.rdata := rfl
@[simp] theorem nbufWrite_ipix (n : Nat) (v : Byte) (s : State) : (nbufWrite n v s).ipix = s.ipix := rfl
@[simp] theorem nbufWrite_ramEpoch (n : Nat) (v : Byte) (s : State) : (nbufWrite n v s).ramEpoch = s.ramEpoch := rfl
@[simp] theorem nbufWrite_draws (n : Nat) (v : Byte) (s : State) : (nbufWrite n v s).draws = s.draws := rfl

/-! ### pbufWrite -/

@[simp] theorem pbufWrite_regs (n : Nat) (v : Byte) (s : State) : (pbufWrite n v s).regs = s.regs := rfl
@[simp] theorem pbufWrite_nbuf (n : Nat) (v : Byte) (s : State) : (pbufWrite n v s).nbuf = s.nbuf := rfl
@[simp] theorem pbufWrite_hdr (n : Nat) (v : Byte) (s : State) : (pbufWrite n v s).hdr = s.hdr := rfl
@[simp] theorem pbufWrite_pbuf (n : Nat) (v : Byte) (s : State) : (pbufWrite n v s).pbuf = s.pbuf.write n v := rfl
@[simp] theorem pbufWrite_image (n : Nat) (v : Byte) (s : State) : (pbufWrite n v s).image = s.image := rfl
@[simp] theorem pbufWrite_eng (n : Nat) (v : Byte) (s : State) : (pbufWrite n v s).eng = s.eng := rfl
@[simp] theorem pbufWrite_rst (n : Nat) (v : Byte) (s : State) : (pbufWrite n v s).rst = s.rst := rfl
@[simp] theorem pbufWrite_params (n : Nat) (v : Byte) (s : State) : (pbufWrite n v s).params = s.params := rfl
@[simp] theorem pbufWrite_inputs (n : Nat) (v : Byte) (s : State) : (pbufWrite n v s).inputs = s.inputs := rfl
@[simp] theorem pbufWrite_rdata (n : Nat) (v : Byte) (s : State) : (pbufWrite n v s).rdata = s.rdata := rfl
@[simp] theorem pbufWrite_ipix (n : Nat) (v : Byte) (s : State) : (pbufWrite n v s).ipix = s.ipix := rfl
@[simp] theorem pbufWrite_ramEpoch (n : Nat) (v : Byte) (s : State) : (pbufWrite n v s).ramEpoch = s.ramEpoch := rfl
@[simp] theorem pbufWrite_draws (n : Nat) (v : Byte) (s : State) : (pbufWrite n v s).draws = s.draws := rfl

/-! ### packerReset -/

@[simp] theorem packerReset_regs (s : State) : (packerReset s).regs = s.regs := rfl
@[simp] theorem packerReset_nbuf (s : State) : (packerReset s).nbuf = s.nbuf := rfl
@[simp] theorem packerReset_hdr (s : State) : (packerReset s).hdr = s.hdr := rfl
@[simp] theorem packerReset_pbuf (s : State) : (packerReset s).pbuf = s.pbuf := rfl
@[simp] theorem packerReset_image (s : State) : (packerReset s).image = s.image := rfl
@[simp] theorem packerReset_acc (s : State) : (packerReset s).eng.acc = 0#8 := rfl
@[simp] theorem packerReset_nacc (s : State) : (packerReset s).eng.nacc = 0#3 := rfl
@[simp] theorem packerReset_j (s : State) : (packerReset s).eng.j = 0 := rfl
@[simp] theorem packerReset_eng_cmd (s : State) : (packerReset s).eng.cmd = s.eng.cmd := rfl
@[simp] theorem packerReset_eng_k (s : State) : (packerReset s).eng.k = s.eng.k := rfl
@[simp] theorem packerReset_eng_c (s : State) : (packerReset s).eng.c = s.eng.c := rfl
@[simp] theorem packerReset_eng_i (s : State) : (packerReset s).eng.i = s.eng.i := rfl
@[simp] theorem packerReset_eng_pcPix (s : State) : (packerReset s).eng.pcPix = s.eng.pcPix := rfl
@[simp] theorem packerReset_eng_s (s : State) : (packerReset s).eng.s = s.eng.s := rfl
@[simp] theorem packerReset_eng_d (s : State) : (packerReset s).eng.d = s.eng.d := rfl
@[simp] theorem packerReset_eng_encEnd (s : State) : (packerReset s).eng.encEnd = s.eng.encEnd := rfl
@[simp] theorem packerReset_eng_pb (s : State) : (packerReset s).eng.pb = s.eng.pb := rfl
@[simp] theorem packerReset_eng_latch (s : State) : (packerReset s).eng.latch = s.eng.latch := rfl
@[simp] theorem packerReset_eng_result (s : State) : (packerReset s).eng.result = s.eng.result := rfl
@[simp] theorem packerReset_eng_phase (s : State) : (packerReset s).eng.phase = s.eng.phase := rfl
@[simp] theorem packerReset_rst (s : State) : (packerReset s).rst = s.rst := rfl
@[simp] theorem packerReset_params (s : State) : (packerReset s).params = s.params := rfl
@[simp] theorem packerReset_inputs (s : State) : (packerReset s).inputs = s.inputs := rfl
@[simp] theorem packerReset_rdata (s : State) : (packerReset s).rdata = s.rdata := rfl
@[simp] theorem packerReset_ipix (s : State) : (packerReset s).ipix = s.ipix := rfl
@[simp] theorem packerReset_ramEpoch (s : State) : (packerReset s).ramEpoch = s.ramEpoch := rfl
@[simp] theorem packerReset_draws (s : State) : (packerReset s).draws = s.draws := rfl

/-! ### storeHeader -/

@[simp] theorem storeHeader_regs_irqEn (s : State) : (storeHeader s).regs.irqEn = s.regs.irqEn := rfl
@[simp] theorem storeHeader_regs_width (s : State) : (storeHeader s).regs.width = s.regs.width := rfl
@[simp] theorem storeHeader_regs_height (s : State) : (storeHeader s).regs.height = s.regs.height := rfl
@[simp] theorem storeHeader_regs_cfg (s : State) : (storeHeader s).regs.cfg = s.regs.cfg := rfl
@[simp] theorem storeHeader_regs_payloadLen (s : State) : (storeHeader s).regs.payloadLen = s.regs.payloadLen := rfl
@[simp] theorem storeHeader_regs_outLen (s : State) : (storeHeader s).regs.outLen = s.regs.outLen := rfl
@[simp] theorem storeHeader_regs_pHdr (s : State) : (storeHeader s).regs.pHdr = s.regs.pHdr := rfl
@[simp] theorem storeHeader_regs_pStart (s : State) : (storeHeader s).regs.pStart = s.regs.pStart := rfl
@[simp] theorem storeHeader_regs_status (s : State) : (storeHeader s).regs.status = s.regs.status := rfl
@[simp] theorem storeHeader_regs_encEnd (s : State) : (storeHeader s).regs.encEnd = BitVec.ofNat 32 s.streamLen := rfl
@[simp] theorem storeHeader_nbuf (s : State) : (storeHeader s).nbuf = s.nbuf := rfl
@[simp] theorem storeHeader_hdr (s : State) : (storeHeader s).hdr = hdrOfBits (builtHeader s) := rfl
@[simp] theorem storeHeader_pbuf (s : State) : (storeHeader s).pbuf = s.pbuf := rfl
@[simp] theorem storeHeader_image (s : State) : (storeHeader s).image = s.image := rfl
@[simp] theorem storeHeader_eng (s : State) : (storeHeader s).eng = s.eng := rfl
@[simp] theorem storeHeader_rst (s : State) : (storeHeader s).rst = s.rst := rfl
@[simp] theorem storeHeader_params (s : State) : (storeHeader s).params = s.params := rfl
@[simp] theorem storeHeader_inputs (s : State) : (storeHeader s).inputs = s.inputs := rfl
@[simp] theorem storeHeader_rdata (s : State) : (storeHeader s).rdata = s.rdata := rfl
@[simp] theorem storeHeader_ipix (s : State) : (storeHeader s).ipix = s.ipix := rfl
@[simp] theorem storeHeader_ramEpoch (s : State) : (storeHeader s).ramEpoch = s.ramEpoch := rfl
@[simp] theorem storeHeader_draws (s : State) : (storeHeader s).draws = s.draws := rfl

/-! ### enterEncWalk -/

@[simp] theorem enterEncWalk_regs (s : State) : (enterEncWalk s).regs = s.regs := rfl
@[simp] theorem enterEncWalk_nbuf (s : State) : (enterEncWalk s).nbuf = s.nbuf := rfl
@[simp] theorem enterEncWalk_hdr (s : State) : (enterEncWalk s).hdr = s.hdr := rfl
@[simp] theorem enterEncWalk_pbuf (s : State) : (enterEncWalk s).pbuf = s.pbuf := rfl
@[simp] theorem enterEncWalk_image (s : State) : (enterEncWalk s).image = s.image := rfl
@[simp] theorem enterEncWalk_phase (s : State) : (enterEncWalk s).eng.phase = Phase.encWalk := rfl
@[simp] theorem enterEncWalk_eng_k (s : State) : (enterEncWalk s).eng.k = s.eng.k := rfl
@[simp] theorem enterEncWalk_eng_c (s : State) : (enterEncWalk s).eng.c = s.eng.c := rfl
@[simp] theorem enterEncWalk_eng_i (s : State) : (enterEncWalk s).eng.i = s.eng.i := rfl
@[simp] theorem enterEncWalk_eng_pcPix (s : State) : (enterEncWalk s).eng.pcPix = s.eng.pcPix := rfl
@[simp] theorem enterEncWalk_eng_cmd (s : State) : (enterEncWalk s).eng.cmd = s.eng.cmd := rfl
@[simp] theorem enterEncWalk_eng_s (s : State) : (enterEncWalk s).eng.s = s.eng.s := rfl
@[simp] theorem enterEncWalk_eng_d (s : State) : (enterEncWalk s).eng.d = s.eng.d := rfl
@[simp] theorem enterEncWalk_eng_encEnd (s : State) : (enterEncWalk s).eng.encEnd = s.eng.encEnd := rfl
@[simp] theorem enterEncWalk_eng_pb (s : State) : (enterEncWalk s).eng.pb = s.eng.pb := rfl
@[simp] theorem enterEncWalk_eng_latch (s : State) : (enterEncWalk s).eng.latch = s.eng.latch := rfl
@[simp] theorem enterEncWalk_eng_acc (s : State) : (enterEncWalk s).eng.acc = s.eng.acc := rfl
@[simp] theorem enterEncWalk_eng_nacc (s : State) : (enterEncWalk s).eng.nacc = s.eng.nacc := rfl
@[simp] theorem enterEncWalk_eng_j (s : State) : (enterEncWalk s).eng.j = s.eng.j := rfl
@[simp] theorem enterEncWalk_eng_result (s : State) : (enterEncWalk s).eng.result = s.eng.result := rfl
@[simp] theorem enterEncWalk_rst (s : State) : (enterEncWalk s).rst = s.rst := rfl
@[simp] theorem enterEncWalk_params (s : State) : (enterEncWalk s).params = s.params := rfl
@[simp] theorem enterEncWalk_inputs (s : State) : (enterEncWalk s).inputs = s.inputs := rfl
@[simp] theorem enterEncWalk_rdata (s : State) : (enterEncWalk s).rdata = s.rdata := rfl
@[simp] theorem enterEncWalk_ipix (s : State) : (enterEncWalk s).ipix = s.ipix := rfl
@[simp] theorem enterEncWalk_ramEpoch (s : State) : (enterEncWalk s).ramEpoch = s.ramEpoch := rfl
@[simp] theorem enterEncWalk_draws (s : State) : (enterEncWalk s).draws = s.draws := rfl

/-! ### parseHeader -/

@[simp] theorem parseHeader_regs_irqEn (s : State) : (parseHeader s).regs.irqEn = s.regs.irqEn := rfl
@[simp] theorem parseHeader_regs_width (s : State) : (parseHeader s).regs.width = s.regs.width := rfl
@[simp] theorem parseHeader_regs_height (s : State) : (parseHeader s).regs.height = s.regs.height := rfl
@[simp] theorem parseHeader_regs_cfg (s : State) : (parseHeader s).regs.cfg = s.regs.cfg := rfl
@[simp] theorem parseHeader_regs_payloadLen (s : State) : (parseHeader s).regs.payloadLen = s.regs.payloadLen := rfl
@[simp] theorem parseHeader_regs_outLen (s : State) : (parseHeader s).regs.outLen = s.regs.outLen := rfl
@[simp] theorem parseHeader_regs_status (s : State) : (parseHeader s).regs.status = s.regs.status := rfl
@[simp] theorem parseHeader_regs_encEnd (s : State) : (parseHeader s).regs.encEnd = BitVec.ofNat 32 (bitsToInt (hdrSlice s.hdr 548 580)) := rfl
@[simp] theorem parseHeader_regs_pHdr (s : State) : (parseHeader s).regs.pHdr = PHdr.mk (BitVec.ofNat 3 (bitsToInt (hdrSlice s.hdr 1 4))) (hdrBit s.hdr 0) := rfl
@[simp] theorem parseHeader_regs_pStart (s : State) : (parseHeader s).regs.pStart = BitVec.ofNat 32 (bitsToInt (hdrSlice s.hdr 516 548)) := rfl
@[simp] theorem parseHeader_nbuf (s : State) : (parseHeader s).nbuf = parsedName s.hdr s.nbuf := by rw [parseHeader]
@[simp] theorem parseHeader_hdr (s : State) : (parseHeader s).hdr = s.hdr := rfl
@[simp] theorem parseHeader_pbuf (s : State) : (parseHeader s).pbuf = s.pbuf := rfl
@[simp] theorem parseHeader_image (s : State) : (parseHeader s).image = s.image := rfl
@[simp] theorem parseHeader_eng (s : State) : (parseHeader s).eng = s.eng := rfl
@[simp] theorem parseHeader_rst (s : State) : (parseHeader s).rst = s.rst := rfl
@[simp] theorem parseHeader_params (s : State) : (parseHeader s).params = s.params := rfl
@[simp] theorem parseHeader_inputs (s : State) : (parseHeader s).inputs = s.inputs := rfl
@[simp] theorem parseHeader_rdata (s : State) : (parseHeader s).rdata = s.rdata := rfl
@[simp] theorem parseHeader_ipix (s : State) : (parseHeader s).ipix = s.ipix := rfl
@[simp] theorem parseHeader_ramEpoch (s : State) : (parseHeader s).ramEpoch = s.ramEpoch := rfl
@[simp] theorem parseHeader_draws (s : State) : (parseHeader s).draws = s.draws := rfl

/-! ### beginEncode -/

@[simp] theorem beginEncode_regs (s : State) : (beginEncode s).regs = s.regs := rfl
@[simp] theorem beginEncode_nbuf (s : State) : (beginEncode s).nbuf = s.nbuf := rfl
@[simp] theorem beginEncode_hdr (s : State) : (beginEncode s).hdr = s.hdr := rfl
@[simp] theorem beginEncode_pbuf (s : State) : (beginEncode s).pbuf = s.pbuf := rfl
@[simp] theorem beginEncode_image (s : State) : (beginEncode s).image = s.image := rfl
@[simp] theorem beginEncode_eng_phase (s : State) : (beginEncode s).eng.phase = s.eng.phase := rfl
@[simp] theorem beginEncode_eng_cmd (s : State) : (beginEncode s).eng.cmd = s.eng.cmd := rfl
@[simp] theorem beginEncode_eng_k (s : State) : (beginEncode s).eng.k = 0 := rfl
@[simp] theorem beginEncode_eng_c (s : State) : (beginEncode s).eng.c = Channel.r := rfl
@[simp] theorem beginEncode_eng_i (s : State) : (beginEncode s).eng.i = 0 := rfl
@[simp] theorem beginEncode_eng_pcPix (s : State) : (beginEncode s).eng.pcPix = 0 := rfl
@[simp] theorem beginEncode_eng_s (s : State) : (beginEncode s).eng.s = s.eng.s := rfl
@[simp] theorem beginEncode_eng_d (s : State) : (beginEncode s).eng.d = s.eng.d := rfl
@[simp] theorem beginEncode_eng_encEnd (s : State) : (beginEncode s).eng.encEnd = s.eng.encEnd := rfl
@[simp] theorem beginEncode_eng_pb (s : State) : (beginEncode s).eng.pb = s.eng.pb := rfl
@[simp] theorem beginEncode_eng_latch (s : State) : (beginEncode s).eng.latch = s.eng.latch := rfl
@[simp] theorem beginEncode_eng_acc (s : State) : (beginEncode s).eng.acc = s.eng.acc := rfl
@[simp] theorem beginEncode_eng_nacc (s : State) : (beginEncode s).eng.nacc = s.eng.nacc := rfl
@[simp] theorem beginEncode_eng_j (s : State) : (beginEncode s).eng.j = s.eng.j := rfl
@[simp] theorem beginEncode_eng_result (s : State) : (beginEncode s).eng.result = s.eng.result := rfl
@[simp] theorem beginEncode_rst (s : State) : (beginEncode s).rst = s.rst := rfl
@[simp] theorem beginEncode_params (s : State) : (beginEncode s).params = s.params := rfl
@[simp] theorem beginEncode_inputs (s : State) : (beginEncode s).inputs = s.inputs := rfl
@[simp] theorem beginEncode_rdata (s : State) : (beginEncode s).rdata = s.rdata := rfl
@[simp] theorem beginEncode_ipix (s : State) : (beginEncode s).ipix = s.ipix := rfl
@[simp] theorem beginEncode_ramEpoch (s : State) : (beginEncode s).ramEpoch = s.ramEpoch := rfl
@[simp] theorem beginEncode_draws (s : State) : (beginEncode s).draws = s.draws := rfl

/-! ### beginDecode -/

@[simp] theorem beginDecode_regs_irqEn (s : State) : (beginDecode s).regs.irqEn = s.regs.irqEn := rfl
@[simp] theorem beginDecode_regs_status (s : State) : (beginDecode s).regs.status = s.regs.status := rfl
@[simp] theorem beginDecode_regs_width (s : State) : (beginDecode s).regs.width = s.regs.width := rfl
@[simp] theorem beginDecode_regs_height (s : State) : (beginDecode s).regs.height = s.regs.height := rfl
@[simp] theorem beginDecode_regs_cfg (s : State) : (beginDecode s).regs.cfg = s.regs.cfg := rfl
@[simp] theorem beginDecode_regs_payloadLen (s : State) : (beginDecode s).regs.payloadLen = s.regs.payloadLen := rfl
@[simp] theorem beginDecode_regs_encEnd (s : State) : (beginDecode s).regs.encEnd = s.regs.encEnd := rfl
@[simp] theorem beginDecode_regs_outLen (s : State) : (beginDecode s).regs.outLen = 0#32 := rfl
@[simp] theorem beginDecode_regs_pHdr (s : State) : (beginDecode s).regs.pHdr = s.regs.pHdr := rfl
@[simp] theorem beginDecode_regs_pStart (s : State) : (beginDecode s).regs.pStart = s.regs.pStart := rfl
@[simp] theorem beginDecode_nbuf (s : State) : (beginDecode s).nbuf = s.nbuf := rfl
@[simp] theorem beginDecode_hdr (s : State) : (beginDecode s).hdr = s.hdr := rfl
@[simp] theorem beginDecode_pbuf (s : State) : (beginDecode s).pbuf = s.pbuf := rfl
@[simp] theorem beginDecode_image (s : State) : (beginDecode s).image = s.image := rfl
@[simp] theorem beginDecode_eng_phase (s : State) : (beginDecode s).eng.phase = s.eng.phase := rfl
@[simp] theorem beginDecode_eng_cmd (s : State) : (beginDecode s).eng.cmd = s.eng.cmd := rfl
@[simp] theorem beginDecode_eng_k (s : State) : (beginDecode s).eng.k = 0 := rfl
@[simp] theorem beginDecode_eng_c (s : State) : (beginDecode s).eng.c = Channel.r := rfl
@[simp] theorem beginDecode_eng_i (s : State) : (beginDecode s).eng.i = s.eng.i := rfl
@[simp] theorem beginDecode_eng_pcPix (s : State) : (beginDecode s).eng.pcPix = 0 := rfl
@[simp] theorem beginDecode_eng_s (s : State) : (beginDecode s).eng.s = 0 := rfl
@[simp] theorem beginDecode_eng_d (s : State) : (beginDecode s).eng.d = 0 := rfl
@[simp] theorem beginDecode_eng_encEnd (s : State) : (beginDecode s).eng.encEnd = s.eng.encEnd := rfl
@[simp] theorem beginDecode_eng_pb (s : State) : (beginDecode s).eng.pb = s.eng.pb := rfl
@[simp] theorem beginDecode_eng_latch (s : State) : (beginDecode s).eng.latch = s.eng.latch := rfl
@[simp] theorem beginDecode_eng_acc (s : State) : (beginDecode s).eng.acc = 0#8 := rfl
@[simp] theorem beginDecode_eng_nacc (s : State) : (beginDecode s).eng.nacc = 0#3 := rfl
@[simp] theorem beginDecode_eng_j (s : State) : (beginDecode s).eng.j = 0 := rfl
@[simp] theorem beginDecode_eng_result (s : State) : (beginDecode s).eng.result = s.eng.result := rfl
@[simp] theorem beginDecode_rst (s : State) : (beginDecode s).rst = s.rst := rfl
@[simp] theorem beginDecode_params (s : State) : (beginDecode s).params = s.params := rfl
@[simp] theorem beginDecode_inputs (s : State) : (beginDecode s).inputs = s.inputs := rfl
@[simp] theorem beginDecode_rdata (s : State) : (beginDecode s).rdata = s.rdata := rfl
@[simp] theorem beginDecode_ipix (s : State) : (beginDecode s).ipix = s.ipix := rfl
@[simp] theorem beginDecode_ramEpoch (s : State) : (beginDecode s).ramEpoch = s.ramEpoch := rfl
@[simp] theorem beginDecode_draws (s : State) : (beginDecode s).draws = s.draws := rfl

/-! ### loadEnd -/

@[simp] theorem loadEnd_regs (s : State) : (loadEnd s).regs = s.regs := rfl
@[simp] theorem loadEnd_nbuf (s : State) : (loadEnd s).nbuf = s.nbuf := rfl
@[simp] theorem loadEnd_hdr (s : State) : (loadEnd s).hdr = s.hdr := rfl
@[simp] theorem loadEnd_pbuf (s : State) : (loadEnd s).pbuf = s.pbuf := rfl
@[simp] theorem loadEnd_image (s : State) : (loadEnd s).image = s.image := rfl
@[simp] theorem loadEnd_eng_phase (s : State) : (loadEnd s).eng.phase = s.eng.phase := rfl
@[simp] theorem loadEnd_eng_cmd (s : State) : (loadEnd s).eng.cmd = s.eng.cmd := rfl
@[simp] theorem loadEnd_eng_k (s : State) : (loadEnd s).eng.k = s.eng.k := rfl
@[simp] theorem loadEnd_eng_c (s : State) : (loadEnd s).eng.c = s.eng.c := rfl
@[simp] theorem loadEnd_eng_i (s : State) : (loadEnd s).eng.i = s.eng.i := rfl
@[simp] theorem loadEnd_eng_pcPix (s : State) : (loadEnd s).eng.pcPix = s.eng.pcPix := rfl
@[simp] theorem loadEnd_eng_s (s : State) : (loadEnd s).eng.s = s.eng.s := rfl
@[simp] theorem loadEnd_eng_d (s : State) : (loadEnd s).eng.d = s.eng.d := rfl
@[simp] theorem loadEnd_eng_encEnd (s : State) : (loadEnd s).eng.encEnd = s.regs.encEnd.toNat := rfl
@[simp] theorem loadEnd_eng_latch (s : State) : (loadEnd s).eng.latch = s.eng.latch := rfl
@[simp] theorem loadEnd_eng_acc (s : State) : (loadEnd s).eng.acc = s.eng.acc := rfl
@[simp] theorem loadEnd_eng_nacc (s : State) : (loadEnd s).eng.nacc = s.eng.nacc := rfl
@[simp] theorem loadEnd_eng_j (s : State) : (loadEnd s).eng.j = s.eng.j := rfl
@[simp] theorem loadEnd_eng_result (s : State) : (loadEnd s).eng.result = s.eng.result := rfl
@[simp] theorem loadEnd_rst (s : State) : (loadEnd s).rst = s.rst := rfl
@[simp] theorem loadEnd_params (s : State) : (loadEnd s).params = s.params := rfl
@[simp] theorem loadEnd_inputs (s : State) : (loadEnd s).inputs = s.inputs := rfl
@[simp] theorem loadEnd_rdata (s : State) : (loadEnd s).rdata = s.rdata := rfl
@[simp] theorem loadEnd_ipix (s : State) : (loadEnd s).ipix = s.ipix := rfl
@[simp] theorem loadEnd_ramEpoch (s : State) : (loadEnd s).ramEpoch = s.ramEpoch := rfl
@[simp] theorem loadEnd_draws (s : State) : (loadEnd s).draws = s.draws := rfl

theorem decodeCheck_loadEnd (s : State) : decodeCheck (loadEnd s) = decodeCheck s := rfl

theorem loadEnd_pb {s : State} (h : s.regs.pHdr.pMode.toNat ≤ 1) :
    (loadEnd s).eng.pb = payloadBits s.params.decEndRule s.regs.pHdr.pMode.toNat s.regs.encEnd.toNat :=
  if_neg (Nat.not_lt.mpr h)

/-! ### resetBlock -/

@[simp] theorem resetBlock_regs (s : State) : (resetBlock s).regs = Regs.reset := rfl
@[simp] theorem resetBlock_nbuf (s : State) : (resetBlock s).nbuf = [] := rfl
@[simp] theorem resetBlock_hdr (s : State) : (resetBlock s).hdr = 0#580 := rfl
@[simp] theorem resetBlock_pbuf (s : State) : (resetBlock s).pbuf = [] := rfl
@[simp] theorem resetBlock_image (s : State) : (resetBlock s).image = s.image := rfl
@[simp] theorem resetBlock_eng (s : State) : (resetBlock s).eng = Engine.reset := rfl
@[simp] theorem resetBlock_rst (s : State) : (resetBlock s).rst = s.rst := rfl
@[simp] theorem resetBlock_params (s : State) : (resetBlock s).params = s.params := rfl
@[simp] theorem resetBlock_inputs (s : State) : (resetBlock s).inputs = s.inputs := rfl
@[simp] theorem resetBlock_rdata (s : State) : (resetBlock s).rdata = s.rdata := rfl
@[simp] theorem resetBlock_ipix (s : State) : (resetBlock s).ipix = s.ipix := rfl
@[simp] theorem resetBlock_ramEpoch (s : State) : (resetBlock s).ramEpoch = s.ramEpoch + 1 := rfl
@[simp] theorem resetBlock_draws (s : State) : (resetBlock s).draws = s.draws := rfl

/-! ### accessInReset -/

@[simp] theorem accessInReset_regs (a : Access) (s : State) : (accessInReset a s).regs = s.regs := rfl
@[simp] theorem accessInReset_nbuf (a : Access) (s : State) : (accessInReset a s).nbuf = s.nbuf := rfl
@[simp] theorem accessInReset_hdr (a : Access) (s : State) : (accessInReset a s).hdr = s.hdr := rfl
@[simp] theorem accessInReset_pbuf (a : Access) (s : State) : (accessInReset a s).pbuf = s.pbuf := rfl
@[simp] theorem accessInReset_image (a : Access) (s : State) : (accessInReset a s).image = s.image := rfl
@[simp] theorem accessInReset_eng (a : Access) (s : State) : (accessInReset a s).eng = s.eng := rfl
@[simp] theorem accessInReset_rst (a : Access) (s : State) : (accessInReset a s).rst = s.rst := rfl
@[simp] theorem accessInReset_params (a : Access) (s : State) : (accessInReset a s).params = s.params := rfl
@[simp] theorem accessInReset_inputs (a : Access) (s : State) : (accessInReset a s).inputs = s.inputs := rfl
@[simp] theorem accessInReset_ipix (a : Access) (s : State) : (accessInReset a s).ipix = s.ipix := rfl
@[simp] theorem accessInReset_ramEpoch (a : Access) (s : State) : (accessInReset a s).ramEpoch = s.ramEpoch := rfl
@[simp] theorem accessInReset_draws (a : Access) (s : State) : (accessInReset a s).draws = s.draws := rfl
@[simp] theorem accessInReset_rdata (a : Access) (s : State) : (accessInReset a s).rdata = (hostAccess a s).rdata := rfl

end Sys2Proof.Machine
end

