-- ==== Sys2Proof/Laws/Bus.lean ====
section
/-! SUPPORT. What an aligned word access reaches, and what a word access can do. -/

namespace Sys2Proof.Machine

/-! ### which register an offset names -/

theorem regAt_page {p off : Nat} (h : off < 0x100) : regAt p off = pageReg off := by
  unfold regAt; rw [if_neg (by omega), if_neg (by omega), if_neg (by omega)]

theorem regAt_nbuf_word {p off : Nat} (h : 0x100 ≤ off) (h' : off < 0x140) : regAt p off = .nbuf ((off - 0x100) / 4) := by
  unfold regAt; rw [if_pos ⟨h, h'⟩]

theorem regAt_hdr_word {p off : Nat} (h : 0x200 ≤ off) (h' : off < 0x24C) : regAt p off = .hdr ((off - 0x200) / 4) := by
  unfold regAt; rw [if_neg (by omega), if_pos ⟨h, h'⟩]

theorem regAt_pbuf_word {p off : Nat} (h : 0x1000 ≤ off) (h' : off < 0x1000 + p) :
    regAt p off = .pbuf ((off - 0x1000) / 4) := by
  unfold regAt; rw [if_neg (by omega), if_neg (by omega), if_pos ⟨h, h'⟩]

theorem pageReg_reserved {off : Nat} (h : 0x030 ≤ off) : pageReg off = .reserved := by
  unfold pageReg; split <;> first | omega | rfl

theorem regAt_reserved {p off : Nat} (h : 0x030 ≤ off) (h1 : off < 0x100 ∨ 0x140 ≤ off) (h2 : off < 0x200 ∨ 0x24C ≤ off)
    (h3 : off < 0x1000 ∨ 0x1000 + p ≤ off) : regAt p off = .reserved := by
  unfold regAt; rw [if_neg (by omega), if_neg (by omega), if_neg (by omega), pageReg_reserved h]

/-- A word of NBUF lies inside its 64 bytes. -/
theorem regAt_nbuf {p off w : Nat} (h : regAt p off = .nbuf w) (ho : off % 4 = 0) : 4 * w + 3 < 64 := by
  unfold regAt at h
  split at h; · cases h; omega
  split at h; · cases h
  split at h; · cases h
  unfold pageReg at h; split at h <;> cases h

/-- A word of PBUF lies inside its bytes. -/
theorem regAt_pbuf {p off w : Nat} (h : regAt p off = .pbuf w) (ho : off % 4 = 0) (hp : p % 4 = 0) : 4 * w + 3 < p := by
  unfold regAt at h
  split at h; · cases h
  split at h; · cases h
  split at h
  · cases h; omega
  · unfold pageReg at h; split at h <;> cases h

/-! ### word accesses -/

theorem hostAccess_wr {off : Word} (h : off.toNat % 4 = 0) (v : Word) (s : State) :
    hostAccess (Access.wr off v) s = wordWrite s v (regAt s.params.pbufBytes off.toNat) := by
  have hs : (Access.wr off v).supported = true := by simp [Access.supported, Access.wr, h]
  unfold hostAccess
  rw [if_pos hs]
  rfl

theorem hostAccess_rd {off : Word} (h : off.toNat % 4 = 0) (s : State) :
    hostAccess (Access.rd off) s = wordRead s (regAt s.params.pbufBytes off.toNat) := by
  have hs : (Access.rd off).supported = true := by simp [Access.supported, Access.rd, h]
  unfold hostAccess
  rw [if_pos hs]
  rfl

theorem wordWrite_idle {s : State} (h : s.regs.status.busy = false) (v : Word) (r : HostReg) :
    wordWrite s v r = writeReg s v r := by simp [wordWrite, h]

theorem wordRead_idle {s : State} (h : s.regs.status.busy = false) (r : HostReg) :
    wordRead s r = { s with rdata := readReg s r } := by simp [wordRead, h]

theorem wordWrite_free {r : HostReg} (h : r.writeIsHazard = false) (s : State) (v : Word) :
    wordWrite s v r = writeReg s v r := by simp [wordWrite, h]

theorem wordRead_free {r : HostReg} (h : r.readIsHazard = false) (s : State) :
    wordRead s r = { s with rdata := readReg s r } := by simp [wordRead, h]

theorem wordWrite_busy {s : State} {r : HostReg} (h : s.regs.status.busy = true) (hr : r.writeIsHazard = true)
    (v : Word) : wordWrite s v r = setAccErr s := by simp [wordWrite, h, hr]

theorem wordRead_busy {s : State} {r : HostReg} (h : s.regs.status.busy = true) (hr : r.readIsHazard = true) :
    wordRead s r = setAccErr { s with rdata := Config.busyRead s.draws, draws := s.draws + 1 } := by
  simp [wordRead, h, hr]

/-- A write to CMD (45_control.md R240). -/
theorem hostAccess_wr_cmd (v : Word) (s : State) : hostAccess (Access.wr 0x008#32 v) s = issue v s := by
  rw [hostAccess_wr (by decide), show (0x008#32 : Word).toNat = 0x008 from rfl, regAt_page (by decide)]
  exact wordWrite_free rfl s v

/-! ### host words of the byte buffers -/

theorem wordOfBytes_byteLane (b : Nat → Byte) {q : Nat} (h : q < 4) : byteLane (wordOfBytes b) q = b q := by
  apply BitVec.eq_of_getLsbD_eq
  intro i hi
  simp only [byteLane, wordOfBytes, BitVec.getLsbD_extractLsb', BitVec.getLsbD_append, hi, decide_true, Bool.true_and]
  have : q = 0 ∨ q = 1 ∨ q = 2 ∨ q = 3 := by omega
  rcases this with rfl | rfl | rfl | rfl
  · simp [hi]
  · rw [if_neg (by omega), if_pos (by omega)]; congr 1; omega
  · rw [if_neg (by omega), if_neg (by omega), if_pos (by omega)]; congr 1; omega
  · rw [if_neg (by omega), if_neg (by omega), if_neg (by omega)]; congr 1; omega

/-- What a word write leaves in a byte buffer (20_memory.md R63, R64). -/
theorem writeLanes_read? (m : Memory) (w : Nat) (v : Word) (n : Nat) :
    Memory.read? (writeLanes m w v) n =
      if n / 4 = w then some (v.extractLsb' (8 * (n % 4)) 8) else Memory.read? m n := by
  unfold writeLanes
  simp only [Memory.read?_write, byteLane]
  by_cases h : n / 4 = w
  · have : n % 4 = 0 ∨ n % 4 = 1 ∨ n % 4 = 2 ∨ n % 4 = 3 := by omega
    rw [if_pos h]
    rcases this with h1 | h1 | h1 | h1 <;> rw [h1]
    · rw [if_neg (by omega), if_neg (by omega), if_neg (by omega), if_pos (by omega)]
    · rw [if_neg (by omega), if_neg (by omega), if_pos (by omega)]
    · rw [if_neg (by omega), if_pos (by omega)]
    · rw [if_pos (by omega)]
  · rw [if_neg h, if_neg (by omega), if_neg (by omega), if_neg (by omega), if_neg (by omega)]

end Sys2Proof.Machine
end

