-- ==== Sys2Proof/Laws/Walker.lean ====
section
/-! SUPPORT. The walker: slots, eligible slots and their count, the LSB operations, the cursor. -/

namespace Sys2Proof.Machine

/-! ### slots (42_walker.md R171, R172) -/

@[simp] theorem slotOf_div (k : Nat) (c : Channel) : slotOf k c / 3 = k := by
  have := c.idx_lt; simp only [slotOf]; omega

@[simp] theorem slotOf_mod (k : Nat) (c : Channel) : slotOf k c % 3 = c.idx := by
  have := c.idx_lt; simp only [slotOf]; omega

@[simp] theorem chanOfSlot_slotOf (k : Nat) (c : Channel) : chanOfSlot (slotOf k c) = c := by
  simp only [chanOfSlot, slotOf_mod]; cases c <;> rfl

theorem chanOfSlot_idx (s : Nat) : (chanOfSlot s).idx = s % 3 := by
  simp only [chanOfSlot]
  split
  · simp [Channel.idx, *]
  · split
    · simp [Channel.idx, *]
    · simp only [Channel.idx]; omega

@[simp] theorem slotOf_chanOfSlot (s : Nat) : slotOf (s / 3) (chanOfSlot s) = s := by
  simp only [slotOf, chanOfSlot_idx]; omega

theorem walk_eq {h k : Nat} : walkX h k * h + walkY h k = k := by
  simp only [walkX, walkY]; rw [Nat.mul_comm]; exact Nat.div_add_mod k h

theorem walkY_lt {h : Nat} (hh : 0 < h) (k : Nat) : walkY h k < h := Nat.mod_lt _ hh

theorem walkX_lt {w h k : Nat} (hk : k < w * h) : walkX h k < w := by
  apply Nat.div_lt_of_lt_mul; rwa [Nat.mul_comm] at hk

theorem walk_inj {h k l : Nat} (hx : walkX h k = walkX h l) (hy : walkY h k = walkY h l) : k = l := by
  rw [← walk_eq (h := h) (k := k), hx, hy, walk_eq]

/-! ### eligible slots (42_walker.md R174 to R178) -/

@[simp] theorem payloadEligible_zero (k : Nat) : payloadEligible 0 k = true := rfl

theorem payloadEligible_one (k : Nat) : payloadEligible 1 k = decide (k % 2 = 0) := by
  simp [payloadEligible]; rfl

theorem eligibleBelow_succ (m b : Nat) :
    eligibleBelow m (b + 1) = eligibleBelow m b + (payloadEligible m (b / 3)).toNat := by
  by_cases h0 : m = 0
  · subst h0; simp [eligibleBelow]
  · by_cases h1 : m = 1
    · subst h1
      rw [payloadEligible_one]
      simp only [eligibleBelow, if_neg (by decide : ¬ (1 : Nat) = 0), if_true]
      by_cases h : b / 3 % 2 = 0
      · simp only [h, decide_true, Bool.toNat_true]; omega
      · simp only [h, decide_false, Bool.toNat_false]; omega
    · have : payloadEligible m (b / 3) = false := by simp [payloadEligible, h0, h1]
      simp [eligibleBelow, h0, h1, this]

theorem eligibleBelow_mono (m : Nat) {a b : Nat} (h : a ≤ b) : eligibleBelow m a ≤ eligibleBelow m b := by
  induction h with
  | refl => exact Nat.le_refl _
  | step _ ih => rw [Nat.succ_eq_add_one, eligibleBelow_succ]; omega

theorem eligibleCount_self (m a : Nat) : eligibleCount m a a = 0 := Nat.sub_self _

theorem eligibleCount_succ (m : Nat) {a b : Nat} (h : a ≤ b) :
    eligibleCount m a (b + 1) = eligibleCount m a b + (payloadEligible m (b / 3)).toNat := by
  have := eligibleBelow_mono m h
  simp only [eligibleCount, eligibleBelow_succ]
  omega

theorem eligibleCount_mono (m a : Nat) {b c : Nat} (h : b ≤ c) : eligibleCount m a b ≤ eligibleCount m a c := by
  have := eligibleBelow_mono m h
  simp only [eligibleCount]
  omega

/-- The closed form counts the set of 42_walker.md R178. -/
theorem eligibleCount_eq_length (m a b : Nat) :
    eligibleCount m a b = ((List.range b).filter (fun s => decide (a ≤ s) && payloadEligible m (s / 3))).length := by
  induction b with
  | zero => simp [eligibleCount, eligibleBelow]
  | succ b ih =>
    rw [List.range_succ, List.filter_append, List.length_append, ← ih]
    by_cases h : a ≤ b
    · rw [eligibleCount_succ m h]
      cases hp : payloadEligible m (b / 3) <;> simp [h, hp]
    · have hm := eligibleBelow_mono m (show b + 1 ≤ a by omega)
      have hm' := eligibleBelow_mono m (show b ≤ a by omega)
      simp [h, eligibleCount]
      omega

theorem streamIndexAt_lt {m s : Nat} (h : s < 580) : streamIndexAt m s = s := by simp [streamIndexAt, h]

theorem streamIndexAt_ge {m s : Nat} (h : 580 ≤ s) : streamIndexAt m s = 580 + eligibleCount m 580 s := by
  simp [streamIndexAt, Nat.not_lt.mpr h]

theorem streamIndexAt_lt_iff (m s : Nat) : streamIndexAt m s < 580 ↔ s < 580 := by
  by_cases h : s < 580
  · simp [streamIndexAt_lt h, h]
  · simp [streamIndexAt_ge (Nat.not_lt.mp h), h]

/-- The carry count advances exactly at the slots the encoder selects (42_walker.md R175). -/
theorem streamIndexAt_succ (m s : Nat) :
    streamIndexAt m (s + 1) = streamIndexAt m s + (writeE (streamIndexAt m s) m (s / 3)).toNat := by
  by_cases h : s < 580
  · have hw : writeE (streamIndexAt m s) m (s / 3) = true := by simp [writeE, streamIndexAt_lt h, h]
    rw [hw, streamIndexAt_lt h]
    by_cases h' : s + 1 < 580
    · rw [streamIndexAt_lt h']; rfl
    · have e : s + 1 = 580 := by omega
      rw [e, streamIndexAt_ge (Nat.le_refl _), eligibleCount_self]
      simp only [Bool.toNat_true]
      omega
  · rw [streamIndexAt_ge (by omega), streamIndexAt_ge (by omega), eligibleCount_succ m (by omega)]
    have hw : writeE (580 + eligibleCount m 580 s) m (s / 3) = payloadEligible m (s / 3) := by
      simp [writeE, show ¬ 580 + eligibleCount m 580 s < 580 by omega]
    rw [hw]; omega

theorem streamIndexAt_mono (m : Nat) {a b : Nat} (h : a ≤ b) : streamIndexAt m a ≤ streamIndexAt m b := by
  induction h with
  | refl => exact Nat.le_refl _
  | step _ ih => rw [Nat.succ_eq_add_one, streamIndexAt_succ]; omega

theorem streamIndexAt_le (m s : Nat) : streamIndexAt m s ≤ s := by
  induction s with
  | zero => simp [streamIndexAt]
  | succ s ih =>
    rw [streamIndexAt_succ]
    have := Bool.toNat_le (writeE (streamIndexAt m s) m (s / 3))
    omega

/-- 42_walker.md R177: slot σ(i) carries stream bit `i`. -/
theorem streamIndexAt_sigma {m : Nat} (hm : m ≤ 1) (i : Nat) :
    streamIndexAt m (sigma m i) = i ∧ writeE i m (sigma m i / 3) = true := by
  by_cases hi : i < 580
  · have e : sigma m i = i := by simp [sigma, show ¬ 580 ≤ i by omega]
    rw [e, streamIndexAt_lt hi]
    exact ⟨rfl, by simp [writeE, hi]⟩
  · rcases Nat.le_one_iff_eq_zero_or_eq_one.mp hm with h | h
    · subst h
      have e : sigma 0 i = i := by simp [sigma]
      rw [e, streamIndexAt_ge (by omega)]
      exact ⟨by simp [eligibleCount, eligibleBelow]; omega, by simp [writeE]⟩
    · subst h
      have e : sigma 1 i = 3 * (194 + 2 * ((i - 580) / 3)) + (i - 580) % 3 := by
        simp [sigma, show 580 ≤ i by omega]
      rw [e, streamIndexAt_ge (by omega)]
      constructor
      · simp only [eligibleCount, eligibleBelow, if_neg (by decide : ¬ (1 : Nat) = 0), if_true]; omega
      · have : (3 * (194 + 2 * ((i - 580) / 3)) + (i - 580) % 3) / 3 % 2 = 0 := by omega
        simp [writeE, payloadEligible_one, this]

/-- A slot that carries a stream bit is the σ of its index. -/
theorem sigma_streamIndexAt {m s : Nat} (hm : m ≤ 1) (h : writeE (streamIndexAt m s) m (s / 3) = true) :
    sigma m (streamIndexAt m s) = s := by
  have hs := streamIndexAt_sigma hm (streamIndexAt m s)
  have key : ∀ a b, writeE (streamIndexAt m a) m (a / 3) = true → streamIndexAt m a = streamIndexAt m b → ¬ a < b := by
    intro a b ha e hlt
    have := streamIndexAt_mono m (show a + 1 ≤ b by omega)
    rw [streamIndexAt_succ, ha, Bool.toNat_true] at this
    omega
  have h1 := key s (sigma m (streamIndexAt m s)) h hs.1.symm
  have h2 := key (sigma m (streamIndexAt m s)) s (by rw [hs.1]; exact hs.2) hs.1
  omega

theorem sigma_strictMono {m i j : Nat} (hm : m ≤ 1) (h : i < j) : sigma m i < sigma m j := by
  apply Nat.lt_of_not_le
  intro hle
  have := streamIndexAt_mono m hle
  rw [(streamIndexAt_sigma hm i).1, (streamIndexAt_sigma hm j).1] at this
  omega

theorem sigma_inj {m i j : Nat} (hm : m ≤ 1) (h : sigma m i = sigma m j) : i = j := by
  have hi := (streamIndexAt_sigma hm i).1
  rw [h, (streamIndexAt_sigma hm j).1] at hi
  exact hi.symm

/-- The stream fits exactly when the carry count at the end of the image reaches its length (42_walker.md R178). -/
theorem fits_iff_streamIndexAt {m n len : Nat} (h : 580 ≤ 3 * n) :
    8 * len ≤ payloadCapacity m n ↔ 580 + 8 * len ≤ streamIndexAt m (3 * n) := by
  rw [streamIndexAt_ge h, payloadCapacity]; omega

theorem sigma_lt_of_le {m i b : Nat} (hm : m ≤ 1) (h : i < streamIndexAt m b) : sigma m i < b := by
  apply Nat.lt_of_not_le
  intro hle
  have := streamIndexAt_mono m hle
  rw [(streamIndexAt_sigma hm i).1] at this
  omega

/-! ### LSB operations (42_walker.md R179, R180) -/

@[simp] theorem lsbExtract_lsbWrite (v : Byte) (b : Bool) : lsbExtract (lsbWrite v b) = b := by
  have h : ∀ (v : Byte) (b : Bool), lsbExtract (lsbWrite v b) = b := by decide +kernel
  exact h v b

theorem lsbWrite_div (v : Byte) (b : Bool) : (lsbWrite v b).toNat / 2 = v.toNat / 2 := by
  have h : ∀ (v : Byte) (b : Bool), (lsbWrite v b).toNat / 2 = v.toNat / 2 := by decide +kernel
  exact h v b

/-! ### the cursor (42_walker.md R173) -/

theorem Engine.advance_of_b {e : Engine} (h : e.c = .b) :
    e.advance = { e with k := e.k + 1, pcPix := e.pcPix + 1, c := .r } := by simp [Engine.advance, h]

theorem Engine.advance_of_ne_b {e : Engine} (h : e.c ≠ .b) : e.advance = { e with c := e.c.next } := by
  simp [Engine.advance, h]

theorem Engine.advance_slot (e : Engine) : slotOf e.advance.k e.advance.c = slotOf e.k e.c + 1 := by
  simp only [Engine.advance, slotOf]
  split
  · simp_all [Channel.idx]; omega
  · cases hc : e.c <;> simp_all [Channel.next, Channel.idx]

theorem Engine.advance_pcPix {e : Engine} (h : e.pcPix = e.k) : e.advance.pcPix = e.advance.k := by
  simp only [Engine.advance]; split <;> simp [h]

@[simp] theorem Engine.advance_phase (e : Engine) : e.advance.phase = e.phase := by
  simp only [Engine.advance]; split <;> rfl
@[simp] theorem Engine.advance_cmd (e : Engine) : e.advance.cmd = e.cmd := by
  simp only [Engine.advance]; split <;> rfl
@[simp] theorem Engine.advance_i (e : Engine) : e.advance.i = e.i := by
  simp only [Engine.advance]; split <;> rfl
@[simp] theorem Engine.advance_s (e : Engine) : e.advance.s = e.s := by
  simp only [Engine.advance]; split <;> rfl
@[simp] theorem Engine.advance_d (e : Engine) : e.advance.d = e.d := by
  simp only [Engine.advance]; split <;> rfl
@[simp] theorem Engine.advance_encEnd (e : Engine) : e.advance.encEnd = e.encEnd := by
  simp only [Engine.advance]; split <;> rfl
@[simp] theorem Engine.advance_pb (e : Engine) : e.advance.pb = e.pb := by
  simp only [Engine.advance]; split <;> rfl
@[simp] theorem Engine.advance_latch (e : Engine) : e.advance.latch = e.latch := by
  simp only [Engine.advance]; split <;> rfl
@[simp] theorem Engine.advance_acc (e : Engine) : e.advance.acc = e.acc := by
  simp only [Engine.advance]; split <;> rfl
@[simp] theorem Engine.advance_nacc (e : Engine) : e.advance.nacc = e.nacc := by
  simp only [Engine.advance]; split <;> rfl
@[simp] theorem Engine.advance_j (e : Engine) : e.advance.j = e.j := by
  simp only [Engine.advance]; split <;> rfl
@[simp] theorem Engine.advance_result (e : Engine) : e.advance.result = e.result := by
  simp only [Engine.advance]; split <;> rfl

theorem latchPixel_of_r {s : State} (h : s.eng.c = .r) :
    latchPixel s = pixRead s (walkX s.regs.height.toNat s.eng.k) (walkY s.regs.height.toNat s.eng.k) := by
  simp [latchPixel, h]

theorem latchPixel_of_ne_r {s : State} (h : s.eng.c ≠ .r) : latchPixel s = some s.eng.latch := by
  simp [latchPixel, h]

end Sys2Proof.Machine
end

