-- ==== Sys2Proof/Laws/Engine.lean ====
section
/-! SUPPORT. What each engine step can do, said once, and how runs of the engine compose. -/

namespace Sys2Proof.Machine

/-! ### runs of the engine -/

@[simp] theorem andThen_next (s : State) (f : State → Result) : andThen (.next s) f = f s := rfl
@[simp] theorem andThen_fault (e : Fault) (f : State → Result) : andThen (.fault e) f = .fault e := rfl
@[simp] theorem andThen_refused (e : Refusal) (f : State → Result) : andThen (.refused e) f = .refused e := rfl

theorem andThen_eq_next {r : Result} {f : State → Result} {u : State} (h : andThen r f = .next u) :
    ∃ t, r = .next t ∧ f t = .next u := by
  cases r with
  | next t => exact ⟨t, rfl, h⟩
  | fault e => cases h
  | refused e => cases h

@[simp] theorem runEngine_zero (s : State) : runEngine 0 s = .next s := rfl

theorem runEngine_idle {s : State} (h : s.eng.phase = .idle) (fuel : Nat) : runEngine fuel s = .next s := by
  cases fuel with
  | zero => rfl
  | succ n => simp [runEngine, h]

theorem runEngine_succ {s : State} (h : s.eng.phase ≠ .idle) (fuel : Nat) :
    runEngine (fuel + 1) s = andThen (engineStep s) (runEngine fuel) := by
  simp only [runEngine, h, if_false]

theorem runEngine_succ_next {s t : State} (h : s.eng.phase ≠ .idle) (e : engineStep s = .next t) (fuel : Nat) :
    runEngine (fuel + 1) s = runEngine fuel t := by rw [runEngine_succ h, e, andThen_next]

/-- A run of `a + b` steps is a run of `a` steps, then of `b` steps. -/
theorem runEngine_add (a b : Nat) (s : State) : runEngine (a + b) s = andThen (runEngine a s) (runEngine b) := by
  induction a generalizing s with
  | zero => simp
  | succ a ih =>
    by_cases h : s.eng.phase = .idle
    · simp [runEngine_idle h]
    · rw [show a + 1 + b = (a + b) + 1 by omega, runEngine_succ h, runEngine_succ h]
      cases engineStep s with
      | next t => exact ih t
      | fault f => rfl
      | refused r => rfl

theorem runEngine_add_next {a : Nat} {s t : State} (h : runEngine a s = .next t) (b : Nat) :
    runEngine (a + b) s = runEngine b t := by rw [runEngine_add, h, andThen_next]

/-- Once a run has reached an idle state, more fuel changes nothing. -/
theorem runEngine_le {a b : Nat} {s t : State} (h : runEngine a s = .next t) (hi : t.eng.phase = .idle) (hab : a ≤ b) :
    runEngine b s = .next t := by
  obtain ⟨c, rfl⟩ := Nat.exists_eq_add_of_le hab
  rw [runEngine_add_next h, runEngine_idle hi]

/-- A stopped run stays stopped with more fuel. -/
theorem runEngine_le_refused {a b : Nat} {s : State} {r : Refusal} (h : runEngine a s = .refused r) (hab : a ≤ b) :
    runEngine b s = .refused r := by
  obtain ⟨c, rfl⟩ := Nat.exists_eq_add_of_le hab
  rw [runEngine_add, h, andThen_refused]

/-- A property that every engine step keeps holds after a run. -/
theorem runEngine_induct {P : State → Prop} (step : ∀ s t, P s → engineStep s = .next t → P t) {fuel : Nat} {s t : State}
    (hs : P s) (h : runEngine fuel s = .next t) : P t := by
  induction fuel generalizing s with
  | zero => cases h; exact hs
  | succ n ih =>
    by_cases hi : s.eng.phase = .idle
    · rw [runEngine_idle hi] at h; cases h; exact hs
    · rw [runEngine_succ hi] at h
      obtain ⟨u, hu, h⟩ := andThen_eq_next h
      exact ih (step s u hs hu) h

/-- What a call does on an idle and on a busy block (45_control.md R240). -/
theorem callCommand_idle {s : State} (h : s.regs.status.busy = false) (v : Word) :
    callCommand v s = runEngine (engineFuel s) (accept v s) := by simp [callCommand, h]

theorem callCommand_busy {s : State} (h : s.regs.status.busy = true) (v : Word) :
    callCommand v s = .next (setAccErr s) := by simp [callCommand, h]

theorem decode_encode (i : Instr) : decode (encode i) = .ok i := by cases i <;> decide

theorem exec_eq_callCommand (i : Instr) (s : State) : exec i s = callCommand (encode i) s := by cases i <;> rfl

theorem startWord_of_decode {s : State} {i : Instr} (h : decode s.eng.cmd = .ok i) :
    startWord s = startCommand i s := by rw [startWord, h]

/-- The first engine step of an accepted command. -/
theorem engineStep_accept (v : Word) (s : State) : engineStep (accept v s) = .next (startWord (accept v s)) := rfl

theorem engineStep_finish {s : State} (h : s.eng.phase = .finish) : engineStep s = .next (complete s) := by
  rw [engineStep, h]

/-- A command that is over after its start takes three steps. -/
theorem callCommand_of_start {s : State} (hi : s.regs.status.busy = false) {v : Word} {t : State}
    (ht : startWord (accept v s) = t) (hf : t.eng.phase = .finish) : callCommand v s = .next (complete t) := by
  rw [callCommand_idle hi, engineFuel, show 3 * s.n + 4 = (3 * s.n + 2) + 1 + 1 by omega,
    runEngine_succ_next (by simp) (engineStep_accept v s), ht,
    runEngine_succ_next (by simp [hf]) (engineStep_finish hf), runEngine_idle (by simp)]

/-! ### the pixel port -/

theorem pixRead_eq_some {s : State} {x y : Nat} {p : Pixel} :
    pixRead s x y = some p ↔ s.image.has x y = true ∧ p = s.image.pixel x y := by
  unfold pixRead
  split
  · rename_i h; exact ⟨fun e => ⟨h, (Option.some.inj e).symm⟩, fun e => by rw [e.2]⟩
  · rename_i h; exact ⟨fun e => (by cases e), fun e => absurd e.1 h⟩

theorem pixWrite_eq_some {s t : State} {x y : Nat} {p : Pixel} :
    pixWrite s x y p = some t ↔ s.image.has x y = true ∧ t = { s with image := s.image.setPixel x y p } := by
  unfold pixWrite
  split
  · rename_i h; exact ⟨fun e => ⟨h, (Option.some.inj e).symm⟩, fun e => by rw [e.2]⟩
  · rename_i h; exact ⟨fun e => (by cases e), fun e => absurd e.1 h⟩

/-! ### one slot of ENCODE (43_encoder.md R194) -/

@[simp] theorem encSlot_phase (s : State) (p : Pixel) : (encSlot s p).phase = s.eng.phase := by
  simp only [encSlot]; split <;> rfl

@[simp] theorem encSlot_cmd (s : State) (p : Pixel) : (encSlot s p).cmd = s.eng.cmd := by
  simp only [encSlot]; split <;> rfl

@[simp] theorem encSlot_k (s : State) (p : Pixel) : (encSlot s p).k = s.eng.k := by
  simp only [encSlot]; split <;> rfl

@[simp] theorem encSlot_c (s : State) (p : Pixel) : (encSlot s p).c = s.eng.c := by
  simp only [encSlot]; split <;> rfl

@[simp] theorem encSlot_pcPix (s : State) (p : Pixel) : (encSlot s p).pcPix = s.eng.pcPix := by
  simp only [encSlot]; split <;> rfl

theorem encSlot_i (s : State) (p : Pixel) :
    (encSlot s p).i = s.eng.i + (writeE s.eng.i s.mode s.eng.k).toNat := by
  simp only [encSlot]; split <;> simp_all

theorem encSlot_latch (s : State) (p : Pixel) :
    (encSlot s p).latch =
      p.set s.eng.c (lane (p.get s.eng.c) (writeE s.eng.i s.mode s.eng.k) (streamBit s s.eng.i)) := by
  simp only [encSlot, lane]
  split
  · simp [*]
  · cases s.eng.c <;> simp [*, Pixel.set, Pixel.get]

/-- What one slot of the encoder's walk does. -/
theorem encWalkStep_cases (s : State) :
    (latchPixel s = none ∧ encWalkStep s = .refused .pixelOutsideImage) ∨
    ∃ p, latchPixel s = some p ∧
      ((s.eng.c ≠ .b ∧ (encSlot s p).i ≠ s.regs.encEnd.toNat ∧
          encWalkStep s = .next (s.withEng (encSlot s p).advance)) ∨
       ((s.eng.c = .b ∨ (encSlot s p).i = s.regs.encEnd.toNat) ∧
          s.image.has (walkX s.h s.eng.k) (walkY s.h s.eng.k) = false ∧
          encWalkStep s = .refused .pixelOutsideImage) ∨
       ((s.eng.c = .b ∨ (encSlot s p).i = s.regs.encEnd.toNat) ∧
          s.image.has (walkX s.h s.eng.k) (walkY s.h s.eng.k) = true ∧
          encWalkStep s =
            .next (let u : State :=
                { s with
                  image := s.image.setPixel (walkX s.h s.eng.k) (walkY s.h s.eng.k) (encSlot s p).latch,
                  eng := { encSlot s p with k := s.eng.k + 1, pcPix := s.eng.pcPix + 1, c := .r } }
              if (encSlot s p).i = s.regs.encEnd.toNat then succeed u else u))) := by
  cases hp : latchPixel s with
  | none => left; simp [encWalkStep, hp]
  | some p =>
    right
    refine ⟨p, rfl, ?_⟩
    by_cases hb : s.eng.c = .b ∨ (encSlot s p).i = s.regs.encEnd.toNat
    · right
      cases hh : s.image.has (walkX s.h s.eng.k) (walkY s.h s.eng.k) with
      | false => left; exact ⟨hb, rfl, by simp [encWalkStep, hp, hb, pixWrite, hh]⟩
      | true => right; exact ⟨hb, rfl, by simp [encWalkStep, hp, hb, pixWrite, hh, State.withEng]⟩
    · left
      exact ⟨fun h => hb (.inl h), fun h => hb (.inr h), by simp [encWalkStep, hp, hb]⟩

/-! ### one slot of DECODE (44_decoder.md R212, R219) -/

theorem decHdrStep_cases (s : State) :
    (latchPixel s = none ∧ decHdrStep s = .refused .pixelOutsideImage) ∨
    ∃ p, latchPixel s = some p ∧
      decHdrStep s =
        .next (let t : State :=
            { s with
              hdr := hdrSetBit s.hdr s.eng.s (lsbExtract (p.get s.eng.c)),
              eng := Engine.advance { s.eng with latch := p, s := s.eng.s + 1, d := s.eng.d + 1 } }
          if s.eng.s = 579 then parsePoint t else t) := by
  cases hp : latchPixel s with
  | none => left; simp [decHdrStep, hp]
  | some p => right; exact ⟨p, rfl, by simp [decHdrStep, hp]⟩

theorem decPayStep_cases (s : State) :
    (s.eng.d = 580 + s.eng.pb ∧
      decPayStep s = .next (succeed { s with regs := { s.regs with outLen := BitVec.ofNat 32 (s.eng.pb / 8) } })) ∨
    (s.eng.d ≠ 580 + s.eng.pb ∧ latchPixel s = none ∧ decPayStep s = .refused .pixelOutsideImage) ∨
    (s.eng.d ≠ 580 + s.eng.pb ∧ ∃ p, latchPixel s = some p ∧
      ((readD s.eng.s s.regs.pHdr.pMode.toNat s.eng.k = true ∧
          decPayStep s =
            .next
              ((packBit (lsbExtract (p.get s.eng.c))
                  (s.withEng { s.eng with latch := p, s := s.eng.s + 1, d := s.eng.d + 1 })).withEng
                (packBit (lsbExtract (p.get s.eng.c))
                  (s.withEng { s.eng with latch := p, s := s.eng.s + 1, d := s.eng.d + 1 })).eng.advance)) ∨
       (readD s.eng.s s.regs.pHdr.pMode.toNat s.eng.k = false ∧
          decPayStep s = .next (s.withEng (Engine.advance { s.eng with latch := p, s := s.eng.s + 1 }))))) := by
  by_cases hd : s.eng.d = 580 + s.eng.pb
  · left; exact ⟨hd, by simp [decPayStep, hd]⟩
  · right
    cases hp : latchPixel s with
    | none => left; exact ⟨hd, rfl, by simp [decPayStep, hd, hp]⟩
    | some p =>
      right
      refine ⟨hd, p, rfl, ?_⟩
      cases hr : readD s.eng.s s.regs.pHdr.pMode.toNat s.eng.k with
      | true => left; exact ⟨rfl, by simp [decPayStep, hd, hp, hr]⟩
      | false => right; exact ⟨rfl, by simp [decPayStep, hd, hp, hr]⟩

/-- Out of reset, a step of the machine with an input pending takes that input; without one the engine steps. -/
theorem step_nil {s : State} (h : s.inputs = []) (hr : s.rst = false) : step s = engineStep s := by
  simp [step, h, takeInput, hr, inputOutOfReset]

theorem step_cons {s : State} {inp : Input} {rest : List Input} (h : s.inputs = inp :: rest) (hr : s.rst = false) :
    step s = inputOutOfReset inp { s with inputs := rest } := by simp [step, h, takeInput, hr]

/-- The same while `rst` is asserted, from the block's reset values. -/
theorem step_inReset_nil {s : State} (h : s.inputs = []) (hr : s.rst = true) : step s = .next (resetBlock s) := by
  simp [step, h, takeInput, hr, inputInReset]

theorem step_inReset_cons {s : State} {inp : Input} {rest : List Input} (h : s.inputs = inp :: rest) (hr : s.rst = true) :
    step s = inputInReset inp (resetBlock { s with inputs := rest }) := by simp [step, h, takeInput, hr]

end Sys2Proof.Machine
end

