-- ==== Sys2Proof/Laws/EncodeRun.lean ====
section
/-! SUPPORT. The state of ENCODE's walk at every slot, said once: one engine step goes from one slot to the next. -/

namespace Sys2Proof.Machine

/-! ### the addresses of slots -/

theorem slotAddr_slotOf (s : State) (k : Nat) (c : Channel) :
    s.slotAddr (slotOf k c) = s.image.addr (walkX s.h k) (walkY s.h k) c := by
  simp [State.slotAddr]

/-- Slots of pixels that the image has lie at different addresses. -/
theorem slotAddr_inj {s : State} {a b : Nat} (ha : s.hasPixel (a / 3)) (hb : s.hasPixel (b / 3))
    (h : s.slotAddr a = s.slotAddr b) : a = b := by
  simp only [State.hasPixel, Image.has, Bool.and_eq_true, decide_eq_true_eq] at ha hb
  obtain ⟨hx, hy, hc⟩ := Image.addr_inj ha.2 hb.2 h
  have hk := walk_inj hx hy
  have : a % 3 = b % 3 := by rw [← chanOfSlot_idx, ← chanOfSlot_idx, hc]
  omega

theorem hasPixel_of_fitsImage {s : State} (h : s.fitsImage) {k : Nat} (hk : k < s.n) : s.hasPixel k := by
  have hh : 0 < s.h := by
    apply Nat.pos_of_ne_zero; intro e; simp [State.n, e] at hk
  have hx : walkX s.h k < s.w := walkX_lt hk
  have hy := walkY_lt hh k
  simp only [State.hasPixel, Image.has, Bool.and_eq_true, decide_eq_true_eq]
  exact ⟨Nat.lt_of_lt_of_le hx h.1, Nat.lt_of_lt_of_le hy h.2⟩

theorem Channel.next_idx {c : Channel} (h : c ≠ .b) : c.next.idx = c.idx + 1 := by
  cases c <;> first | rfl | exact absurd rfl h

/-! ### the checks -/

theorem encodeCheck_none {s : State} (h : encodeCheck s = .none) :
    0 < s.w ∧ 0 < s.h ∧ s.mode ≤ 1 ∧ nameTooLong s = false ∧ s.len ≤ s.params.pbufBytes ∧ s.streamLen < 2 ^ 32 := by
  unfold encodeCheck at h
  split at h; · cases h
  split at h; · cases h
  split at h; · cases h
  split at h; · cases h
  split at h; · cases h
  simp_all
  omega

/-! ### the image during the walk -/

/-- Slot `n` takes a stream bit. -/
def encOn (s : State) (n : Nat) : Bool :=
  decide (streamIndexAt s.mode n < s.streamLen) && writeE (streamIndexAt s.mode n) s.mode (n / 3)

/-- What slot `n` holds once ENCODE has processed it. -/
def encByte (s : State) (n : Nat) : Byte :=
  lane (s.slot n) (encOn s n) (streamBit s (streamIndexAt s.mode n))

/-- The image `img` is that of `s` with the slots below `m` processed. -/
structure EncImg (s : State) (img : Image) (m : Nat) : Prop where
  width : img.width = s.image.width
  height : img.height = s.image.height
  done : ∀ n < m, img.byteAt (s.slotAddr n) = encByte s n
  keep : ∀ a, (∀ n < m, s.slotAddr n ≠ a) → img.byteAt a = s.image.byteAt a

/-- ENCODE, started in `s` with the header stored, stands before slot `n`. -/
structure EncAt (s u : State) (n : Nat) : Prop where
  frame : u = { s with image := u.image, eng := u.eng }
  phase : u.eng.phase = .encWalk
  cmd : u.eng.cmd = s.eng.cmd
  cursor : n = slotOf u.eng.k u.eng.c
  index : u.eng.i = streamIndexAt s.mode n
  more : u.eng.i < s.streamLen
  img : EncImg s u.image (3 * u.eng.k)
  latch : u.eng.c ≠ .r → ∀ c, u.eng.latch.get c =
    if c.idx < u.eng.c.idx then encByte s (slotOf u.eng.k c) else s.slot (slotOf u.eng.k c)

/-- ENCODE, started in `s` with the header stored, has written back pixel `k`, the last one. -/
structure EncDone (s u : State) (k : Nat) : Prop where
  frame : u = { s with image := u.image, eng := u.eng }
  phase : u.eng.phase = .finish
  cmd : u.eng.cmd = s.eng.cmd
  result : u.eng.result = .none
  img : EncImg s u.image (3 * (k + 1))

/-- Writing back pixel `k` extends the processed part. -/
theorem EncImg.write {s : State} {img : Image} {k : Nat} (h : EncImg s img (3 * k)) (hp : ∀ j ≤ k, s.hasPixel j)
    (p : Pixel) (hpix : ∀ c, p.get c = encByte s (slotOf k c)) :
    EncImg s (img.setPixel (walkX s.h k) (walkY s.h k) p) (3 * (k + 1)) := by
  have hh := h.height
  have ha : ∀ c, img.addr (walkX s.h k) (walkY s.h k) c = s.slotAddr (slotOf k c) := by
    intro c; rw [slotAddr_slotOf]; simp [Image.addr, hh]
  have hpk : ∀ c, s.hasPixel (slotOf k c / 3) := fun c => by rw [slotOf_div]; exact hp k (Nat.le_refl _)
  refine ⟨h.width, h.height, ?_, ?_⟩
  · intro n hn
    rw [Image.setPixel_byteAt, ha, ha, ha]
    by_cases hk : n / 3 = k
    · have : n = slotOf k (chanOfSlot n) := by rw [← hk, slotOf_chanOfSlot]
      rw [this]
      cases hc : chanOfSlot n
      · rw [if_pos rfl]; exact hpix .r
      · rw [if_neg, if_pos rfl]; exact hpix .g
        intro e
        have := slotAddr_inj (hpk _) (hpk _) e
        simp [slotOf, Channel.idx] at this
      · rw [if_neg, if_neg, if_pos rfl]; exact hpix .b
        all_goals
          intro e
          have := slotAddr_inj (hpk _) (hpk _) e
          simp [slotOf, Channel.idx] at this
    · have key : ∀ c, s.slotAddr n ≠ s.slotAddr (slotOf k c) := by
        intro c e
        have := slotAddr_inj (hp _ (by omega)) (hpk _) e
        apply hk; rw [this, slotOf_div]
      rw [if_neg (key _), if_neg (key _), if_neg (key _)]
      exact h.done n (by omega)
  · intro a hne
    have hlt : ∀ c, slotOf k c < 3 * (k + 1) := by intro c; have := c.idx_lt; simp only [slotOf]; omega
    rw [Image.setPixel_byteAt, ha, ha, ha]
    rw [if_neg (fun e => hne _ (hlt _) e.symm), if_neg (fun e => hne _ (hlt _) e.symm),
      if_neg (fun e => hne _ (hlt _) e.symm)]
    exact h.keep a (fun n hn => hne n (by omega))

/-- The pixel in the latch when ENCODE processes slot `n`. -/
theorem enc_latch {s u : State} {n : Nat} (h : EncAt s u n) (hp : ∀ j ≤ n / 3, s.hasPixel j) :
    ∃ p, latchPixel u = some p ∧ ∀ c, p.get c =
      if c.idx < u.eng.c.idx then encByte s (slotOf u.eng.k c) else s.slot (slotOf u.eng.k c) := by
  obtain ⟨hf, _, _, hcur, _, _, himg, hlatch⟩ := h
  have hk : n / 3 = u.eng.k := by rw [hcur, slotOf_div]
  have hsh : u.h = s.h := by rw [hf]; rfl
  have hpk : s.hasPixel u.eng.k := hp _ (by omega)
  by_cases hc : u.eng.c = .r
  · refine ⟨u.image.pixel (walkX u.h u.eng.k) (walkY u.h u.eng.k), ?_, ?_⟩
    · rw [latchPixel_of_r hc]
      refine pixRead_eq_some.mpr ⟨?_, rfl⟩
      have := hpk
      simp only [State.hasPixel, Image.has] at this ⊢
      rw [himg.width, himg.height, show u.regs.height.toNat = s.h from hsh]
      exact this
    · intro c
      rw [hc, if_neg (by simp [Channel.idx]), Image.pixel_get]
      show u.image.byteAt (u.image.addr (walkX u.h u.eng.k) (walkY u.h u.eng.k) c) = _
      have ha : u.image.addr (walkX u.h u.eng.k) (walkY u.h u.eng.k) c = s.slotAddr (slotOf u.eng.k c) := by
        rw [slotAddr_slotOf, hsh]; simp [Image.addr, himg.height]
      rw [ha, himg.keep]
      · rfl
      · intro m hm e
        have := slotAddr_inj (hp _ (by omega)) (by rw [slotOf_div]; exact hpk) e
        simp only [slotOf] at *
        omega
  · exact ⟨u.eng.latch, latchPixel_of_ne_r hc, hlatch hc⟩

/-- One engine step of the walk: on to the next slot, or the end of the stream and the walk. -/
theorem enc_step {s u : State} {n : Nat} (hE : s.regs.encEnd.toNat = s.streamLen) (h : EncAt s u n)
    (hp : ∀ j ≤ n / 3, s.hasPixel j) :
    ∃ t, engineStep u = .next t ∧
      ((streamIndexAt s.mode (n + 1) ≠ s.streamLen ∧ EncAt s t (n + 1)) ∨
       (streamIndexAt s.mode (n + 1) = s.streamLen ∧ EncDone s t (n / 3))) := by
  obtain ⟨p, hl, hpget⟩ := enc_latch h hp
  obtain ⟨hf, hph, hcmd, hcur, hi, hlt, himg, _⟩ := h
  rw [show engineStep u = encWalkStep u by rw [engineStep, hph]]
  have hk : n / 3 = u.eng.k := by rw [hcur, slotOf_div]
  have hregs : u.regs = s.regs := by rw [hf]
  have hmode : u.mode = s.mode := by rw [hf]; rfl
  have hsh : u.h = s.h := by rw [hf]; rfl
  have hpk : s.hasPixel u.eng.k := hp _ (by omega)
  have hbit : ∀ i, streamBit u i = streamBit s i := fun i => by rw [hf]; rfl
  have hi' : (encSlot u p).i = streamIndexAt s.mode (n + 1) := by
    rw [encSlot_i, streamIndexAt_succ, ← hi, hmode, hk]
  have hon : encOn s n = writeE u.eng.i u.mode u.eng.k := by
    simp only [encOn, ← hi, hk, hmode, hlt, decide_true, Bool.true_and]
  have hlat : ∀ c, (encSlot u p).latch.get c =
      if c.idx < u.eng.c.idx + 1 then encByte s (slotOf u.eng.k c) else s.slot (slotOf u.eng.k c) := by
    intro c
    rw [encSlot_latch]
    by_cases hc : u.eng.c = c
    · subst hc
      rw [Pixel.get_set_same, hpget, if_neg (Nat.lt_irrefl _), if_pos (Nat.lt_succ_self _), ← hcur, encByte, hon, ← hi,
        hbit]
    · rw [Pixel.get_set_other _ _ hc, hpget]
      have : c.idx ≠ u.eng.c.idx := fun e => hc (Channel.idx_inj e.symm)
      by_cases h1 : c.idx < u.eng.c.idx
      · rw [if_pos h1, if_pos (by omega)]
      · rw [if_neg h1, if_neg (by omega)]
  have hend : u.regs.encEnd.toNat = s.streamLen := by rw [hregs, hE]
  have hle : (encSlot u p).i ≤ s.streamLen := by
    rw [encSlot_i]; have := Bool.toNat_le (writeE u.eng.i u.mode u.eng.k); omega
  rcases encWalkStep_cases u with ⟨hn, _⟩ | ⟨q, hq, hx⟩
  · rw [hl] at hn; cases hn
  obtain rfl : p = q := by rw [hl] at hq; exact Option.some.inj hq
  rcases hx with ⟨hcb, hne, hx⟩ | ⟨_, hhas, hx⟩ | ⟨hor, hhas, hx⟩
  · refine ⟨_, hx, .inl ⟨by rw [← hi', ← hend]; exact hne, ?_⟩⟩
    have hadv : (encSlot u p).advance = { encSlot u p with c := u.eng.c.next } := by
      rw [Engine.advance_of_ne_b (by simpa using hcb)]; simp
    refine ⟨by rw [hf]; rfl, by simp [hph], by simp [hcmd], ?_, ?_, ?_, ?_, ?_⟩
    · simp only [State.withEng_eng, Engine.advance_slot, encSlot_k, encSlot_c]; rw [← hcur]
    · simp only [State.withEng_eng, Engine.advance_i]; exact hi'
    · simp only [State.withEng_eng, Engine.advance_i]
      rw [hend] at hne; omega
    · simp only [State.withEng_eng, State.withEng_image, hadv, encSlot_k]; exact himg
    · intro _ c
      simp only [State.withEng_eng, hadv, encSlot_k, Channel.next_idx hcb]
      exact hlat c
  · exfalso
    have := hpk
    simp only [State.hasPixel, Image.has] at this hhas
    rw [hsh, himg.width, himg.height] at hhas
    rw [hhas] at this; cases this
  · have hpix : ∀ c, (encSlot u p).latch.get c = encByte s (slotOf u.eng.k c) := by
      intro c
      rw [hlat]
      by_cases h1 : c.idx < u.eng.c.idx + 1
      · rw [if_pos h1]
      · rw [if_neg h1]
        have hnb : u.eng.c ≠ .b := by
          intro e; have := c.idx_lt; rw [e] at h1; exact h1 (by show c.idx < 3; omega)
        have hE' : (encSlot u p).i = u.regs.encEnd.toNat := hor.resolve_left hnb
        have hoff : encOn s (slotOf u.eng.k c) = false := by
          have : streamIndexAt s.mode (n + 1) ≤ streamIndexAt s.mode (slotOf u.eng.k c) := by
            apply streamIndexAt_mono; rw [hcur]; simp only [slotOf]; omega
          simp only [encOn, Bool.and_eq_false_iff, decide_eq_false_iff_not]
          left; rw [← hi', hE', hend] at this; omega
        rw [encByte, hoff]; rfl
    have himg' := himg.write (fun j hj => hp j (by omega)) (encSlot u p).latch hpix
    rw [hsh] at hx
    by_cases hE' : (encSlot u p).i = u.regs.encEnd.toNat
    · simp only [hE', if_true] at hx
      refine ⟨_, hx, .inr ⟨by rw [← hi', hE', hend], ⟨by rw [hf]; rfl, rfl, ?_, rfl, by rw [hk]; exact himg'⟩⟩⟩
      show (encSlot u p).cmd = _
      rw [encSlot_cmd, hcmd]
    · simp only [hE', if_false] at hx
      have hcb : u.eng.c = .b := hor.resolve_right hE'
      refine ⟨_, hx, .inl ⟨by rw [← hi', ← hend]; exact hE', ?_⟩⟩
      refine ⟨by rw [hf], by simpa using hph, by simpa using hcmd, ?_, hi', ?_, himg', fun e => absurd rfl e⟩
      · show n + 1 = slotOf (u.eng.k + 1) .r
        rw [hcur, hcb]; simp only [slotOf, Channel.idx]; omega
      · show (encSlot u p).i < _
        rw [hend] at hE'; omega

/-- Where the pixel of the cursor is missing, the walk is refused at the pixel's channel R. -/
theorem enc_refused {s u : State} {k : Nat} (h : EncAt s u (3 * k)) (hp : ¬ s.hasPixel k) :
    engineStep u = .refused .pixelOutsideImage := by
  obtain ⟨hf, hph, _, hcur, _, _, himg, _⟩ := h
  have hc : u.eng.c = .r := by
    have h0 : slotOf u.eng.k u.eng.c % 3 = 0 := by rw [← hcur]; omega
    rw [slotOf_mod] at h0
    exact Channel.idx_inj h0
  have hk : u.eng.k = k := by rw [hc] at hcur; simp only [slotOf, Channel.idx] at hcur; omega
  have hsh : u.h = s.h := by rw [hf]; rfl
  have hl : latchPixel u = none := by
    rw [latchPixel_of_r hc, pixRead, if_neg]
    intro hh
    apply hp
    simp only [State.hasPixel, Image.has] at hh ⊢
    rw [himg.width, himg.height, show u.regs.height.toNat = s.h from hsh, hk] at hh
    exact hh
  rw [show engineStep u = encWalkStep u by rw [engineStep, hph]]
  rcases encWalkStep_cases u with ⟨_, hx⟩ | ⟨q, hq, _⟩
  · exact hx
  · rw [hl] at hq; cases hq

/-! ### the whole walk -/

/-- The carry count reaches the stream's length exactly after the last slot. -/
theorem streamIndexAt_lastSlot {s : State} (hm : s.mode ≤ 1) {n : Nat} (hn : n ≤ s.lastSlot) :
    streamIndexAt s.mode (n + 1) = s.streamLen ↔ n = s.lastSlot := by
  have hpos : 580 ≤ s.streamLen := by unfold State.streamLen; omega
  have h := streamIndexAt_sigma hm (s.streamLen - 1)
  have h1 : streamIndexAt s.mode (s.lastSlot + 1) = s.streamLen := by
    rw [State.lastSlot, streamIndexAt_succ, h.1, h.2, Bool.toNat_true]; omega
  constructor
  · intro e
    apply Nat.le_antisymm hn
    apply Nat.le_of_not_lt
    intro hlt
    have hmono := streamIndexAt_mono s.mode (show n + 1 ≤ s.lastSlot by omega)
    rw [e, show streamIndexAt s.mode s.lastSlot = s.streamLen - 1 from h.1] at hmono
    omega
  · rintro rfl; exact h1

theorem streamIndexAt_lt_of_le_lastSlot {s : State} (hm : s.mode ≤ 1) {n : Nat} (hn : n ≤ s.lastSlot) :
    streamIndexAt s.mode n < s.streamLen := by
  have hpos : 580 ≤ s.streamLen := by unfold State.streamLen; omega
  have hmono := streamIndexAt_mono s.mode hn
  rw [show streamIndexAt s.mode s.lastSlot = s.streamLen - 1 from (streamIndexAt_sigma hm _).1] at hmono
  omega

/-- The last slot lies in the image that holds the stream. -/
theorem lastSlot_lt {s : State} (hm : s.mode ≤ 1) (hn : 580 ≤ 3 * s.n)
    (hf : 8 * s.len ≤ payloadCapacity s.mode s.n) : s.lastSlot < 3 * s.n := by
  have := (fits_iff_streamIndexAt hn).mp hf
  exact sigma_lt_of_le hm (by unfold State.streamLen; omega)

/-- `n` slots into the walk. -/
theorem enc_run {s u : State} (hE : s.regs.encEnd.toNat = s.streamLen) (hm : s.mode ≤ 1) (h : EncAt s u 0) (n : Nat)
    (hn : n ≤ s.lastSlot) (hp : ∀ j, 3 * j < n → s.hasPixel j) :
    ∃ t, runEngine n u = .next t ∧ EncAt s t n := by
  induction n with
  | zero => exact ⟨u, rfl, h⟩
  | succ n ih =>
    obtain ⟨t, ht, hat⟩ := ih (by omega) (fun j hj => hp j (by omega))
    obtain ⟨v, hv, hc⟩ := enc_step hE hat (fun j hj => hp j (by omega))
    rcases hc with ⟨_, hc⟩ | ⟨hc, _⟩
    · refine ⟨v, ?_, hc⟩
      rw [runEngine_add_next ht, runEngine_succ_next (by rw [hat.phase]; decide) hv]; rfl
    · have := (streamIndexAt_lastSlot hm (show n ≤ s.lastSlot by omega)).mp hc
      omega

/-- The whole walk. -/
theorem enc_run_all {s u : State} (hE : s.regs.encEnd.toNat = s.streamLen) (hm : s.mode ≤ 1) (h : EncAt s u 0)
    (hp : ∀ j, j ≤ s.lastSlot / 3 → s.hasPixel j) :
    ∃ t, runEngine (s.lastSlot + 1) u = .next t ∧ EncDone s t (s.lastSlot / 3) := by
  obtain ⟨t, ht, hat⟩ := enc_run hE hm h s.lastSlot (Nat.le_refl _) (fun j hj => hp j (by omega))
  obtain ⟨v, hv, hc⟩ := enc_step hE hat hp
  rcases hc with ⟨hc, _⟩ | ⟨_, hc⟩
  · exact absurd ((streamIndexAt_lastSlot hm (Nat.le_refl _)).mpr rfl) hc
  · refine ⟨v, ?_, hc⟩
    rw [runEngine_add_next ht, runEngine_succ_next (by rw [hat.phase]; decide) hv]; rfl

/-- An accepted ENCODE whose checks pass stands before slot 0 after its start. -/
theorem enc_start {s : State} (hc : encodeCheck s = .none) (hn : 580 ≤ 3 * s.n)
    (hf : 8 * s.len ≤ payloadCapacity s.mode s.n) :
    ∃ u, engineStep (accept 0x00000001#32 s) = .next u ∧ EncAt (storeHeader (accept 0x00000001#32 s)) u 0 := by
  refine ⟨enterEncWalk (storeHeader (beginEncode (accept 0x00000001#32 s))), ?_, ?_⟩
  · rw [engineStep_accept, startWord_of_decode (show decode 0x00000001#32 = .ok .encode by decide)]
    show Host.Outcome.next (startEncode (accept 0x00000001#32 s)) = _
    have h1 : encodeCheck (accept 0x00000001#32 s) = .none := hc
    have h2 : streamFits (accept 0x00000001#32 s) = true := by
      simp only [streamFits, Bool.and_eq_true, decide_eq_true_eq]; exact ⟨hn, hf⟩
    rw [startEncode, if_pos h1, if_pos h2]
  · refine ⟨rfl, rfl, rfl, rfl, ?_, ?_, ?_, fun e => absurd rfl e⟩
    · show 0 = streamIndexAt s.mode 0
      rw [streamIndexAt_lt (by omega)]
    · show 0 < s.streamLen
      unfold State.streamLen; omega
    · refine ⟨rfl, rfl, ?_, fun a _ => rfl⟩
      intro n hn
      exact absurd hn (Nat.not_lt_zero n)

end Sys2Proof.Machine
end

