-- ==== Sys2Proof/Laws/Header.lean ====
section
/-! SUPPORT. The header builder's lengths and the parser's writes. -/

namespace Sys2Proof.Machine

/-! ### the builder -/

@[simp] theorem nameBytes_length (s : State) : (nameBytes s).length = s.regs.cfg.nameLen.toNat := by simp [nameBytes]

theorem nameTooLong_false {s : State} :
    nameTooLong s = false ↔ (s.regs.cfg.isFile = true → s.regs.cfg.nameLen.toNat ≤ 64) := by
  cases h : s.regs.cfg.isFile <;> simp [nameTooLong, h, nameMax]

theorem nameBitsRaw_length_le {isFile : Bool} {name : List Byte} (h : isFile = true → name.length ≤ 64) :
    (nameBitsRaw isFile name).length ≤ 512 := by
  cases isFile with
  | false => simp [nameBitsRaw]
  | true => simp [nameBitsRaw]; have := h rfl; omega

theorem padName_length (pad : NamePad) {nb : List Bool} (h : nb.length ≤ 512) : (padName pad nb).length = 512 := by
  cases pad <;> simp [padName, nameFieldBits] <;> omega

/-- Every built header has 580 bits (41_header.md R147). -/
theorem headerBits_length (p : Params) (isFile : Bool) (mode : BitVec 3) {name : List Byte} (len : Nat)
    (h : isFile = true → name.length ≤ 64) : (headerBits p isFile mode name len).length = 580 := by
  simp [headerBits, padName_length p.namePad (nameBitsRaw_length_le h), modeFieldBits, startFieldBits, endFieldBits]

theorem builtHeader_length {s : State} (h : nameTooLong s = false) : (builtHeader s).length = 580 :=
  headerBits_length _ _ _ _ (by rw [nameBytes_length]; exact nameTooLong_false.mp h)

theorem hdrBit_hdrOfBits_getElem {bits : List Bool} (h : bits.length = 580) {n : Nat} (hn : n < 580) :
    bits[n]? = some (hdrBit (hdrOfBits bits) n) := by
  rw [hdrBit_hdrOfBits h, List.getD_eq_getElem?_getD, List.getElem?_eq_getElem (by omega)]; rfl

/-! ### the parser -/

/-- What NBUF's listed bytes are after parsing (41_header.md R149). -/
theorem parsedName_read? (h : HdrBits) (m : Memory) (a : Nat) :
    Memory.read? (parsedName h m) a = if a < 64 then some (nameFieldByte h a) else Memory.read? m a := by
  have key : ∀ n, Memory.read? ((List.range n).foldl (fun m j => m.write j (nameFieldByte h j)) m) a =
      if a < n then some (nameFieldByte h a) else Memory.read? m a := by
    intro n
    induction n with
    | zero => simp
    | succ n ih =>
      rw [List.range_succ, List.foldl_append, List.foldl_cons, List.foldl_nil]
      by_cases e : a = n
      · subst e; rw [Memory.read?_write_same, if_pos (by omega)]
      · rw [Memory.read?_write_other _ _ (Ne.symm e), ih]
        by_cases hlt : a < n
        · rw [if_pos hlt, if_pos (by omega)]
        · rw [if_neg hlt, if_neg (by omega)]
  unfold parsedName
  exact key 64

/-- NBUF keeps its canonical form and stays inside its 64 bytes. -/
theorem parsedName_wf (h : HdrBits) (m : Memory) (hm : m.wf = true) (hb : Memory.below 64 m = true) :
    (parsedName h m).wf = true ∧ Memory.below 64 (parsedName h m) = true := by
  have key : ∀ l : List Nat, (∀ j ∈ l, j < 64) → ∀ m : Memory, m.wf = true → Memory.below 64 m = true →
      (l.foldl (fun m j => m.write j (nameFieldByte h j)) m).wf = true ∧
        Memory.below 64 (l.foldl (fun m j => m.write j (nameFieldByte h j)) m) = true := by
    intro l
    induction l with
    | nil => intro _ m h1 h2; exact ⟨h1, h2⟩
    | cons a l ih =>
      intro hl m h1 h2
      exact ih (fun j hj => hl j (List.mem_cons_of_mem _ hj)) _ (Memory.wf_write h1 _ _)
        (Memory.below_write _ h2 (hl a (List.mem_cons_self)))
  unfold parsedName
  exact key _ (fun j hj => by simpa using hj) m hm hb

theorem nbufRead_parseHeader (s : State) (j : Nat) :
    nbufRead (parseHeader s) j = if j < 64 then nameFieldByte s.hdr j else nbufRead s j := by
  simp only [nbufRead, parseHeader_nbuf, parseHeader_ramEpoch, parsedName_read?]
  split <;> rfl

end Sys2Proof.Machine
end

