-- ==== Sys2Proof/Laws/DecodeRun.lean ====
section
/-! SUPPORT. The state of DECODE's walk at every slot of both phases, said once: one engine step goes from one slot to
the next. -/

namespace Sys2Proof.Machine

/-! ### the checks -/

theorem decodeCheck_none {s : State} (h : decodeCheck s = .none) :
    s.regs.pHdr.pMode.toNat ≤ 1 ∧
    available s.params.decEndRule s.regs.pHdr.pMode.toNat s.regs.encEnd.toNat s.n = true ∧
    payloadBits s.params.decEndRule s.regs.pHdr.pMode.toNat s.regs.encEnd.toNat % 8 = 0 ∧
    payloadBits s.params.decEndRule s.regs.pHdr.pMode.toNat s.regs.encEnd.toNat / 8 ≤ s.params.pbufBytes := by
  unfold decodeCheck at h
  simp only at h
  split at h; · cases h
  split at h; · cases h
  split at h; · cases h
  split at h; · cases h
  simp_all

theorem payloadBits_dataBits (m e : Nat) : payloadBits .dataBits m e = e - 580 := rfl

theorem payloadBits_slots (m e : Nat) : payloadBits .slots m e = eligibleCount m 580 (max 580 e) := rfl

/-- What the availability check ensures (44_decoder.md R216): the payload's bits have eligible slots in the image. -/
theorem payloadBits_le_capacity {rule : DecEndRule} {m e n : Nat} (h : available rule m e n = true) (hn : 580 ≤ 3 * n) :
    payloadBits rule m e ≤ payloadCapacity m n := by
  cases rule with
  | dataBits =>
    unfold available at h
    unfold payloadBits
    dsimp only at h ⊢
    generalize e - 580 = x at h ⊢
    exact of_decide_eq_true h
  | slots =>
    simp only [available, decide_eq_true_eq] at h
    have hle : max 580 e ≤ 3 * n := Nat.max_le.mpr ⟨hn, h⟩
    exact eligibleCount_mono m 580 hle

/-! ### the pixel in the latch -/

/-- The pixel of slot `n` while the image of `s` is read and not written. -/
theorem dec_latch {s u : State} {n : Nat} (hi : u.image = s.image) (hr : u.regs.height = s.regs.height)
    (hc : n = slotOf u.eng.k u.eng.c) (hp : s.hasPixel (n / 3))
    (hl : u.eng.c ≠ .r → u.eng.latch = s.image.pixel (walkX s.h (n / 3)) (walkY s.h (n / 3))) :
    latchPixel u = some (s.image.pixel (walkX s.h (n / 3)) (walkY s.h (n / 3))) := by
  have hk : n / 3 = u.eng.k := by rw [hc, slotOf_div]
  by_cases h : u.eng.c = .r
  · rw [latchPixel_of_r h, hr, ← hk]
    exact pixRead_eq_some.mpr ⟨by rw [hi]; exact hp, by rw [hi]; rfl⟩
  · rw [latchPixel_of_ne_r h, hl h]

theorem dec_latch_none {s u : State} {k : Nat} (hi : u.image = s.image) (hr : u.regs.height = s.regs.height)
    (hc : 3 * k = slotOf u.eng.k u.eng.c) (hp : ¬ s.hasPixel k) : latchPixel u = none := by
  have hcr : u.eng.c = .r := by
    have h0 : slotOf u.eng.k u.eng.c % 3 = 0 := by rw [← hc]; omega
    rw [slotOf_mod] at h0
    exact Channel.idx_inj h0
  have hk : u.eng.k = k := by rw [hcr] at hc; simp only [slotOf, Channel.idx] at hc; omega
  rw [latchPixel_of_r hcr, hr, hk, pixRead, if_neg]
  rw [hi]; exact hp

theorem slot_eq_get (s : State) (n : Nat) :
    s.slot n = (s.image.pixel (walkX s.h (n / 3)) (walkY s.h (n / 3))).get (chanOfSlot n) := by
  rw [Image.pixel_get]; rfl

/-- The latch holds the pixel of the next slot unless that slot starts a new pixel. -/
theorem latch_advance {e : Engine} {p : Pixel} {img : Image} {h n : Nat} (hc : n = slotOf e.k e.c) (hl : e.latch = p)
    (hp : p = img.pixel (walkX h (n / 3)) (walkY h (n / 3))) :
    e.advance.c ≠ .r → e.advance.latch = img.pixel (walkX h ((n + 1) / 3)) (walkY h ((n + 1) / 3)) := by
  intro hr
  have hb : e.c ≠ .b := by intro h; rw [Engine.advance_of_b h] at hr; exact hr rfl
  have hd : (n + 1) / 3 = n / 3 := by
    have hnext := Channel.next_idx hb
    have hlt := e.c.next.idx_lt
    have hm : n % 3 = e.c.idx := by rw [hc, slotOf_mod]
    omega
  rw [hd, Engine.advance_latch, hl, hp]

/-! ### phase 1 -/

/-- DECODE, started in `s`, stands before slot `n` of the header. -/
structure HdrAt (s u : State) (n : Nat) : Prop where
  frame : u = { s with hdr := u.hdr, eng := u.eng }
  phase : u.eng.phase = .decHdr
  cmd : u.eng.cmd = s.eng.cmd
  cursor : n = slotOf u.eng.k u.eng.c
  slot : u.eng.s = n
  data : u.eng.d = n
  bits : ∀ m < n, hdrBit u.hdr m = lsbExtract (s.slot m)
  latch : u.eng.c ≠ .r → u.eng.latch = s.image.pixel (walkX s.h (n / 3)) (walkY s.h (n / 3))

/-- DECODE, started in `s`, has extracted the header and not parsed it yet. -/
structure HdrDone (s u : State) : Prop where
  frame : u = { s with hdr := s.imageHeader, eng := u.eng }
  cmd : u.eng.cmd = s.eng.cmd
  cursor : 580 = slotOf u.eng.k u.eng.c
  slot : u.eng.s = 580
  data : u.eng.d = 580
  latch : u.eng.c ≠ .r → u.eng.latch = s.image.pixel (walkX s.h 193) (walkY s.h 193)

theorem hdr_step {s u : State} {n : Nat} (h : HdrAt s u n) (hn : n < 580) (hp : s.hasPixel (n / 3)) :
    (n < 579 ∧ ∃ t, engineStep u = .next t ∧ HdrAt s t (n + 1)) ∨
    (n = 579 ∧ ∃ t, engineStep u = .next (parsePoint t) ∧ HdrDone s t) := by
  obtain ⟨hf, hph, hcmd, hcur, hs, hd, hbits, hlatch⟩ := h
  have hl := dec_latch (by rw [hf]) (by rw [hf]) hcur hp hlatch
  rw [show engineStep u = decHdrStep u by rw [engineStep, hph]]
  rcases decHdrStep_cases u with ⟨hx, _⟩ | ⟨p, hp', hx⟩
  · rw [hl] at hx; cases hx
  obtain rfl := (Option.some.inj (hl.symm.trans hp')).symm
  have hbit : lsbExtract ((s.image.pixel (walkX s.h (n / 3)) (walkY s.h (n / 3))).get u.eng.c) =
      lsbExtract (s.slot n) := by rw [slot_eq_get, hcur, chanOfSlot_slotOf]
  have hbits' : ∀ m < n + 1, hdrBit (hdrSetBit u.hdr u.eng.s (lsbExtract (s.slot n))) m = lsbExtract (s.slot m) := by
    intro m hm
    rw [hs, hdrBit_hdrSetBit _ _ hn]
    by_cases e : m = n
    · rw [if_pos e, e]
    · rw [if_neg e]; exact hbits m (by omega)
  rw [hbit] at hx
  by_cases hE : n = 579
  · right
    rw [if_pos (by rw [hs]; exact hE)] at hx
    refine ⟨hE, _, hx, ?_⟩
    refine ⟨?_, by simp [hcmd], ?_, by simp [hs, hE], by simp [hd, hE], ?_⟩
    · have hh : hdrSetBit u.hdr u.eng.s (lsbExtract (s.slot n)) = s.imageHeader := by
        apply HdrBits.ext_bit
        intro m hm
        rw [hbits' m (by omega), State.imageHeader, hdrBit, ofMsbFn_getMsbD]
        simp [hm]
      rw [hh, hf]
    · rw [Engine.advance_slot]; rw [← hcur, hE]
    · have := latch_advance (e := { u.eng with latch := s.image.pixel (walkX s.h (n / 3)) (walkY s.h (n / 3)), s := u.eng.s + 1, d := u.eng.d + 1 }) hcur rfl rfl
      rw [hE] at this ⊢
      exact this
  · left
    rw [if_neg (by rw [hs]; exact hE)] at hx
    refine ⟨by omega, _, hx, ?_⟩
    refine ⟨by rw [hf], by simp [hph], by simp [hcmd], ?_, by simp [hs], by simp [hd], hbits', ?_⟩
    · rw [Engine.advance_slot]; rw [← hcur]
    · exact latch_advance (e := { u.eng with latch := s.image.pixel (walkX s.h (n / 3)) (walkY s.h (n / 3)), s := u.eng.s + 1, d := u.eng.d + 1 }) hcur rfl rfl

theorem hdr_refused {s u : State} {k : Nat} (h : HdrAt s u (3 * k)) (hp : ¬ s.hasPixel k) :
    engineStep u = .refused .pixelOutsideImage := by
  obtain ⟨hf, hph, _, hcur, _, _, _, _⟩ := h
  have hl := dec_latch_none (by rw [hf]) (by rw [hf]) hcur hp
  rw [show engineStep u = decHdrStep u by rw [engineStep, hph]]
  rcases decHdrStep_cases u with ⟨_, hx⟩ | ⟨q, hq, _⟩
  · exact hx
  · rw [hl] at hq; cases hq

theorem hdr_run {s u : State} (h : HdrAt s u 0) (n : Nat) (hn : n ≤ 579) (hp : ∀ j, 3 * j < n → s.hasPixel j) :
    ∃ t, runEngine n u = .next t ∧ HdrAt s t n := by
  induction n with
  | zero => exact ⟨u, rfl, h⟩
  | succ n ih =>
    obtain ⟨t, ht, hat⟩ := ih (by omega) (fun j hj => hp j (by omega))
    rcases hdr_step hat (by omega) (hp _ (by omega)) with ⟨_, v, hv, hc⟩ | ⟨he, _⟩
    · refine ⟨v, ?_, hc⟩
      rw [runEngine_add_next ht, runEngine_succ_next (by rw [hat.phase]; decide) hv]; rfl
    · omega

theorem hdr_run_all {s u : State} (h : HdrAt s u 0) (hp : ∀ j, j ≤ 193 → s.hasPixel j) :
    ∃ t, runEngine 580 u = .next (parsePoint t) ∧ HdrDone s t := by
  obtain ⟨t, ht, hat⟩ := hdr_run h 579 (Nat.le_refl _) (fun j hj => hp j (by omega))
  rcases hdr_step hat (by omega) (hp _ (by omega)) with ⟨hlt, _⟩ | ⟨_, v, hv, hd⟩
  · omega
  · refine ⟨v, ?_, hd⟩
    rw [show 580 = 579 + 1 by omega, runEngine_add_next ht, runEngine_succ_next (by rw [hat.phase]; decide) hv]; rfl

/-! ### phase 2 -/

/-- The packer after the given bits. -/
def packed (s : State) (bits : List Bool) : State := bits.foldl (fun u b => packBit b u) (packerReset s)

/-- Two states whose packers stand alike. -/
structure SamePacker (u v : State) : Prop where
  pbuf : u.pbuf = v.pbuf
  acc : u.eng.acc = v.eng.acc
  nacc : u.eng.nacc = v.eng.nacc
  j : u.eng.j = v.eng.j

theorem SamePacker.packBit {u v : State} (h : SamePacker u v) (b : Bool) : SamePacker (packBit b u) (packBit b v) := by
  obtain ⟨h1, h2, h3, h4⟩ := h
  unfold Machine.packBit
  rw [h3]
  split
  · exact ⟨by simp [pbufWrite, h1, h2, h4], rfl, rfl, by simp [h4]⟩
  · exact ⟨h1, by simp [h2], rfl, h4⟩

/-- The first `n` payload bits that the image of `s` carries. -/
def imageBits (s : State) (n : Nat) : List Bool :=
  (List.range n).map (fun i => lsbExtract (s.slot (sigma s.regs.pHdr.pMode.toNat (580 + i))))

/-- DECODE, parsed into `s`, stands before slot `n` of the payload. -/
structure PayAt (s u : State) (n : Nat) : Prop where
  frame : u = { s with pbuf := u.pbuf, eng := u.eng }
  phase : u.eng.phase = .decPay
  cmd : u.eng.cmd = s.eng.cmd
  cursor : n = slotOf u.eng.k u.eng.c
  slot : u.eng.s = n
  pb : u.eng.pb = payloadBits s.params.decEndRule s.regs.pHdr.pMode.toNat s.regs.encEnd.toNat
  data : u.eng.d = streamIndexAt s.regs.pHdr.pMode.toNat n
  pack : SamePacker u (packed s (imageBits s (u.eng.d - 580)))
  latch : u.eng.c ≠ .r → u.eng.latch = s.image.pixel (walkX s.h (n / 3)) (walkY s.h (n / 3))

theorem imageBits_succ (s : State) (n : Nat) :
    imageBits s (n + 1) = imageBits s n ++ [lsbExtract (s.slot (sigma s.regs.pHdr.pMode.toNat (580 + n)))] := by
  simp [imageBits, List.range_succ]

theorem packed_concat (s : State) (bits : List Bool) (b : Bool) :
    packed s (bits ++ [b]) = packBit b (packed s bits) := by
  simp [packed, List.foldl_append]

theorem packBit_frame (b : Bool) (s : State) :
    packBit b s = { s with
      pbuf := (packBit b s).pbuf,
      eng := { s.eng with acc := (packBit b s).eng.acc, nacc := (packBit b s).eng.nacc, j := (packBit b s).eng.j } } := by
  unfold packBit
  split <;> rfl

theorem pay_step {s u : State} {n : Nat} (h : PayAt s u n) (hm : s.regs.pHdr.pMode.toNat ≤ 1) (hn : 580 ≤ n)
    (hd : u.eng.d ≠ 580 + u.eng.pb) (hp : s.hasPixel (n / 3)) :
    ∃ t, engineStep u = .next t ∧ PayAt s t (n + 1) := by
  obtain ⟨hf, hph, hcmd, hcur, hs, hpb, hdat, hpack, hlatch⟩ := h
  have hl := dec_latch (by rw [hf]) (by rw [hf]) hcur hp hlatch
  rw [show engineStep u = decPayStep u by rw [engineStep, hph]]
  have hk : n / 3 = u.eng.k := by rw [hcur, slotOf_div]
  have hmode : u.regs.pHdr = s.regs.pHdr := by rw [hf]
  have hge : 580 ≤ streamIndexAt s.regs.pHdr.pMode.toNat n := by
    apply Nat.le_of_not_lt; rw [streamIndexAt_lt_iff]; omega
  have hw : writeE (streamIndexAt s.regs.pHdr.pMode.toNat n) s.regs.pHdr.pMode.toNat (n / 3) =
      readD u.eng.s u.regs.pHdr.pMode.toNat u.eng.k := by
    simp [writeE, readD, Nat.not_lt.mpr hge, hs, hn, hk, hmode]
  have hsucc := streamIndexAt_succ s.regs.pHdr.pMode.toNat n
  rw [hw] at hsucc
  have hbit : lsbExtract ((s.image.pixel (walkX s.h (n / 3)) (walkY s.h (n / 3))).get u.eng.c) =
      lsbExtract (s.slot n) := by rw [slot_eq_get, hcur, chanOfSlot_slotOf]
  rcases decPayStep_cases u with ⟨he, _⟩ | ⟨_, hx, _⟩ | ⟨_, p, hp', hx⟩
  · exact absurd he hd
  · rw [hl] at hx; cases hx
  obtain rfl := (Option.some.inj (hl.symm.trans hp')).symm
  rw [hbit] at hx
  rcases hx with ⟨hr, hx⟩ | ⟨hr, hx⟩
  · refine ⟨_, hx, ?_⟩
    rw [hr, Bool.toNat_true] at hsucc
    have hσ : sigma s.regs.pHdr.pMode.toNat (580 + (u.eng.d - 580)) = n := by
      rw [show 580 + (u.eng.d - 580) = u.eng.d by rw [hdat]; omega, hdat]
      exact sigma_streamIndexAt hm (by rw [hw, hr])
    generalize hv : u.withEng
      { u.eng with
        latch := s.image.pixel (walkX s.h (n / 3)) (walkY s.h (n / 3)), s := u.eng.s + 1, d := u.eng.d + 1 } = v
    have hve : v.eng = { u.eng with
        latch := s.image.pixel (walkX s.h (n / 3)) (walkY s.h (n / 3)), s := u.eng.s + 1, d := u.eng.d + 1 } := by
      rw [← hv]; rfl
    have hvp : SamePacker v u := by rw [← hv]; exact ⟨rfl, rfl, rfl, rfl⟩
    have hq : SamePacker (packBit (lsbExtract (s.slot n)) v) (packed s (imageBits s (u.eng.d + 1 - 580))) := by
      rw [show u.eng.d + 1 - 580 = (u.eng.d - 580) + 1 by rw [hdat]; omega, imageBits_succ, packed_concat, hσ]
      exact SamePacker.packBit
        ⟨hvp.pbuf.trans hpack.pbuf, hvp.acc.trans hpack.acc, hvp.nacc.trans hpack.nacc, hvp.j.trans hpack.j⟩ _
    have hpf := packBit_frame (lsbExtract (s.slot n)) v
    generalize hw' : packBit (lsbExtract (s.slot n)) v = w at hpf hq
    have hwe : w.eng = { v.eng with acc := w.eng.acc, nacc := w.eng.nacc, j := w.eng.j } := by
      rw [hpf]
    have e1 : w.eng.phase = .decPay := by rw [hwe, hve]; exact hph
    have e2 : w.eng.cmd = s.eng.cmd := by rw [hwe, hve]; exact hcmd
    have e3 : w.eng.k = u.eng.k := by rw [hwe, hve]
    have e4 : w.eng.c = u.eng.c := by rw [hwe, hve]
    have e5 : w.eng.s = n + 1 := by rw [hwe, hve]; show u.eng.s + 1 = _; rw [hs]
    have e6 : w.eng.d = u.eng.d + 1 := by rw [hwe, hve]
    have e7 : w.eng.pb = u.eng.pb := by rw [hwe, hve]
    have e8 : w.eng.latch = s.image.pixel (walkX s.h (n / 3)) (walkY s.h (n / 3)) := by rw [hwe, hve]
    refine ⟨?_, by simpa using e1, by simpa using e2, ?_, by simpa using e5, ?_, ?_, ?_, ?_⟩
    · rw [hpf, ← hv, hf]; rfl
    · rw [State.withEng_eng, Engine.advance_slot, e3, e4, ← hcur]
    · rw [State.withEng_eng, Engine.advance_pb, e7, hpb]
    · rw [State.withEng_eng, Engine.advance_d, e6, hsucc, hdat]
    · rw [State.withEng_eng, Engine.advance_d, e6]
      exact ⟨hq.pbuf, (Engine.advance_acc _).trans hq.acc, (Engine.advance_nacc _).trans hq.nacc,
        (Engine.advance_j _).trans hq.j⟩
    · rw [State.withEng_eng]
      exact latch_advance (by rw [e3, e4]; exact hcur) e8 rfl
  · refine ⟨_, hx, ?_⟩
    rw [hr, Bool.toNat_false, Nat.add_zero] at hsucc
    refine ⟨by rw [hf]; rfl, by simpa using hph, by simpa using hcmd, ?_, by simp [hs], ?_, ?_, ?_, ?_⟩
    · rw [State.withEng_eng, Engine.advance_slot, ← hcur]
    · rw [State.withEng_eng, Engine.advance_pb]; exact hpb
    · rw [State.withEng_eng, Engine.advance_d, hsucc]; exact hdat
    · simp only [State.withEng_eng, Engine.advance_d]
      exact ⟨hpack.pbuf, (Engine.advance_acc _).trans hpack.acc, (Engine.advance_nacc _).trans hpack.nacc,
        (Engine.advance_j _).trans hpack.j⟩
    · rw [State.withEng_eng]
      exact latch_advance hcur rfl rfl

theorem pay_refused {s u : State} {k : Nat} (h : PayAt s u (3 * k)) (hd : u.eng.d ≠ 580 + u.eng.pb)
    (hp : ¬ s.hasPixel k) : engineStep u = .refused .pixelOutsideImage := by
  have hl := dec_latch_none (by rw [h.frame]) (by rw [h.frame]) h.cursor hp
  rw [show engineStep u = decPayStep u by rw [engineStep, h.phase]]
  rcases decPayStep_cases u with ⟨he, _⟩ | ⟨_, _, hx⟩ | ⟨_, q, hq, _⟩
  · exact absurd he hd
  · exact hx
  · rw [hl] at hq; cases hq

/-- Before the slot after the last payload bit, phase 2 has not ended; there it has. -/
theorem pay_end_iff {s u : State} {n : Nat} (h : PayAt s u n) (hm : s.regs.pHdr.pMode.toNat ≤ 1)
    (hn : n ≤ sigma s.regs.pHdr.pMode.toNat (579 + u.eng.pb) + 1) :
    u.eng.d = 580 + u.eng.pb ↔ n = sigma s.regs.pHdr.pMode.toNat (579 + u.eng.pb) + 1 := by
  have hσ := streamIndexAt_sigma hm (579 + u.eng.pb)
  rw [h.data]
  constructor
  · intro e
    apply Nat.le_antisymm hn
    apply Nat.le_of_not_lt
    intro hlt
    have := streamIndexAt_mono s.regs.pHdr.pMode.toNat
      (show n ≤ sigma s.regs.pHdr.pMode.toNat (579 + u.eng.pb) by omega)
    rw [hσ.1, e] at this
    omega
  · intro e
    rw [e, streamIndexAt_succ, hσ.1, hσ.2, Bool.toNat_true]
    omega

theorem pay_run {s u : State} (h : PayAt s u 580) (hm : s.regs.pHdr.pMode.toNat ≤ 1) (q : Nat)
    (hq : 580 + q ≤ sigma s.regs.pHdr.pMode.toNat (579 + u.eng.pb) + 1)
    (hp : ∀ j, 3 * j < 580 + q → s.hasPixel j) :
    ∃ t, runEngine q u = .next t ∧ PayAt s t (580 + q) := by
  induction q with
  | zero => exact ⟨u, rfl, h⟩
  | succ q ih =>
    obtain ⟨t, ht, hat⟩ := ih (by omega) (fun j hj => hp j (by omega))
    have hpb : t.eng.pb = u.eng.pb := by rw [hat.pb, h.pb]
    have hne : t.eng.d ≠ 580 + t.eng.pb := by
      rw [Ne, pay_end_iff hat hm (by rw [hpb]; omega), hpb]; omega
    obtain ⟨v, hv, hat'⟩ := pay_step hat hm (by omega) hne (hp _ (by omega))
    refine ⟨v, ?_, hat'⟩
    rw [runEngine_add_next ht, runEngine_succ_next (by rw [hat.phase]; decide) hv]; rfl

/-- The engine step that ends phase 2 (44_decoder.md R221). -/
theorem pay_finish {s u : State} {n : Nat} (h : PayAt s u n) (hd : u.eng.d = 580 + u.eng.pb) :
    engineStep u = .next (succeed { u with regs := { u.regs with outLen := BitVec.ofNat 32 (u.eng.pb / 8) } }) := by
  rw [show engineStep u = decPayStep u by rw [engineStep, h.phase]]
  rcases decPayStep_cases u with ⟨_, hx⟩ | ⟨he, _⟩ | ⟨he, _⟩
  · exact hx
  · exact absurd hd he
  · exact absurd hd he

/-! ### the start and the parse point -/

/-- An accepted DECODE that passes its first checks stands before slot 0 after its start. -/
theorem dec_start {s : State} (hw : 0 < s.w) (hh : 0 < s.h) (hn : 580 ≤ 3 * s.n) :
    ∃ u, engineStep (accept 0x00000002#32 s) = .next u ∧
      HdrAt { accept 0x00000002#32 s with regs := { (accept 0x00000002#32 s).regs with outLen := 0#32 } } u 0 := by
  refine ⟨startDecode (accept 0x00000002#32 s), ?_, ?_⟩
  · rw [engineStep_accept, startWord_of_decode (show decode 0x00000002#32 = .ok .decode by decide)]; rfl
  · have h1 : ¬ ((accept 0x00000002#32 s).w = 0 ∨ (accept 0x00000002#32 s).h = 0) := by
      show ¬ (s.w = 0 ∨ s.h = 0); omega
    have h2 : ¬ 3 * (accept 0x00000002#32 s).n < 580 := by show ¬ 3 * s.n < 580; omega
    rw [startDecode]
    simp only [if_neg h1, if_neg h2]
    exact ⟨rfl, rfl, rfl, rfl, rfl, rfl, fun m hm => absurd hm (Nat.not_lt_zero m), fun e => absurd rfl e⟩

/-- The parse point: a failed check raises its code, with the parsed header and the end value loaded. -/
theorem parsePoint_error {s : State} (h : decodeCheck (parseHeader s) ≠ .none) :
    parsePoint s = raiseError (decodeCheck (parseHeader s)) (loadEnd (parseHeader s)) :=
  if_neg (show ¬ decodeCheck (loadEnd (parseHeader s)) = .none from h)

/-- The parse point: with every check passed, phase 2 is entered with the packer clear. -/
theorem parsePoint_ok {s : State} (h : decodeCheck (parseHeader s) = .none) :
    parsePoint s =
      packerReset ((loadEnd (parseHeader s)).withEng { (loadEnd (parseHeader s)).eng with phase := .decPay }) :=
  if_pos (show decodeCheck (loadEnd (parseHeader s)) = .none from h)

/-- At the parse point a DECODE whose checks pass enters phase 2 at slot 580. -/
theorem parse_ok {s u : State} (h : HdrDone s u) (hc : decodeCheck (parseHeader u) = .none) :
    PayAt (parseHeader u) (parsePoint u) 580 := by
  have e : parsePoint u = packerReset ((parseHeader u).withEng
      { (parseHeader u).eng with
        phase := .decPay, encEnd := (parseHeader u).regs.encEnd.toNat,
        pb := payloadBits (parseHeader u).params.decEndRule (parseHeader u).regs.pHdr.pMode.toNat
          (parseHeader u).regs.encEnd.toNat }) := by
    rw [parsePoint_ok hc, loadEnd, if_neg (Nat.not_lt.mpr (decodeCheck_none hc).1)]; rfl
  rw [e]
  have h0 : streamIndexAt (parseHeader u).regs.pHdr.pMode.toNat 580 = 580 := by
    rw [streamIndexAt_ge (Nat.le_refl _), eligibleCount_self]
  refine ⟨rfl, rfl, rfl, h.cursor, h.slot, rfl, ?_, ?_, ?_⟩
  · rw [h0]; exact h.data
  · have hd : (packerReset ((parseHeader u).withEng
      { (parseHeader u).eng with
        phase := .decPay, encEnd := (parseHeader u).regs.encEnd.toNat,
        pb := payloadBits (parseHeader u).params.decEndRule (parseHeader u).regs.pHdr.pMode.toNat
          (parseHeader u).regs.encEnd.toNat })).eng.d = 580 := h.data
    rw [hd]
    exact ⟨rfl, rfl, rfl, rfl⟩
  · intro hr
    have hl := h.latch hr
    have hi : (parseHeader u).image = s.image := by rw [parseHeader_image, h.frame]
    have hh : (parseHeader u).h = s.h := by show u.h = s.h; rw [h.frame]; rfl
    rw [hi, hh]
    exact hl

end Sys2Proof.Machine
end

