-- ==== Sys2Proof/Laws/Frames.lean ====
section
/-! SUPPORT. What no engine step changes, when the engine becomes idle, and how it stops. -/

namespace Sys2Proof.Machine

/-- What no engine step changes: the inputs, the level of `rst`, the parameters, the configuration, IRQ_EN, ACCERR. -/
theorem engineStep_frame {s t : State} (h : engineStep s = .next t) :
    t.inputs = s.inputs ∧ t.rst = s.rst ∧ t.params = s.params ∧ t.regs.irqEn = s.regs.irqEn ∧
      t.regs.width = s.regs.width ∧ t.regs.height = s.regs.height ∧ t.regs.cfg = s.regs.cfg ∧ t.regs.payloadLen = s.regs.payloadLen ∧
      t.regs.status.accErr = s.regs.status.accErr ∧ t.ramEpoch = s.ramEpoch := by
  unfold engineStep at h
  split at h
  · cases h; exact ⟨rfl, rfl, rfl, rfl, rfl, rfl, rfl, rfl, rfl, rfl⟩
  · cases h
    unfold startWord
    split
    · rename_i i _
      cases i
      · exact ⟨rfl, rfl, rfl, rfl, rfl, rfl, rfl, rfl, rfl, rfl⟩
      · show _ ∧ _; unfold startCommand startEncode; dsimp only; split
        · split <;> exact ⟨rfl, rfl, rfl, rfl, rfl, rfl, rfl, rfl, rfl, rfl⟩
        · exact ⟨rfl, rfl, rfl, rfl, rfl, rfl, rfl, rfl, rfl, rfl⟩
      · show _ ∧ _; unfold startCommand startDecode; dsimp only; split
        · exact ⟨rfl, rfl, rfl, rfl, rfl, rfl, rfl, rfl, rfl, rfl⟩
        · split <;> exact ⟨rfl, rfl, rfl, rfl, rfl, rfl, rfl, rfl, rfl, rfl⟩
      · show _ ∧ _; unfold startCommand startHdrBuild; dsimp only; split <;> exact ⟨rfl, rfl, rfl, rfl, rfl, rfl, rfl, rfl, rfl, rfl⟩
      · exact ⟨rfl, rfl, rfl, rfl, rfl, rfl, rfl, rfl, rfl, rfl⟩
    · exact ⟨rfl, rfl, rfl, rfl, rfl, rfl, rfl, rfl, rfl, rfl⟩
  · rcases encWalkStep_cases s with ⟨_, hx⟩ | ⟨p, _, ⟨_, _, hx⟩ | ⟨_, _, hx⟩ | ⟨_, _, hx⟩⟩ <;>
    rw [hx] at h <;> cases h
    · exact ⟨rfl, rfl, rfl, rfl, rfl, rfl, rfl, rfl, rfl, rfl⟩
    · split <;> exact ⟨rfl, rfl, rfl, rfl, rfl, rfl, rfl, rfl, rfl, rfl⟩
  · rcases decHdrStep_cases s with ⟨_, hx⟩ | ⟨p, _, hx⟩ <;>
    rw [hx] at h <;> cases h
    split
    · unfold parsePoint; simp only; split <;> exact ⟨rfl, rfl, rfl, rfl, rfl, rfl, rfl, rfl, rfl, rfl⟩
    · exact ⟨rfl, rfl, rfl, rfl, rfl, rfl, rfl, rfl, rfl, rfl⟩
  · rcases decPayStep_cases s with ⟨_, hx⟩ | ⟨_, _, hx⟩ | ⟨_, p, _, ⟨_, hx⟩ | ⟨_, hx⟩⟩ <;>
    rw [hx] at h <;> cases h
    · exact ⟨rfl, rfl, rfl, rfl, rfl, rfl, rfl, rfl, rfl, rfl⟩
    · have hpf := packBit_frame (lsbExtract (p.get s.eng.c))
        (s.withEng { s.eng with latch := p, s := s.eng.s + 1, d := s.eng.d + 1 })
      generalize packBit (lsbExtract (p.get s.eng.c))
        (s.withEng { s.eng with latch := p, s := s.eng.s + 1, d := s.eng.d + 1 }) = w at hpf
      rw [hpf]; exact ⟨rfl, rfl, rfl, rfl, rfl, rfl, rfl, rfl, rfl, rfl⟩
    · exact ⟨rfl, rfl, rfl, rfl, rfl, rfl, rfl, rfl, rfl, rfl⟩
  · cases h; exact ⟨rfl, rfl, rfl, rfl, rfl, rfl, rfl, rfl, rfl, rfl⟩

/-- Only completion makes the engine idle (45_control.md R244). -/
theorem engineStep_not_idle {a b : State} (h : engineStep a = .next b) (hi : a.eng.phase ≠ .idle)
    (hf : a.eng.phase ≠ .finish) : b.eng.phase ≠ .idle := by
  unfold engineStep at h
  split at h
  · exact absurd ‹_› hi
  · cases h
    unfold startWord
    split
    · rename_i i _
      cases i
      · intro h; cases h
      · unfold startCommand startEncode; dsimp only; split
        · split <;> (intro h; cases h)
        · intro h; cases h
      · unfold startCommand startDecode; dsimp only; split
        · intro h; cases h
        · split <;> (intro h; cases h)
      · unfold startCommand startHdrBuild; dsimp only; split <;> (intro h; cases h)
      · intro h; cases h
    · intro h; cases h
  · rename_i hph
    rcases encWalkStep_cases a with ⟨_, hx⟩ | ⟨p, _, ⟨_, _, hx⟩ | ⟨_, _, hx⟩ | ⟨_, _, hx⟩⟩ <;>
    rw [hx] at h <;> cases h
    · have hp' : ((a.withEng (encSlot a p).advance)).eng.phase = .encWalk := by simp [hph]
      rw [hp']; decide
    · split
      · intro h; cases h
      · have hp' : ({ encSlot a p with k := a.eng.k + 1, pcPix := a.eng.pcPix + 1, c := .r } : Engine).phase = .encWalk := by simp [hph]
        intro h; exact absurd (hp'.symm.trans h) (by decide)
  · rename_i hph
    rcases decHdrStep_cases a with ⟨_, hx⟩ | ⟨p, _, hx⟩ <;>
    rw [hx] at h <;> cases h
    split
    · unfold parsePoint; simp only; split <;> (intro h; cases h)
    · have hp' : (Engine.advance { a.eng with latch := p, s := a.eng.s + 1, d := a.eng.d + 1 }).phase = .decHdr := by simp [hph]
      intro h; exact absurd (hp'.symm.trans h) (by decide)
  · rename_i hph
    rcases decPayStep_cases a with ⟨_, hx⟩ | ⟨_, _, hx⟩ | ⟨_, p, _, ⟨_, hx⟩ | ⟨_, hx⟩⟩ <;>
    rw [hx] at h <;> cases h
    · intro h; cases h
    · have hpf := packBit_frame (lsbExtract (p.get a.eng.c))
        (a.withEng { a.eng with latch := p, s := a.eng.s + 1, d := a.eng.d + 1 })
      generalize packBit (lsbExtract (p.get a.eng.c))
        (a.withEng { a.eng with latch := p, s := a.eng.s + 1, d := a.eng.d + 1 }) = w at hpf
      have e1 : w.eng.phase = .decPay := by rw [hpf]; exact hph
      have hp' : (w.withEng w.eng.advance).eng.phase = .decPay := by simp [e1]
      rw [hp']; decide
    · have hp' : (a.withEng (Engine.advance { a.eng with latch := p, s := a.eng.s + 1 })).eng.phase = .decPay := by simp [hph]
      rw [hp']; decide
  · exact absurd ‹_› hf

/-- The engine never faults. -/
theorem engineStep_ne_fault (s : State) (f : Fault) : engineStep s ≠ .fault f := by
  intro h
  unfold engineStep at h
  split at h
  · cases h
  · cases h
  · rcases encWalkStep_cases s with ⟨_, hx⟩ | ⟨p, _, ⟨_, _, hx⟩ | ⟨_, _, hx⟩ | ⟨_, _, hx⟩⟩ <;>
    rw [hx] at h <;> cases h
  · rcases decHdrStep_cases s with ⟨_, hx⟩ | ⟨p, _, hx⟩ <;>
    rw [hx] at h <;> cases h
  · rcases decPayStep_cases s with ⟨_, hx⟩ | ⟨_, _, hx⟩ | ⟨_, p, _, ⟨_, hx⟩ | ⟨_, hx⟩⟩ <;>
    rw [hx] at h <;> cases h
  · cases h

/-- The engine stops only at a pixel that the image does not have (log 9). -/
theorem engineStep_refused {s : State} {r : Refusal} (h : engineStep s = .refused r) :
    r = .pixelOutsideImage := by
  unfold engineStep at h
  split at h
  · cases h
  · cases h
  · rcases encWalkStep_cases s with ⟨_, hx⟩ | ⟨p, _, ⟨_, _, hx⟩ | ⟨_, _, hx⟩ | ⟨_, _, hx⟩⟩ <;>
    rw [hx] at h <;> cases h <;> rfl
  · rcases decHdrStep_cases s with ⟨_, hx⟩ | ⟨p, _, hx⟩ <;>
    rw [hx] at h <;> cases h; rfl
  · rcases decPayStep_cases s with ⟨_, hx⟩ | ⟨_, _, hx⟩ | ⟨_, p, _, ⟨_, hx⟩ | ⟨_, hx⟩⟩ <;>
    rw [hx] at h <;> cases h; rfl
  · cases h

/-- So does a run of the engine. -/
theorem runEngine_stops (f : Nat) : ∀ u : State,
    (∀ e, runEngine f u ≠ .fault e) ∧ ∀ r, runEngine f u = .refused r → r = .pixelOutsideImage := by
  induction f with
  | zero => intro u; exact ⟨fun e h => (by cases h), fun r h => (by cases h)⟩
  | succ f ih =>
    intro u
    by_cases hi : u.eng.phase = .idle
    · rw [runEngine_idle hi]; exact ⟨fun e h => (by cases h), fun r h => (by cases h)⟩
    · rw [runEngine_succ hi]
      cases hx : engineStep u with
      | next v => exact ih v
      | fault e => exact absurd hx (engineStep_ne_fault _ e)
      | refused r => exact ⟨fun e h => (by cases h), fun r' h => (by cases h; exact engineStep_refused hx)⟩

/-- No input changes the block while `rst` is asserted: what may change is the image, the level of `rst`, and the fields
of what the outside world last read (70_reset_and_hazards.md R280). -/
theorem inputInReset_frame {inp : Input} {s t : State} (h : inputInReset inp s = .next t) :
    t = { s with rst := t.rst, image := t.image, rdata := t.rdata, ipix := t.ipix } := by
  cases inp with
  | access a => cases h; rfl
  | call v => cases h; rfl
  | engine => cases h; rfl
  | rst level => cases h; rfl
  | loadImage w hh cs =>
    simp only [inputInReset, loadImage] at h
    split at h <;> cases h; rfl
  | readPixel x y =>
    simp only [inputInReset, readPixel] at h
    split at h
    · cases h
    · split at h <;> cases h; rfl
  | writePixel x y p =>
    simp only [inputInReset, writePixel] at h
    split at h
    · cases h
    · split at h
      · cases h
      · rename_i u hu
        cases h
        obtain ⟨-, rfl⟩ := pixWrite_eq_some.mp hu
        rfl

/-- While `rst` is asserted, a step that goes on leaves the block at its reset values; the image, the level of `rst`, the
inputs and the fields of what the outside world last read may change. -/
theorem step_inReset {s t : State} (hr : s.rst = true) (h : step s = .next t) :
    t = { resetBlock s with
      rst := t.rst, image := t.image, inputs := t.inputs, rdata := t.rdata, ipix := t.ipix } := by
  cases hin : s.inputs with
  | nil => rw [step_inReset_nil hin hr] at h; cases h; rfl
  | cons inp rest =>
    rw [step_inReset_cons hin hr] at h
    rw [inputInReset_frame h]; rfl

/-- One more step of a run of the machine. -/
theorem core_run_succ (m : Nat) {s t : State} (h : step s = .next t) : core.run (m + 1) s = core.run m t := by
  show Host.Core.run core (m + 1) s = _
  have h' : core.step s = .next t := h
  simp only [Host.Core.run, h']

end Sys2Proof.Machine
end

