-- ==== Sys2Proof/Laws/Invariant.lean ====
section
/-! SUPPORT. Each part of a step keeps the invariant: completion, an error, the start of a command, one slot of each
walk, acceptance, a host access. The obligation StepKeepsInvariant puts them together. -/

namespace Sys2Proof.Machine

theorem engine_of_not {s : State} (h : s.eng.phase ≠ .encWalk ∧ s.eng.phase ≠ .decHdr ∧ s.eng.phase ≠ .decPay) :
    EngineSound s := ⟨fun e => absurd e h.1, fun e => absurd e h.2.1, fun e => absurd e h.2.2⟩

theorem inv_complete {s : State} (h : Inv s) : Inv (complete s) := by
  obtain ⟨h1, h2, h3, h4⟩ := h
  refine ⟨h1, h2, ?_, engine_of_not (by simp)⟩
  simp [StatusSound]

theorem inv_raise {s : State} (e : ErrCode) (h1 : s.params.wf = true) (h2 : MemSound s) (h3 : s.regs.status.busy = true)
    (h4 : s.regs.status.done = false ∧ s.regs.status.errCode = .none ∧ s.regs.status.err = false) :
    Inv (raiseError e s) := by
  refine ⟨h1, h2, ?_, engine_of_not (by simp)⟩
  simp [StatusSound, h3, h4]

theorem busy_facts {s : State} (h : StatusSound s) (hp : s.eng.phase ≠ .idle) :
    s.regs.status.busy = true ∧ s.regs.status.done = false ∧ s.regs.status.errCode = .none ∧
      s.regs.status.err = false := by
  obtain ⟨a,b,c⟩ := h
  have hb : s.regs.status.busy = true := by
    cases hh : s.regs.status.busy
    · exact absurd (a.mpr hh) hp
    · rfl
  refine ⟨hb, (b hb).1, (b hb).2, ?_⟩
  cases he : s.regs.status.err
  · rfl
  · exact absurd (b hb).2 (c.mp he)

theorem memSound_parse {s : State} (h : MemSound s) : MemSound (parseHeader s) := by
  obtain ⟨a,b,c,d,e,f⟩ := h
  have := parsedName_wf s.hdr s.nbuf a b
  simp only [MemSound, parseHeader_nbuf, parseHeader_pbuf, parseHeader_params, parseHeader_image]
  exact ⟨this.1, this.2, c, d, e, f⟩

theorem inv_startEncode {s : State} (h : Inv s) (hp : s.eng.phase = .start) : Inv (startEncode s) := by
  obtain ⟨h1, h2, h3, h4⟩ := h
  have hb := busy_facts h3 (by simp [hp])
  unfold startEncode
  split
  · rename_i hc
    have hcc := encodeCheck_none hc
    split
    · rename_i hf
      refine ⟨h1, h2, ?_, ⟨fun _ => ?_, fun e => (by cases e), fun e => (by cases e)⟩⟩
      · simp [StatusSound, hb]
      · have hf' := hf
        simp only [streamFits, Bool.and_eq_true, decide_eq_true_eq] at hf'
        have e : (enterEncWalk (storeHeader (beginEncode s))).regs.encEnd.toNat =
            (enterEncWalk (storeHeader (beginEncode s))).streamLen := by
          show (BitVec.ofNat 32 s.streamLen).toNat = s.streamLen
          rw [BitVec.toNat_ofNat, Nat.mod_eq_of_lt hcc.2.2.2.2.2]
        refine ⟨hc, hf, e, rfl, rfl, ?_, ?_, ?_⟩
        · show 0 < s.n
          omega
        · show 0 = streamIndexAt s.mode (slotOf 0 .r)
          rfl
        · show 0 < s.streamLen
          unfold State.streamLen; omega
    · exact inv_raise _ h1 h2 hb.1 hb.2
  · exact inv_raise _ h1 h2 hb.1 hb.2

theorem inv_startDecode {s : State} (h : Inv s) (hp : s.eng.phase = .start) : Inv (startDecode s) := by
  obtain ⟨h1, h2, h3, h4⟩ := h
  have hb := busy_facts h3 (by simp [hp])
  unfold startDecode
  simp only
  split
  · exact inv_raise _ h1 h2 hb.1 hb.2
  · split
    · exact inv_raise _ h1 h2 hb.1 hb.2
    · rename_i hn
      refine ⟨h1, h2, ?_, ⟨fun e => (by cases e), fun _ => ?_, fun e => (by cases e)⟩⟩
      · simp [StatusSound, hb]
      · refine ⟨?_, rfl, ?_, rfl, rfl⟩
        · show 580 ≤ 3 * s.n
          omega
        · show 0 < 580
          omega

theorem inv_startWord {s : State} (h : Inv s) (hp : s.eng.phase = .start) : Inv (startWord s) := by
  have h' := h
  obtain ⟨h1, h2, h3, h4⟩ := h
  have hb := busy_facts h3 (by simp [hp])
  unfold startWord
  split
  · rename_i i _
    cases i
    · exact inv_raise _ h1 h2 hb.1 hb.2
    · exact inv_startEncode h' hp
    · exact inv_startDecode h' hp
    · show Inv (startHdrBuild s)
      unfold startHdrBuild
      split
      · exact inv_raise (s := storeHeader s) .none h1 h2 hb.1 hb.2
      · exact inv_raise _ h1 h2 hb.1 hb.2
    · exact inv_raise (s := parseHeader s) .none h1 (memSound_parse h2) hb.1 hb.2
  · exact inv_raise _ h1 h2 hb.1 hb.2

theorem walk_lt_of_slot {n k : Nat} {c : Channel} (h : slotOf k c < 3 * n) : k < n := by
  have := c.idx_lt; simp only [slotOf] at h; omega

theorem inv_encWalk {s t : State} (h : Inv s) (hp : s.eng.phase = .encWalk) (ht : encWalkStep s = .next t) : Inv t := by
  obtain ⟨h1, h2, h3, h4⟩ := h
  have hb := busy_facts h3 (by simp [hp])
  obtain ⟨hc, hf, he, hh, hpc, hk, hi, hlt⟩ := h4.1 hp
  have hcc := encodeCheck_none hc
  have hff := hf
  simp only [streamFits, Bool.and_eq_true, decide_eq_true_eq] at hff
  have hfit := (fits_iff_streamIndexAt hff.1).mp hff.2
  have hi' : ∀ p, (encSlot s p).i = streamIndexAt s.mode (slotOf s.eng.k s.eng.c + 1) := by
    intro p
    rw [encSlot_i, streamIndexAt_succ, ← hi, slotOf_div]
  have hle : ∀ p, (encSlot s p).i ≤ s.streamLen := by
    intro p; rw [encSlot_i]; have := Bool.toNat_le (writeE s.eng.i s.mode s.eng.k); omega
  have hadv : ∀ p, (encSlot s p).i ≠ s.regs.encEnd.toNat → slotOf s.eng.k s.eng.c + 1 < 3 * s.n := by
    intro p hne
    apply Nat.lt_of_not_le
    intro hge
    have := streamIndexAt_mono s.mode hge
    rw [← hi' p] at this
    have := hle p
    unfold State.streamLen at *
    omega
  rcases encWalkStep_cases s with ⟨_, hx⟩ | ⟨p, hl, hx⟩
  · rw [hx] at ht; cases ht
  · rcases hx with ⟨hcb, hne, hx⟩ | ⟨_, _, hx⟩ | ⟨hor, hhas, hx⟩
    · rw [hx] at ht; cases ht
      have hsl : slotOf (encSlot s p).advance.k (encSlot s p).advance.c = slotOf s.eng.k s.eng.c + 1 := by
        rw [Engine.advance_slot]; simp
      have hphase : (encSlot s p).advance.phase = .encWalk := by
        simp only [Engine.advance]; split <;> simp [hp]
      have hadvi : (encSlot s p).advance.i = (encSlot s p).i := by
        simp only [Engine.advance]; split <;> rfl
      refine ⟨h1, h2, ?_, ⟨fun _ => ?_, fun e => ?_, fun e => ?_⟩⟩
      · simp [StatusSound, hb, hp]
      · refine ⟨hc, hf, he, hh, ?_, ?_, ?_, ?_⟩
        · exact Engine.advance_pcPix (by simp [hpc])
        · apply walk_lt_of_slot (c := (encSlot s p).advance.c)
          show slotOf (encSlot s p).advance.k _ < 3 * s.n
          rw [hsl]; exact hadv p hne
        · show (encSlot s p).advance.i = streamIndexAt s.mode (slotOf (encSlot s p).advance.k (encSlot s p).advance.c)
          rw [hsl, hadvi, hi']
        · show (encSlot s p).advance.i < s.streamLen
          rw [hadvi]; have := hle p; omega
      · rw [State.withEng_eng, hphase] at e; cases e
      · rw [State.withEng_eng, hphase] at e; cases e
    · rw [hx] at ht; cases ht
    · rw [hx] at ht; cases ht
      have hm : MemSound { s with
                  image := s.image.setPixel (walkX s.h s.eng.k) (walkY s.h s.eng.k) (encSlot s p).latch,
                  eng := { encSlot s p with k := s.eng.k + 1, pcPix := s.eng.pcPix + 1, c := .r } } := by
        obtain ⟨a,b,c,d,e,f⟩ := h2
        exact ⟨a,b,c,d, Image.setPixel_wf _ e, Image.setPixel_below _ hhas f⟩
      by_cases hE : (encSlot s p).i = s.regs.encEnd.toNat
      · simp only [hE, if_true]
        exact inv_raise .none h1 hm hb.1 hb.2
      · simp only [hE, if_false]
        have hcb : s.eng.c = .b := by rcases hor with h | h; exact h; exact absurd h hE
        have hs : slotOf s.eng.k s.eng.c + 1 = slotOf (s.eng.k + 1) .r := by simp [slotOf, hcb, Channel.idx]; omega
        refine ⟨h1, hm, ?_, ⟨fun _ => ?_, fun e => ?_, fun e => ?_⟩⟩
        · simp [StatusSound, hb, hp]
        · refine ⟨hc, hf, he, hh, ?_, ?_, ?_, ?_⟩
          · show s.eng.pcPix + 1 = s.eng.k + 1
            rw [hpc]
          · apply walk_lt_of_slot (c := .r)
            rw [← hs]; exact hadv p hE
          · show (encSlot s p).i = streamIndexAt s.mode (slotOf (s.eng.k+1) .r)
            rw [← hs, hi']
          · show (encSlot s p).i < s.streamLen
            have := hle p; omega
        · simp [hp] at e
        · simp [hp] at e

theorem inv_parsePoint {s : State} (h1 : s.params.wf = true) (h2 : MemSound s)
    (hb : s.regs.status.busy = true ∧ s.regs.status.done = false ∧ s.regs.status.errCode = .none ∧
      s.regs.status.err = false)
    (hn : 580 ≤ 3 * s.n) (hs : s.eng.s = 580) (hsl : slotOf s.eng.k s.eng.c = 580) (hd : s.eng.d = 580)
    (hpc : s.eng.pcPix = s.eng.k) : Inv (parsePoint s) := by
  unfold parsePoint
  simp only
  split
  · rename_i hc
    refine ⟨h1, memSound_parse h2, ?_, ⟨fun e => (by cases e), fun e => (by cases e), fun _ => ?_⟩⟩
    · simp [StatusSound, hb]
    · refine ⟨hn, hc, rfl, loadEnd_pb (decodeCheck_none hc).1, ?_, ?_, hpc, ?_, ?_, ?_, ?_⟩
      · show s.eng.s = slotOf s.eng.k s.eng.c
        rw [hs, hsl]
      · show 580 ≤ s.eng.s
        omega
      · show s.eng.d = 580 + eligibleCount _ 580 s.eng.s
        rw [hd, hs, eligibleCount_self]
      · show s.eng.d ≤ _
        omega
      · show 0 = (s.eng.d - 580) % 8
        omega
      · show 0 = (s.eng.d - 580) / 8
        omega
  · exact inv_raise (s := loadEnd (parseHeader s)) _ h1 (memSound_parse h2) hb.1 hb.2

theorem inv_decHdr {s t : State} (h : Inv s) (hp : s.eng.phase = .decHdr) (ht : decHdrStep s = .next t) : Inv t := by
  obtain ⟨h1, h2, h3, h4⟩ := h
  have hb := busy_facts h3 (by simp [hp])
  obtain ⟨hn, hs, hlt, hd, hpc⟩ := h4.2.1 hp
  rcases decHdrStep_cases s with ⟨_, hx⟩ | ⟨p, hl, hx⟩
  · rw [hx] at ht; cases ht
  · rw [hx] at ht; cases ht
    have hsl : slotOf (Engine.advance { s.eng with latch := p, s := s.eng.s + 1, d := s.eng.d + 1 }).k
        (Engine.advance { s.eng with latch := p, s := s.eng.s + 1, d := s.eng.d + 1 }).c = s.eng.s + 1 := by
      rw [Engine.advance_slot, hs]
    have hpc' : (Engine.advance { s.eng with latch := p, s := s.eng.s + 1, d := s.eng.d + 1 }).pcPix =
        (Engine.advance { s.eng with latch := p, s := s.eng.s + 1, d := s.eng.d + 1 }).k := Engine.advance_pcPix hpc
    have e1 : (Engine.advance { s.eng with latch := p, s := s.eng.s + 1, d := s.eng.d + 1 }).s = s.eng.s + 1 := by
      simp only [Engine.advance]; split <;> rfl
    have e2 : (Engine.advance { s.eng with latch := p, s := s.eng.s + 1, d := s.eng.d + 1 }).d = s.eng.d + 1 := by
      simp only [Engine.advance]; split <;> rfl
    have e3 : (Engine.advance { s.eng with latch := p, s := s.eng.s + 1, d := s.eng.d + 1 }).phase = .decHdr := by
      simp only [Engine.advance]; split <;> exact hp
    by_cases hE : s.eng.s = 579
    · rw [if_pos hE]
      refine inv_parsePoint
        (s := { s with
          hdr := hdrSetBit s.hdr s.eng.s (lsbExtract (p.get s.eng.c)),
          eng := Engine.advance { s.eng with latch := p, s := s.eng.s + 1, d := s.eng.d + 1 } })
        h1 h2 hb hn ?_ ?_ ?_ hpc'
      · rw [e1, hE]
      · rw [hsl, hE]
      · rw [e2, hd, hE]
    · rw [if_neg hE]
      refine ⟨h1, h2, ?_, ⟨fun e => ?_, fun _ => ?_, fun e => ?_⟩⟩
      · simp [StatusSound, hb, hp]
      · rw [show _ = Phase.decHdr from e3] at e; cases e
      · refine ⟨hn, ?_, ?_, ?_, hpc'⟩
        · show (Engine.advance _).s = slotOf (Engine.advance _).k (Engine.advance _).c
          rw [hsl, e1]
        · show (Engine.advance _).s < 580
          rw [e1]; omega
        · show (Engine.advance _).d = (Engine.advance _).s
          rw [e1, e2, hd]
      · rw [show _ = Phase.decHdr from e3] at e; cases e

theorem bv3_succ {n : BitVec 3} (h : n ≠ 7#3) : (n + 1#3).toNat = n.toNat + 1 := by
  revert n; decide

theorem mod8_key (a n d : Nat) (h1 : a = n + 1) (h2 : n = (d - 580) % 8) (h3 : n < 7) (h4 : 580 ≤ d) :
    a = (d + 1 - 580) % 8 := by omega

theorem div8_key (j n d : Nat) (h1 : j = (d - 580) / 8) (h2 : n = (d - 580) % 8) (h3 : n < 7) (h4 : 580 ≤ d) :
    j = (d + 1 - 580) / 8 := by
  rw [show d + 1 - 580 = (d - 580) + 1 by omega]
  generalize d - 580 = e at *
  omega

theorem inv_decPay {s t : State} (h : Inv s) (hp : s.eng.phase = .decPay) (ht : decPayStep s = .next t) : Inv t := by
  obtain ⟨h1, h2, h3, h4⟩ := h
  have hb := busy_facts h3 (by simp [hp])
  obtain ⟨hn, hc, hee, hpb, hs, h580, hpc, hd, hdle, hna, hj⟩ := h4.2.2 hp
  have hcc := decodeCheck_none hc
  have hpb' : s.eng.pb = payloadBits s.params.decEndRule s.regs.pHdr.pMode.toNat s.regs.encEnd.toNat := by rw [hpb, hee]
  rcases decPayStep_cases s with ⟨_, hx⟩ | ⟨_, _, hx⟩ | ⟨hne, p, hl, hx⟩
  · rw [hx] at ht; cases ht
    exact inv_raise (s := { s with regs := { s.regs with outLen := BitVec.ofNat 32 (s.eng.pb / 8) } }) .none h1 h2 hb.1 hb.2
  · rw [hx] at ht; cases ht
  · have hk : s.eng.s / 3 = s.eng.k := by rw [hs, slotOf_div]
    have hcnt := eligibleCount_succ s.regs.pHdr.pMode.toNat h580
    rw [hk] at hcnt
    rcases hx with ⟨hr, hx⟩ | ⟨hr, hx⟩
    · have hel : payloadEligible s.regs.pHdr.pMode.toNat s.eng.k = true := by
        simp [readD] at hr; exact hr.2
      rw [hel, Bool.toNat_true] at hcnt
      rw [hx] at ht; cases ht
      by_cases h7 : s.eng.nacc = 7#3
      · have h7' : s.eng.nacc.toNat = 7 := by rw [h7]; rfl
        have hjlt : s.eng.j < s.params.pbufBytes := by
          have := hcc.2.2.2; rw [← hpb'] at this
          have := hcc.2.2.1; rw [← hpb'] at this
          omega
        have hm : MemSound (pbufWrite s.eng.j (packShift s.eng.acc (lsbExtract (p.get s.eng.c))) s) := by
          obtain ⟨a,b,c,d,e,f⟩ := h2
          exact ⟨a, b, Memory.wf_write c _ _, Memory.below_write _ d hjlt, e, f⟩
        have e : packBit (lsbExtract (p.get s.eng.c))
            (s.withEng { s.eng with latch := p, s := s.eng.s + 1, d := s.eng.d + 1 })
            = (pbufWrite s.eng.j (packShift s.eng.acc (lsbExtract (p.get s.eng.c))) s).withEng
                { s.eng with
                  latch := p, s := s.eng.s + 1, d := s.eng.d + 1, acc := 0#8, nacc := 0#3,
                  j := s.eng.j + 1 } := by
          simp [packBit, h7]; rfl
        rw [e]
        refine ⟨h1, hm, ?_, ⟨fun e => ?_, fun e => ?_, fun _ => ?_⟩⟩
        · simp [StatusSound, hb, hp]
        · simp [hp] at e
        · simp [hp] at e
        · refine ⟨hn, hc, ?_, ?_, ?_, ?_, ?_, ?_, ?_, ?_, ?_⟩
          · simpa using hee
          · simpa using hpb
          · simp only [State.withEng_eng, Engine.advance_slot, Engine.advance_s, hs]
          · simp only [State.withEng_eng, Engine.advance_s]; omega
          · exact Engine.advance_pcPix (by simpa using hpc)
          · simp only [State.withEng_eng, Engine.advance_s, Engine.advance_d, State.withEng_regs, pbufWrite_regs]; omega
          · simp only [State.withEng_eng, Engine.advance_pb, Engine.advance_d]; omega
          · simp only [State.withEng_eng, Engine.advance_nacc, Engine.advance_d]; simp; omega
          · simp only [State.withEng_eng, Engine.advance_j, Engine.advance_d]; omega
      · have h7' := bv3_succ h7
        have e : packBit (lsbExtract (p.get s.eng.c))
            (s.withEng { s.eng with latch := p, s := s.eng.s + 1, d := s.eng.d + 1 })
            = s.withEng
                { s.eng with
                  latch := p, s := s.eng.s + 1, d := s.eng.d + 1,
                  acc := packShift s.eng.acc (lsbExtract (p.get s.eng.c)), nacc := s.eng.nacc + 1#3 } := by
          simp [packBit, h7]; rfl
        have h7n : s.eng.nacc.toNat < 7 := by
          have := (s.eng.nacc + 1#3).isLt; omega
        rw [e]
        refine ⟨h1, h2, ?_, ⟨fun e => ?_, fun e => ?_, fun _ => ?_⟩⟩
        · simp [StatusSound, hb, hp]
        · simp [hp] at e
        · simp [hp] at e
        · refine ⟨hn, hc, ?_, ?_, ?_, ?_, ?_, ?_, ?_, ?_, ?_⟩
          · simpa using hee
          · simpa using hpb
          · simp only [State.withEng_eng, Engine.advance_slot, Engine.advance_s, hs]
          · simp only [State.withEng_eng, Engine.advance_s]; omega
          · exact Engine.advance_pcPix (by simpa using hpc)
          · simp only [State.withEng_eng, Engine.advance_s, Engine.advance_d, State.withEng_regs]; omega
          · simp only [State.withEng_eng, Engine.advance_pb, Engine.advance_d]; omega
          · simp only [State.withEng_eng, Engine.advance_nacc, Engine.advance_d]
            exact mod8_key _ _ _ h7' hna h7n (by omega)
          · simp only [State.withEng_eng, Engine.advance_j, Engine.advance_d]
            exact div8_key _ _ _ hj hna h7n (by omega)
    · have hel : payloadEligible s.regs.pHdr.pMode.toNat s.eng.k = false := by
        simp [readD] at hr; exact hr h580
      rw [hel, Bool.toNat_false] at hcnt
      rw [hx] at ht; cases ht
      refine ⟨h1, h2, ?_, ⟨fun e => ?_, fun e => ?_, fun _ => ?_⟩⟩
      · simp [StatusSound, hb, hp]
      · simp [hp] at e
      · simp [hp] at e
      · refine ⟨hn, hc, ?_, ?_, ?_, ?_, ?_, ?_, ?_, ?_, ?_⟩
        · simpa using hee
        · simpa using hpb
        · simp only [State.withEng_eng, Engine.advance_slot, Engine.advance_s, hs]
        · simp only [State.withEng_eng, Engine.advance_s]; omega
        · exact Engine.advance_pcPix (by simpa using hpc)
        · simp only [State.withEng_eng, Engine.advance_s, Engine.advance_d, State.withEng_regs]; omega
        · simp only [State.withEng_eng, Engine.advance_pb, Engine.advance_d]; omega
        · simp only [State.withEng_eng, Engine.advance_nacc, Engine.advance_d]; exact hna
        · simp only [State.withEng_eng, Engine.advance_j, Engine.advance_d]; exact hj

theorem inv_accept {s : State} (h : Inv s) (v : Word) : Inv (accept v s) := by
  obtain ⟨h1, h2, h3, h4⟩ := h
  exact ⟨h1, h2, by simp [StatusSound], engine_of_not (by simp)⟩

theorem inv_setAccErr {s : State} (h : Inv s) : Inv (setAccErr s) := by
  obtain ⟨h1, h2, h3, h4⟩ := h
  exact ⟨h1, h2, h3, h4⟩

theorem inv_hostAccess {s : State} (h : Inv s) (a : Access) : Inv (hostAccess a s) := by
  have h' := h
  obtain ⟨h1, h2, h3, h4⟩ := h
  unfold hostAccess
  split
  · rename_i hsup
    simp only [Access.supported, Bool.and_eq_true, beq_iff_eq] at hsup
    split
    · unfold wordRead
      split
      · exact ⟨h1, h2, h3, h4⟩
      · exact ⟨h1, h2, h3, h4⟩
    · rename_i v _
      unfold wordWrite
      split
      · exact inv_setAccErr h'
      · rename_i hnh
        have hw : s.params.pbufBytes % 4 = 0 := by
          have := h1; simp [Params.wf] at this; exact this.1.1
        cases hr : regAt s.params.pbufBytes a.offset.toNat <;>
          simp only [hr, HostReg.writeIsHazard, Bool.and_true, Bool.and_false, Bool.not_eq_true] at hnh <;>
          simp only [writeReg]
        case id => exact h'
        case ctrl => exact ⟨h1, h2, h3, h4⟩
        case cmd =>
          unfold issue; split
          · exact inv_setAccErr h'
          · exact inv_accept h' v
        case status =>
          refine ⟨h1, h2, ?_, h4⟩
          obtain ⟨a, b, c⟩ := h3
          exact ⟨a, fun e => ⟨by simp [Status.w1c, (b e).1], (b e).2⟩, c⟩
        case encEnd => exact h'
        case outLen => exact h'
        case pHdr => exact h'
        case pStart => exact h'
        case reserved => exact h'
        all_goals
          have hidle : s.eng.phase = .idle := h3.1.mpr hnh
        case nbuf w =>
          refine ⟨h1, ?_, h3, engine_of_not (by simp [hidle])⟩
          obtain ⟨a1,b,c,d,e,f⟩ := h2
          exact ⟨Memory.writeLanes_wf a1 _ _, Memory.writeLanes_below b _ _ (regAt_nbuf hr hsup.2), c, d, e, f⟩
        case pbuf w =>
          refine ⟨h1, ?_, h3, engine_of_not (by simp [hidle])⟩
          obtain ⟨a1,b,c,d,e,f⟩ := h2
          exact ⟨a1, b, Memory.writeLanes_wf c _ _, Memory.writeLanes_below d _ _ (regAt_pbuf hr hsup.2 hw), e, f⟩
        all_goals exact ⟨h1, h2, h3, engine_of_not (by simp [hidle])⟩
  · unfold unsupportedAccess; split
    · exact ⟨h1, h2, h3, h4⟩
    · exact ⟨h1, h2, h3, h4⟩

theorem inv_resetBlock {s : State} (h : Inv s) : Inv (resetBlock s) := by
  obtain ⟨h1, h2, -, -⟩ := h
  refine ⟨h1, ⟨rfl, rfl, rfl, rfl, h2.2.2.2.2.1, h2.2.2.2.2.2⟩, ?_, engine_of_not (by simp [Engine.reset])⟩
  simp [StatusSound, Engine.reset, Regs.reset, Status.reset]

theorem inv_driveRst {s : State} (h : Inv s) (level : Bool) : Inv (driveRst level s) := by
  cases level with
  | false => exact h
  | true => exact (inv_resetBlock h : Inv (resetBlock s))

end Sys2Proof.Machine
end

