-- ==== Sys2Proof/Laws/PerInstr.lean ====
section
/-! SUPPORT. Families of statements made for every constructor of `Instr` (LAWS.json). -/

open Sys2Proof

/-- The word of a command is legal (30_encoding.md R91, R92) and decodes to the command. -/
def Sys2Proof.Laws.EncodedWordLegal.Statement (i : Instr) : Prop :=
  i.wf = true ∧ wordWf (encode i) = true ∧ decode (encode i) = .ok i

namespace Sys2Proof.Laws.EncodedWordLegal

theorem nop : Statement .nop := by unfold Statement; decide

theorem encode : Statement .encode := by unfold Statement; decide

theorem decode : Statement .decode := by unfold Statement; decide

theorem hdrBuild : Statement .hdrBuild := by unfold Statement; decide

theorem hdrParse : Statement .hdrParse := by unfold Statement; decide

end Sys2Proof.Laws.EncodedWordLegal
end

