-- ==== Sys2Proof/Tests/Slice0.lean ====
section
/-! SUPPORT. Tests: expected values are those of 95_test_vectors.md (named in each test) or follow from the cited rule.
A theorem `witness_X` shows that the hypotheses of `Obligations.X` can hold together, each clause at a boundary. -/

namespace Sys2Proof.Tests

open Sys2Proof.Machine

-- One theorem at a time: the kernel evaluates many of these, and waiting threads use memory.
set_option Elab.async false

/-! ### Fixtures -/

/-- The run ended in a next state with the property. -/
def after (r : Result) (p : State → Bool) : Bool :=
  match r with
  | .next t => p t
  | .fault _ => false
  | .refused _ => false

theorem after_exists {r : Result} {p : State → Bool} (h : after r p = true) : ∃ t, r = .next t ∧ p t = true := by
  cases r with
  | next t => exact ⟨t, rfl, h⟩
  | fault e => cases h
  | refused e => cases h

/-- The cover pattern of 95_test_vectors.md section 1: slot `s` holds `s mod 256`. -/
def cover (w h : Nat) : Image := Image.ofChannels w h ((List.range (3 * (w * h))).map (BitVec.ofNat 8))

/-- An idle state with the cover pattern of the registers' geometry. -/
def fix (w h : Nat) (mode : BitVec 3) (isFile : Bool) (nameLen len : Nat) : State :=
  { State.reset with
    regs := { Regs.reset with
      width := BitVec.ofNat 16 w, height := BitVec.ofNat 16 h, payloadLen := BitVec.ofNat 32 len,
      cfg := { mode := mode, isFile := isFile, nameLen := BitVec.ofNat 7 nameLen } },
    image := cover w h }

/-- A text header with the given mode and end value. -/
def headerOf (m encEnd : Nat) : List Bool :=
  [false] ++ intBits m 3 ++ List.replicate 512 false ++ intBits 581 32 ++ intBits encEnd 32

/-- The bits of an image of `iw` by `h` pixels that carries such a header, zero bits after it. -/
def codedBits (iw h m encEnd : Nat) : List Bool := headerOf m encEnd ++ List.replicate (3 * (iw * h) - 580) false

/-- An idle state whose image carries those bits; the registers say `w` by `h`. -/
def coded (w iw h m encEnd : Nat) (rule : DecEndRule) (pbufBytes : Nat) : State :=
  { State.reset with
    regs := { Regs.reset with width := BitVec.ofNat 16 w, height := BitVec.ofNat 16 h },
    params := { Params.default with decEndRule := rule, pbufBytes := pbufBytes },
    image := Image.ofChannels iw h ((codedBits iw h m encEnd).map (fun b => BitVec.setWidth 8 (BitVec.ofBool b))) }

/-- A DECODE of the 20 by 10 cover pattern at its parse point, with such a header extracted. -/
def atParse (m encEnd : Nat) (rule : DecEndRule) : State :=
  let s := accept 0x00000002#32 (fix 20 10 0#3 false 0 0)
  { s with
    hdr := hdrOfBits (headerOf m encEnd), params := { Params.default with decEndRule := rule },
    eng := { s.eng with
      phase := .decHdr, k := 193, c := .g, pcPix := 193, s := 580, d := 580, latch := s.image.pixel 19 3 } }

/-- An ENCODE of the fixture at the first slot of its walk. -/
def walking : State := startEncode (accept 0x00000001#32 (fix 14 14 0#3 false 0 1))

/-- The walking ENCODE with `rst` asserted. -/
def held : State := { walking with rst := true }

/-- The fixture with a command accepted and not yet started. -/
def accepted : State := accept 0x00000000#32 (fix 14 14 0#3 false 0 1)

theorem fix_fits : (fix 14 14 0#3 false 0 1).fitsImage := by unfold State.fitsImage; decide +kernel

theorem fix_inv : Inv (fix 14 14 0#3 false 0 1) := by
  refine ⟨by decide +kernel, ⟨?_, ?_, ?_, ?_, ?_, ?_⟩, ?_, engine_of_not (by decide)⟩
  iterate 6 decide +kernel
  simp [StatusSound, fix, State.reset, Engine.reset, Regs.reset, Status.reset]

theorem walking_inv : Inv walking := inv_startEncode (inv_accept fix_inv _) rfl

theorem headerOf_length (m e : Nat) : (headerOf m e).length = 580 := by
  simp only [headerOf, List.length_append, intBits_length, List.length_replicate, List.length_singleton]

theorem coded_slot {w iw h m e : Nat} (rule : DecEndRule) (pb : Nat) (hh : h < 65536) {n : Nat}
    (hn : n < 580) (hs : 580 ≤ 3 * (iw * h)) :
    lsbExtract ((coded w iw h m e rule pb).slot n) = (headerOf m e).getD n false := by
  have hreg : (coded w iw h m e rule pb).h = h := by
    show (BitVec.ofNat 16 h).toNat = h
    rw [BitVec.toNat_ofNat, Nat.mod_eq_of_lt hh]
  have ha : 3 * (walkX h (n / 3) * h + walkY h (n / 3)) + (chanOfSlot n).idx = n := by
    rw [walk_eq, chanOfSlot_idx]; omega
  have hb : (headerOf m e).getD n false = (codedBits iw h m e).getD n false := by
    rw [codedBits, List.getD_append _ _ _ _ (by rw [headerOf_length]; exact hn)]
  have hl : (codedBits iw h m e).length = 3 * (iw * h) := by
    rw [codedBits, List.length_append, headerOf_length, List.length_replicate]; omega
  show lsbExtract (((Memory.read? (Memory.ofBytes 0 (((codedBits iw h m e).map
    (fun b => BitVec.setWidth 8 (BitVec.ofBool b))).take (3 * (iw * h))))
    (3 * (walkX (coded w iw h m e rule pb).h (n / 3) * h + walkY (coded w iw h m e rule pb).h (n / 3)) +
      (chanOfSlot n).idx))).getD _) = _
  rw [hreg, ha, Memory.read?_ofBytes, if_pos (Nat.zero_le n), hb, Nat.sub_zero, List.getElem?_take_of_lt (by omega),
    List.getElem?_map, List.getElem?_eq_getElem (by omega), List.getD_eq_getElem _ _ (by omega)]
  generalize (codedBits iw h m e)[n]'_ = b
  rw [Option.map_some, Option.getD_some]
  cases b <;> decide

/-- DECODE's parse of such an image is a parse of the header it carries. -/
theorem coded_parsed {w iw h m e : Nat} (rule : DecEndRule) (pb : Nat) (hh : h < 65536) (hs : 580 ≤ 3 * (iw * h)) :
    (coded w iw h m e rule pb).parsed =
      parseHeader { coded w iw h m e rule pb with
        hdr := hdrOfBits (headerOf m e), regs := { (coded w iw h m e rule pb).regs with outLen := 0#32 } } := by
  have hi : (coded w iw h m e rule pb).imageHeader = hdrOfBits (headerOf m e) := by
    apply HdrBits.ext_bit
    intro n hn
    rw [State.imageHeader, hdrBit_hdrOfBits (headerOf_length m e), hdrBit, ofMsbFn_getMsbD, decide_eq_true hn,
      Bool.true_and]
    exact coded_slot rule pb hh hn hs
  rw [State.parsed, hi]

/-! ### WellFormed: each check refuses an ill-formed term -/

/-- A reserved bit is set (30_encoding.md R90). -/
theorem test_rsvd_refused : rsvdIsZero 0x00000011#32 = false := by decide

/-- The lowest opcode of the reserved range (30_encoding.md R91). -/
theorem test_opcode_refused : opcodeIsKnown 0x00000005#32 = false ∧ opcodeIsKnown 0x0000000F#32 = false := by decide

theorem test_word_refused : wordWf 0x80000000#32 = false ∧ wordWf 0x00000007#32 = false := by decide

/-- Not a multiple of 4; below 4; a window that leaves the 32-bit offset space (00_scope.md R7, 20_memory.md R61). -/
theorem test_params_refused :
    ({ Params.default with pbufBytes := 4098 } : Params).wf = false ∧
    ({ Params.default with pbufBytes := 0 } : Params).wf = false ∧
    ({ Params.default with pbufBytes := 4294963204 } : Params).wf = false ∧
    ({ Params.default with pbufBytes := 4294963200 } : Params).wf = true ∧ Params.default.wf = true := by decide

/-- Every command is well-formed: no ill-formed one exists (30_encoding.md R90). -/
theorem test_instr_wf : ∀ i : Instr, i.wf = true := by intro i; cases i <;> decide

/-- Byte, halfword and misaligned word accesses (20_memory.md R62). -/
theorem test_access_refused :
    ({ dir := .read, size := .byte, offset := 0x010#32 } : Access).supported = false ∧
    ({ dir := .read, size := .half, offset := 0x010#32 } : Access).supported = false ∧
    (Access.rd 0x012#32).supported = false ∧ (Access.rd 0x010#32).supported = true := by decide

/-- Addresses out of order, and repeated. -/
theorem test_memory_refused :
    Memory.wf [(2, 0#8), (1, 0#8)] = false ∧ Memory.wf [(1, 0#8), (1, 0#8)] = false ∧
    Memory.wf [(1, 0#8), (2, 0#8)] = true := by decide

/-! ### Decode and encode (30_encoding.md R91, R92) -/

theorem test_decode_words :
    decode 0b00000000000000000000000000000000#32 = .ok .nop ∧
    decode 0b00000000000000000000000000000001#32 = .ok .encode ∧
    decode 0b00000000000000000000000000000010#32 = .ok .decode ∧
    decode 0b00000000000000000000000000000011#32 = .ok .hdrBuild ∧
    decode 0b00000000000000000000000000000100#32 = .ok .hdrParse := by decide

/-- The words of CV-2 to CV-5. -/
theorem test_decode_illegal :
    decode 0x00000007#32 = .error .reservedOpcode ∧ decode 0x00000011#32 = .error .reservedBits ∧
    decode 0x80000000#32 = .error .reservedBits ∧ decode 0x0000000F#32 = .error .reservedOpcode := by decide

theorem test_table_words :
    decodeTableWord 32 0 = some .nop ∧ decodeTableWord 32 1 = some .encode ∧ decodeTableWord 32 2 = some .decode ∧
    decodeTableWord 32 3 = some .hdrBuild ∧ decodeTableWord 32 4 = some .hdrParse ∧
    decodeTableWord 32 5 = none := by decide

/-! ### BitStream converter: BS-1, BS-3 to BS-14 -/

theorem test_textToBits :
    textToBits [0x68#8, 0x69#8] =
      [false, true, true, false, true, false, false, false, false, true, true, false, true, false, false, true] := by
  decide

theorem test_fileToBits :
    fileToBits [0x00#8, 0xFF#8, 0x5A#8] =
      List.replicate 8 false ++ List.replicate 8 true ++ [false, true, false, true, true, false, true, false] := by decide

theorem test_bitsToBytes :
    bitsToBytes [false, true, true, false, true, false, false, false] = .ok [0x68#8] ∧
    bitsToBytes [false, true, true, false, true, false, false] = .error .malformedBitCount ∧
    bitsToBytes [] = .ok [] := by decide

theorem test_bitsToText :
    bitsToText (List.replicate 9 false ++ [true, true, false, false, false, false, true]) = .ok [0x00#8, 0x61#8] := by
  decide

theorem test_intToBits :
    intToBits 1 3 = .ok [false, false, true] ∧ intToBits 7 3 = .ok [true, true, true] ∧
    intToBits 8 3 = .error .valueTooWide ∧ intToBits 4294967300 32 = .error .valueTooWide := by decide

theorem test_bitsToInt : bitsToInt [false, false, true] = 1 ∧ bitsToInt (intBits 596 32) = 596 ∧ bitsToInt [] = 0 := by
  decide

/-- BS-14. -/
theorem test_packer :
    let t := (textToBits [0x68#8, 0x69#8]).foldl (fun u b => packBit b u) (packerReset State.reset)
    pbufRead t 0 = 0x68#8 ∧ pbufRead t 1 = 0x69#8 ∧ t.eng.nacc = 0#3 ∧ t.eng.j = 2 := by decide +kernel

/-! ### Walker: the tables of section 3.4 -/

theorem test_capacity :
    [194, 195, 196, 197, 200, 208, 209, 210, 400].map (payloadCapacity 0) = [2, 5, 8, 11, 20, 44, 47, 50, 620] ∧
    [194, 195, 196, 197, 200, 208, 209, 210, 400].map (payloadCapacity 1) = [0, 3, 3, 6, 9, 21, 24, 24, 309] := by
  decide

theorem test_sigma : (List.range 6).map (fun n => sigma 1 (580 + n)) = [582, 583, 584, 588, 589, 590] := by decide

theorem test_lsb : lsbWrite 0x43#8 false = 0x42#8 ∧ lsbWrite 0x44#8 true = 0x45#8 ∧ lsbExtract 0x45#8 = true := by decide

/-! ### Commands: at most two tests each, one step of the machine -/

/-- CV-1. -/
theorem test_nop : after (exec .nop State.reset) (fun t => t.regs.status.toWord == 0x00000002#32) = true := by decide

/-- CV-3. -/
theorem test_illegal :
    after (callWord 0x00000011#32 State.reset) (fun t => t.regs.status.toWord == 0x00000106#32) = true := by decide

/-- EV-1's last pixel: 43 44 45 becomes 42 44 45, only R written. -/
theorem test_encode_EV1 :
    laneOp { r := 0x43#8, g := 0x44#8, b := 0x45#8 } true false false (fun _ => false) =
      { r := 0x42#8, g := 0x44#8, b := 0x45#8 } := by decide

/-- EV-8. -/
theorem test_encode_EV8 :
    after (exec .encode (fix 20 10 0#3 false 0 3)) (fun t =>
      t.regs.status.toWord == 0x00000706#32 && t.regs.encEnd == 604#32 && t.image == cover 20 10) = true := by
  decide +kernel

/-- DV-10 under SLOTS: one byte, 0x49, of the cover pattern. -/
theorem test_decode_DV10 :
    after (runEngine 40 (parsePoint (atParse 1 596 .slots))) (fun t =>
      t.regs.status.toWord == 0x00000002#32 && t.regs.outLen == 1#32 && pbufRead t 0 == 0x49#8) = true := by
  decide +kernel

/-- DV-5 and DV-4. -/
theorem test_decode_DV4 :
    (complete (parsePoint (atParse 0 601 .dataBits))).regs.status.toWord = 0x00000806#32 ∧
    (complete (parsePoint (atParse 0 597 .dataBits))).regs.status.toWord = 0x00000906#32 := by decide +kernel

/-- The name "a.b" in NBUF. -/
def named : State :=
  { fix 0 0 1#3 true 3 3 with nbuf := [(0, 0x61#8), (1, 0x2E#8), (2, 0x62#8)] }

/-- R128: a DECODE clears the packer, also one that ends in BAD_GEOMETRY. -/
theorem test_decode_clears_packer :
    after (exec .decode { State.reset with eng := { Engine.reset with acc := 0xFF#8, nacc := 3#3, j := 7 } }) (fun t =>
      t.eng.acc == 0#8 && t.eng.nacc == 0#3 && t.eng.j == 0 && t.regs.status.errCode == .badGeometry) = true := by decide

/-- HB-3. -/
theorem test_hdrBuild_HB3 :
    after (exec .hdrBuild named) (fun t =>
      t.regs.status.toWord == 0x00000002#32 && t.regs.encEnd == 0x25C#32 && hdrWord t.hdr 0 == 0x90000000#32 &&
      hdrWord t.hdr 15 == 0x000612E6#32 && hdrWord t.hdr 16 == 0x20000024#32 && hdrWord t.hdr 17 == 0x50000025#32 &&
      hdrWord t.hdr 18 == 0xC0000000#32) = true := by decide +kernel

/-- HB-4: TRAILING padding. -/
theorem test_hdrBuild_HB4 :
    after (exec .hdrBuild { named with params := { Params.default with namePad := .trailing } }) (fun t =>
      hdrWord t.hdr 0 == 0x9612E620#32 && hdrWord t.hdr 15 == 0x00000000#32 && hdrWord t.hdr 16 == 0x00000024#32) =
        true := by decide +kernel

/-- HP-3: HB-3's header parsed. -/
theorem test_hdrParse_HP3 :
    after (andThen (exec .hdrBuild named) (exec .hdrParse)) (fun t =>
      t.regs.pHdr.toWord == 0x00000101#32 && t.regs.pStart == 0x245#32 && t.regs.encEnd == 0x25C#32 &&
      readReg t (.nbuf 15) == 0x622E6100#32 && readReg t (.nbuf 0) == 0x00000000#32) = true := by decide +kernel

/-- HP-6. -/
theorem test_hdrParse_HP6 :
    after (exec .hdrParse (hostAccess (Access.wr 0x200#32 0xF0000000#32) State.reset)) (fun t =>
      t.regs.status.toWord == 0x00000002#32 && t.regs.pHdr.toWord == 0x00000107#32 && nbufRead t 63 == 0x00#8) =
        true := by decide +kernel

/-! ### The host interface: MV-2 to MV-13 -/

/-- MV-2. -/
theorem test_pbuf_word :
    let t := hostAccess (Access.wr 0x1000#32 0x005AFF00#32) State.reset
    pbufRead t 0 = 0x00#8 ∧ pbufRead t 1 = 0xFF#8 ∧ pbufRead t 2 = 0x5A#8 := by decide +kernel

/-- MV-4. -/
theorem test_hdr_word18 :
    (hostAccess (Access.rd 0x248#32) (hostAccess (Access.wr 0x248#32 0xFFFFFFFF#32) State.reset)).rdata =
      0xF0000000#32 := by decide +kernel

/-- MV-6 and MV-7. -/
theorem test_unsupported :
    (hostAccess { dir := .write 5#32, size := .byte, offset := 0x010#32 } State.reset).regs.status.accErr = true ∧
    (hostAccess { dir := .write 5#32, size := .byte, offset := 0x010#32 } State.reset).regs.width = 0#16 ∧
    (hostAccess (Access.rd 0x012#32) State.reset).regs.status.accErr = true := by decide

/-- MV-9 to MV-13. -/
theorem test_register_reads :
    (hostAccess (Access.rd 0x008#32) State.reset).rdata = 0#32 ∧
    (hostAccess (Access.rd 0x000#32) State.reset).rdata = 0x4C534231#32 ∧
    (hostAccess (Access.rd 0x018#32) (hostAccess (Access.wr 0x018#32 0xFFFFFFFF#32) State.reset)).rdata =
      0x007F0107#32 ∧
    (hostAccess (Access.rd 0x010#32) (hostAccess (Access.wr 0x010#32 0xFFFFFFFF#32) State.reset)).rdata =
      0x0000FFFF#32 ∧
    (hostAccess (Access.rd 0x2000#32) State.reset).rdata = 0#32 ∧
    (hostAccess (Access.rd 0x2000#32) State.reset).regs.status.accErr = false := by decide

/-- CV-7, CV-9, CV-11: accesses while an ENCODE walks. -/
theorem test_busy :
    (hostAccess (Access.wr 0x008#32 0#32) walking).regs.status.accErr = true ∧
    (hostAccess (Access.wr 0x008#32 0#32) walking).eng = walking.eng ∧
    (hostAccess (Access.wr 0x010#32 5#32) walking).regs.width = 14#16 ∧
    (hostAccess (Access.rd 0x010#32) walking).rdata = 14#32 ∧
    (hostAccess (Access.rd 0x010#32) walking).regs.status.accErr = false ∧
    (hostAccess (Access.rd 0x00C#32) walking).rdata = 0x00000001#32 := by decide +kernel

/-- IV-1 and IV-2. -/
theorem test_irq :
    after (exec .nop (hostAccess (Access.wr 0x004#32 1#32) State.reset))
      (fun t => t.irq && !(hostAccess (Access.wr 0x00C#32 2#32) t).irq) = true := by decide

/-- RV-1: registers after `rst` in the middle of an ENCODE. -/
theorem test_reset :
    (resetBlock walking).regs = Regs.reset ∧ (resetBlock walking).hdr = 0#580 ∧
    (resetBlock walking).eng.phase = .idle := by decide +kernel

/-- R280: a configuration write and a CMD write that land while `rst` is asserted leave the registers at their reset
values. -/
theorem test_write_in_reset :
    after (step { held with inputs := [.access (Access.wr 0x010#32 9#32)] }) (fun t => t.regs == Regs.reset) = true ∧
    after (step { held with inputs := [.access (Access.wr 0x008#32 1#32)] })
      (fun t => t.regs == Regs.reset && t.eng.phase == .idle) = true := by decide +kernel

/-- R287: the collaborator may read the image while a DECODE runs. -/
theorem test_read_during_decode :
    after (step { accept 0x00000002#32 (fix 1 1 0#3 false 0 0) with inputs := [.readPixel 0 0] })
      (fun t => t.ipix == { r := 0#8, g := 1#8, b := 2#8 } && t.regs.status.busy) = true := by decide +kernel

/-- R67: R in bits [23:16], G in [15:8], B in [7:0]. -/
theorem test_portWord : Pixel.portWord { r := 0x12#8, g := 0x34#8, b := 0x56#8 } = 0x123456#24 := by decide

/-- The host's words for R105: PROG-1's LOADB line packs two bytes into one word. -/
theorem test_loadb : progLoadb 0x1000#32 [0x68#8, 0x69#8] = progWr 0x1000#32 0x00006968#32 := by decide

/-! ### Witnesses for the statements -/

theorem witness_DecodeOfEncode : Instr.hdrParse.wf = true := by decide

theorem witness_IllegalWordCompletes :
    State.reset.idle ∧ (0x00000010#32 : Word).extractLsb' 4 28 ≠ 0#28 ∧
    5 ≤ ((0x00000005#32 : Word).extractLsb' 0 4).toNat ∧ 5 ≤ ((0x0000000F#32 : Word).extractLsb' 0 4).toNat :=
  ⟨rfl, by decide, by decide, by decide⟩

theorem witness_StepRunsDecodedCommand :
    decode 0x00000004#32 = .ok .hdrParse ∧ (∀ j, decode 0x00000005#32 ≠ .ok j) ∧
    ({ State.reset with inputs := [.call 0x00000004#32] } : State).inputs = .call 0x00000004#32 :: [] ∧
    ({ State.reset with inputs := [.call 0x00000005#32] } : State).inputs = .call 0x00000005#32 :: [] ∧
    ({ State.reset with inputs := [.access (Access.rd 0x000#32)] } : State).inputs =
      .access (Access.rd 0x000#32) :: [] ∧
    ({ State.reset with inputs := [.engine] } : State).inputs = .engine :: [] ∧ State.reset.inputs = [] ∧
    State.reset.rst = false :=
  ⟨by decide, by intro j; cases j <;> decide, rfl, rfl, rfl, rfl, rfl, rfl⟩

theorem witness_CommandAcceptance :
    State.reset.idle ∧ ¬ accepted.idle ∧ decode 0x00000000#32 = .ok .nop ∧ accepted.eng.cmd = 0x00000000#32 ∧
    accepted.eng.phase = .start := ⟨rfl, by unfold State.idle; decide, by decide, rfl, rfl⟩

theorem witness_RaiseEndsCommand : 1 ≤ 1 := Nat.le_refl 1

theorem witness_NopResult : State.reset.idle := rfl

theorem witness_EveryCommandCompletes :
    (fix 14 14 0#3 false 0 1).idle ∧ (fix 14 14 0#3 false 0 1).fitsImage ∧ State.reset.idle ∧ State.reset.fitsImage :=
  ⟨rfl, fix_fits, rfl, by unfold State.fitsImage; decide⟩

theorem witness_StepwiseRunAgreesWithCall :
    State.reset.idle ∧ State.reset.rst = false ∧ State.reset.inputs = [] ∧ ∃ t, callWord 0x00000001#32 State.reset = .next t := by
  obtain ⟨t, ht, _⟩ := after_exists (r := callWord 0x00000001#32 State.reset) (p := fun _ => true) (by decide)
  exact ⟨rfl, rfl, rfl, t, ht⟩

theorem witness_TextAndFileBits : 1 < [0x68#8, 0x69#8].length ∧ 7 < 8 := by decide

theorem witness_BitsToBytes :
    (List.replicate 7 true).length % 8 ≠ 0 ∧ (List.replicate 9 true).length % 8 ≠ 0 ∧
    ([] : List Bool).length % 8 = 0 ∧ (List.replicate 8 true).length % 8 = 0 ∧ 0 < 1 := by decide

theorem witness_IntToBits : 2 ^ 3 ≤ 8 ∧ 7 < 2 ^ 3 ∧ 2 < 3 := by decide

theorem witness_BitStreamFunctionsInvert : 7 < 2 ^ 3 := by decide

theorem witness_PackerAssemblesBytes : bitsToBytes (textToBits [0x68#8]) = .ok [0x68#8] ∧ bitsToBytes [] = .ok [] := by
  decide

theorem witness_WalkIndices : 199 < 20 * 10 ∧ 19 < 20 ∧ 9 < 10 := by decide

theorem witness_SelectsAndLsbOperations : 1 ≤ 1 ∧ (0x42#8 : Byte).getLsbD 0 = false := by decide

theorem witness_StreamPlacement : 0 ≤ 1 ∧ 1 ≤ 1 ∧ 579 < 580 ∧ 580 ≤ 580 := by decide

theorem witness_CapacityCountsEligibleSlots : 580 ≤ 3 * 194 ∧ 1 ≤ 1 ∧ 580 ≤ 580 := by decide

theorem witness_HeaderFields :
    (List.replicate 64 0x41#8).length ≤ 64 ∧ 2 < 3 ∧ 511 < 512 ∧ 511 < 512 - 8 * ([] : List Byte).length ∧
    63 < (List.replicate 64 0x41#8).length ∧ 7 < 8 ∧ 8 * [0x41#8].length ≤ 8 ∧ 31 < 32 := by decide

/-- HB-8, HB-6, HB-10, and the last values that pass: mode 2, 64 name bytes, the largest length. -/
theorem witness_HdrBuildResult :
    2 < (fix 0 0 3#3 false 0 0).mode ∧
    ((fix 0 0 2#3 true 65 0).mode ≤ 2 ∧ (fix 0 0 2#3 true 65 0).regs.cfg.isFile = true ∧
      64 < (fix 0 0 2#3 true 65 0).regs.cfg.nameLen.toNat) ∧
    ((fix 0 0 2#3 true 64 536870840).regs.cfg.nameLen.toNat ≤ 64 ∧
      2 ^ 32 ≤ 580 + 8 * (fix 0 0 2#3 true 64 536870840).len) ∧
    580 + 8 * (fix 0 0 2#3 true 64 536870839).len < 2 ^ 32 ∧ (fix 0 0 3#3 false 0 0).idle ∧
    (fix 0 0 2#3 true 65 0).idle ∧ (fix 0 0 2#3 true 64 536870840).idle ∧ (fix 0 0 2#3 true 64 536870839).idle := by
  unfold State.idle; decide +kernel

theorem witness_HdrParseResult : State.reset.idle ∧ 63 < 64 ∧ 64 ≤ 64 := ⟨rfl, by decide, by decide⟩

/-- Both paddings, a file name of 64 bytes and of 0 bytes, and a text header. -/
theorem witness_HeaderRoundTrip :
    (fix 0 0 2#3 true 64 536870839).idle ∧ (fix 0 0 2#3 true 64 536870839).mode ≤ 2 ∧
    (fix 0 0 2#3 true 64 536870839).regs.cfg.nameLen.toNat ≤ 64 ∧
    580 + 8 * (fix 0 0 2#3 true 64 536870839).len < 2 ^ 32 ∧
    (fix 0 0 2#3 true 64 536870839).params.namePad = .leading ∧
    ({ Params.default with namePad := .trailing } : Params).namePad = .trailing ∧
    (fix 0 0 2#3 false 127 0).regs.cfg.isFile = false ∧ (fix 0 0 2#3 true 0 0).regs.cfg.nameLen.toNat ≤ 64 := by
  unfold State.idle; decide +kernel

/-- EV-10, EV-11, EV-12, EV-13, EV-17. -/
theorem witness_EncodeChecksInOrder :
    (fix 0 10 3#3 false 0 0).w = 0 ∧ (fix 10 0 3#3 false 0 0).h = 0 ∧
    (0 < (fix 20 10 2#3 false 0 2).w ∧ 0 < (fix 20 10 2#3 false 0 2).h ∧ 1 < (fix 20 10 2#3 false 0 2).mode) ∧
    ((fix 20 10 1#3 true 65 4097).mode ≤ 1 ∧ 64 < (fix 20 10 1#3 true 65 4097).regs.cfg.nameLen.toNat) ∧
    ((fix 20 10 0#3 true 64 4097).regs.cfg.nameLen.toNat ≤ 64 ∧
      (fix 20 10 0#3 true 64 4097).params.pbufBytes < (fix 20 10 0#3 true 64 4097).len) ∧
    2 ^ 32 ≤ 580 + 8 * (fix 20 10 0#3 true 64 536870840).len ∧
    (fix 20 10 0#3 true 64 536870840).len ≤ ({ Params.default with pbufBytes := 1073741824 } : Params).pbufBytes ∧
    (fix 20 10 2#3 false 0 2).idle := by
  unfold State.idle; decide +kernel

/-- EV-3's geometry, and EV-6: one byte too many. -/
theorem witness_EncodeTooSmallKeepsImage :
    ((fix 4 4 0#3 false 0 2).idle ∧ encodeCheck (fix 4 4 0#3 false 0 2) = .none ∧
      3 * (fix 4 4 0#3 false 0 2).n < 580) ∧
    (fix 2 97 0#3 false 0 1).idle ∧ encodeCheck (fix 2 97 0#3 false 0 1) = .none ∧
      payloadCapacity (fix 2 97 0#3 false 0 1).mode (fix 2 97 0#3 false 0 1).n < 8 * (fix 2 97 0#3 false 0 1).len := by
  unfold State.idle; decide +kernel

theorem witness_EncodePixelIsLaneOperation :
    walking.eng.phase = .encWalk ∧ walking.eng.c = .r ∧ walking.eng.i < walking.regs.encEnd.toNat ∧
    walking.hasPixel walking.eng.k := by
  unfold State.hasPixel; decide +kernel

/-- The image holds exactly the stream: N = 196 holds 580 + 8 bits and no more. -/
theorem encodes :
    (fix 14 14 0#3 false 0 1).idle ∧ encodeCheck (fix 14 14 0#3 false 0 1) = .none ∧
    580 ≤ 3 * (fix 14 14 0#3 false 0 1).n ∧
    8 * (fix 14 14 0#3 false 0 1).len ≤ payloadCapacity (fix 14 14 0#3 false 0 1).mode (fix 14 14 0#3 false 0 1).n ∧
    (fix 14 14 0#3 false 0 1).lastSlot / 3 < (fix 14 14 0#3 false 0 1).n := by
  unfold State.idle; decide +kernel

theorem witness_EncodeEmbedsStream :
    (fix 14 14 0#3 false 0 1).idle ∧ encodeCheck (fix 14 14 0#3 false 0 1) = .none ∧
    580 ≤ 3 * (fix 14 14 0#3 false 0 1).n ∧
    8 * (fix 14 14 0#3 false 0 1).len ≤ payloadCapacity (fix 14 14 0#3 false 0 1).mode (fix 14 14 0#3 false 0 1).n ∧
    ∀ k, k ≤ (fix 14 14 0#3 false 0 1).lastSlot / 3 → (fix 14 14 0#3 false 0 1).hasPixel k :=
  ⟨encodes.1, encodes.2.1, encodes.2.2.1, encodes.2.2.2.1,
    fun _ hk => hasPixel_of_fitsImage fix_fits (Nat.lt_of_le_of_lt hk encodes.2.2.2.2)⟩

/-- The reset comes after 300 engine steps, in the middle of the walk. -/
theorem witness_ResetDuringEncodeLeavesPrefix :
    (∃ t, exec .encode (fix 14 14 0#3 false 0 1) = .next t) ∧
    ∃ u, runEngine 300 (accept 0x00000001#32 (fix 14 14 0#3 false 0 1)) = .next u ∧ u.eng.phase = .encWalk := by
  obtain ⟨t, ht, _⟩ := after_exists (r := exec .encode (fix 14 14 0#3 false 0 1)) (p := fun _ => true)
    (by decide +kernel)
  obtain ⟨u, hu, hp⟩ := after_exists (r := runEngine 300 (accept 0x00000001#32 (fix 14 14 0#3 false 0 1)))
    (p := fun u => u.eng.phase == .encWalk) (by decide +kernel)
  exact ⟨⟨t, ht⟩, u, hu, by simpa using hp⟩

/-- DV-13, and the largest image that cannot hold a header (N = 193). -/
theorem witness_DecodeEarlyErrors :
    (fix 0 10 0#3 false 0 0).w = 0 ∧ (fix 10 0 0#3 false 0 0).h = 0 ∧
    (0 < (fix 1 193 0#3 false 0 0).w ∧ 0 < (fix 1 193 0#3 false 0 0).h ∧ 3 * (fix 1 193 0#3 false 0 0).n < 580) ∧
    (fix 0 10 0#3 false 0 0).idle ∧ (fix 1 193 0#3 false 0 0).idle := by
  unfold State.idle; decide +kernel

/-- What the premises of the statements about DECODE say of an image, apart from its header. -/
def DecodePremises (s : State) : Prop := s.idle ∧ 0 < s.w ∧ 0 < s.h ∧ 580 ≤ 3 * s.n ∧ ∀ k, k ≤ 193 → s.hasPixel k

theorem coded_premises {s : State} (hi : s.idle) (hf : s.fitsImage) (h : 0 < s.w ∧ 0 < s.h ∧ 580 ≤ 3 * s.n) :
    DecodePremises s :=
  ⟨hi, h.1, h.2.1, h.2.2, fun _ hk => hasPixel_of_fitsImage hf (by omega)⟩

/-- The code of `Obligations.DecodeParseErrors`, written out as there. -/
def parseCode (s : State) : ErrCode :=
  let m := s.parsed.regs.pHdr.pMode.toNat
  let e := s.parsed.regs.encEnd.toNat
  let pb := match s.params.decEndRule with
    | .dataBits => e - 580
    | .slots => eligibleCount m 580 (max 580 e)
  if 1 < m then ErrCode.modeReserved
  else if (s.params.decEndRule = .dataBits ∧ payloadCapacity m s.n < pb) ∨
    (s.params.decEndRule = .slots ∧ 3 * s.n < e) then .imageExhausted
  else if pb % 8 ≠ 0 then .truncatedPayload
  else if s.params.pbufBytes < pb / 8 then .bufferRange
  else .none

theorem witness_DecodeParseErrors_premises :
    DecodePremises (coded 14 14 14 2 588 .dataBits 4096) ∧ DecodePremises (coded 14 14 14 0 589 .dataBits 4096) ∧
    DecodePremises (coded 14 14 14 0 589 .slots 4096) ∧ DecodePremises (coded 14 14 14 0 581 .dataBits 4096) ∧
    DecodePremises (coded 14 14 15 0 620 .dataBits 4) := by
  refine ⟨?_, ?_, ?_, ?_, ?_⟩ <;>
    exact coded_premises rfl (by unfold State.fitsImage; decide +kernel) (by decide +kernel)

/-- Mode 2; one bit past the image's last slot, under either end rule; one bit left over; one byte past PBUF. -/
theorem witness_DecodeParseErrors_codes :
    parseCode (coded 14 14 14 2 588 .dataBits 4096) = .modeReserved ∧
    parseCode (coded 14 14 14 0 589 .dataBits 4096) = .imageExhausted ∧
    parseCode (coded 14 14 14 0 589 .slots 4096) = .imageExhausted ∧
    parseCode (coded 14 14 14 0 581 .dataBits 4096) = .truncatedPayload ∧
    parseCode (coded 14 14 15 0 620 .dataBits 4) = .bufferRange := by
  unfold parseCode
  simp only [coded_parsed _ _ (show 14 < 65536 by decide) (show 580 ≤ 3 * (14 * 14) by decide),
    coded_parsed _ _ (show 15 < 65536 by decide) (show 580 ≤ 3 * (14 * 15) by decide)]
  decide +kernel

/-- An image that its header and payload fill exactly. -/
def full : State := coded 14 14 14 0 588 .dataBits 4096

theorem full_fits : full.fitsImage := by unfold State.fitsImage; decide +kernel

theorem full_parsed :
    decodeCheck full.parsed = .none ∧ full.parsed.regs.encEnd.toNat = 588 ∧
    sigma full.parsed.regs.pHdr.pMode.toNat (579 + 8) / 3 < full.n := by
  rw [full, coded_parsed _ _ (by decide) (by decide)]; decide +kernel

theorem witness_DecodeExtractsPayload :
    DecodePremises full ∧ decodeCheck full.parsed = .none ∧ full.parsed.regs.encEnd.toNat = 588 ∧
    ∀ k, k ≤ sigma full.parsed.regs.pHdr.pMode.toNat (579 + 8) / 3 → full.hasPixel k :=
  ⟨coded_premises rfl full_fits (by decide +kernel), full_parsed.1, full_parsed.2.1,
    fun _ hk => hasPixel_of_fitsImage full_fits (Nat.lt_of_le_of_lt hk full_parsed.2.2)⟩

theorem witness_DecodeReadsHeaderFromImage : 579 < 580 ∧ 63 < 64 := by decide

theorem witness_EncodeDecodeRoundTrip :
    (fix 14 14 0#3 false 0 1).idle ∧ (fix 14 14 0#3 false 0 1).fitsImage ∧
    (fix 14 14 0#3 false 0 1).params.decEndRule = .dataBits ∧ encodeCheck (fix 14 14 0#3 false 0 1) = .none ∧
    580 ≤ 3 * (fix 14 14 0#3 false 0 1).n ∧
    8 * (fix 14 14 0#3 false 0 1).len ≤ payloadCapacity (fix 14 14 0#3 false 0 1).mode (fix 14 14 0#3 false 0 1).n ∧
    encodeCheck (fix 14 14 0#3 true 64 1) = .none ∧ (fix 14 14 0#3 true 64 1).regs.cfg.isFile = true :=
  ⟨encodes.1, fix_fits, rfl, encodes.2.1, encodes.2.2.1, encodes.2.2.2.1, by decide +kernel, rfl⟩

/-- The decoder of a chip built with the SLOTS rule. -/
def slotsFix (w h len : Nat) : State :=
  { fix w h 1#3 false 0 len with params := { Params.default with decEndRule := .slots } }

/-- EV-5's geometry with one byte, and PROG-3's with three. -/
theorem witness_SlotsRuleLosesModeOnePayload :
    ((slotsFix 20 10 1).idle ∧ (slotsFix 20 10 1).fitsImage ∧ (slotsFix 20 10 1).params.decEndRule = .slots ∧
      (slotsFix 20 10 1).mode = 1 ∧ 1 ≤ (slotsFix 20 10 1).len ∧ encodeCheck (slotsFix 20 10 1) = .none ∧
      580 ≤ 3 * (slotsFix 20 10 1).n ∧
      8 * (slotsFix 20 10 1).len ≤ payloadCapacity 1 (slotsFix 20 10 1).n) ∧
    (slotsFix 11 19 3).fitsImage ∧ (slotsFix 11 19 3).len = 3 ∧ encodeCheck (slotsFix 11 19 3) = .none ∧
    8 * (slotsFix 11 19 3).len ≤ payloadCapacity 1 (slotsFix 11 19 3).n := by
  unfold State.idle State.fitsImage; decide +kernel

/-- A register geometry one column wider than the image: pixel 194 of the walk is missing, pixels 0 to 193 are there. -/
theorem witness_WalkStopsOutsideImage :
    (coded 3 2 97 0 596 .dataBits 4096).idle ∧ 580 ≤ 3 * (coded 3 2 97 0 596 .dataBits 4096).n ∧
    ¬ (coded 3 2 97 0 596 .dataBits 4096).hasPixel 194 ∧
    (∀ j, j ≤ 193 → (coded 3 2 97 0 596 .dataBits 4096).hasPixel j) ∧
    decodeCheck (coded 3 2 97 0 596 .dataBits 4096).parsed = .none ∧
    194 ≤ sigma (coded 3 2 97 0 596 .dataBits 4096).parsed.regs.pHdr.pMode.toNat
      (579 + payloadBits .dataBits (coded 3 2 97 0 596 .dataBits 4096).parsed.regs.pHdr.pMode.toNat
        (coded 3 2 97 0 596 .dataBits 4096).parsed.regs.encEnd.toNat) / 3 := by
  rw [coded_parsed _ _ (by decide) (by decide)]
  unfold State.idle State.hasPixel; decide +kernel

/-- For ENCODE, and for phase 1: the image is one column narrower than the registers say. -/
theorem witness_WalkStopsOutsideImage_encode :
    encodeCheck (coded 2 1 97 0 580 .dataBits 4096) = .none ∧ 580 ≤ 3 * (coded 2 1 97 0 580 .dataBits 4096).n ∧
    8 * (coded 2 1 97 0 580 .dataBits 4096).len ≤
      payloadCapacity (coded 2 1 97 0 580 .dataBits 4096).mode (coded 2 1 97 0 580 .dataBits 4096).n ∧
    193 ≤ (coded 2 1 97 0 580 .dataBits 4096).lastSlot / 3 ∧
    ¬ (coded 2 1 97 0 580 .dataBits 4096).hasPixel 193 ∧ (coded 2 1 97 0 580 .dataBits 4096).idle := by
  unfold State.idle State.hasPixel; decide +kernel

theorem witness_DecodeIgnoresConfiguration : ∃ t, exec .decode (fix 4 4 0#3 false 0 0) = .next t := by
  obtain ⟨t, ht, _⟩ := after_exists (r := exec .decode (fix 4 4 0#3 false 0 0)) (p := fun _ => true) (by decide +kernel)
  exact ⟨t, ht⟩

/-- Every command completes from reset. -/
theorem witness_CommandWriteSets : ∀ i : Instr, State.reset.idle ∧ ∃ t, exec i State.reset = .next t := by
  intro i
  refine ⟨rfl, ?_⟩
  obtain ⟨t, ht, _⟩ := after_exists (r := exec i State.reset) (p := fun _ => true) (by cases i <;> decide +kernel)
  exact ⟨t, ht⟩

theorem witness_ErrorsArePrecise :
    (∃ t, exec .encode (fix 4 4 0#3 false 0 2) = .next t ∧ t.regs.status.errCode = .imageTooSmall) ∧
    (∃ t, exec .encode State.reset = .next t ∧ t.regs.status.errCode = .badGeometry) ∧
    (∃ t, exec .decode State.reset = .next t ∧ t.regs.status.errCode = .badGeometry) ∧
    (∃ t, exec .hdrBuild (fix 0 0 3#3 false 0 0) = .next t ∧ t.regs.status.errCode = .modeReserved) ∧
    (fix 4 4 0#3 false 0 2).idle ∧ State.reset.idle ∧ State.reset.w = 0 ∧ (fix 0 0 3#3 false 0 0).idle := by
  have key : ∀ {i : Instr} {s : State} {e : ErrCode},
      after (exec i s) (fun t => t.regs.status.errCode == e) = true →
      ∃ t, exec i s = .next t ∧ t.regs.status.errCode = e := by
    intro i s e h
    obtain ⟨t, ht, hp⟩ := after_exists h
    exact ⟨t, ht, by simpa using hp⟩
  exact ⟨key (by decide +kernel), key (by decide +kernel), key (by decide +kernel), key (by decide +kernel), rfl, rfl,
    rfl, rfl⟩

theorem witness_CommandsReportTheirErrors : State.reset.idle ∧ ∃ t, exec .nop State.reset = .next t :=
  witness_CommandWriteSets .nop

theorem witness_InterruptOutput :
    (0x00000002#32 : Word).getLsbD 1 = true ∧ (0x00010000#32 : Word).getLsbD 1 = false ∧ State.reset.idle :=
  ⟨by decide, by decide, rfl⟩

/-- ACCERR set, then cleared by a STATUS write and by `rst`. -/
theorem witness_AccErrIsSticky :
    (∃ t, step { setAccErr State.reset with inputs := [.access (Access.wr 0x00C#32 0x00010000#32)] } = .next t ∧
      t.regs.status.accErr = false) ∧
    (∃ t, step { setAccErr State.reset with inputs := [.rst true] } = .next t ∧ t.regs.status.accErr = false) ∧
    (setAccErr State.reset).regs.status.accErr = true := by
  have key : ∀ {s : State}, after (step s) (fun t => !t.regs.status.accErr) = true →
      ∃ t, step s = .next t ∧ t.regs.status.accErr = false := by
    intro s h
    obtain ⟨t, ht, hp⟩ := after_exists h
    exact ⟨t, ht, by simpa using hp⟩
  exact ⟨key (by decide), key (by decide), rfl⟩

/-- DONE rises by the engine's completion step and by a waited NOP. -/
theorem witness_DoneRisesOnlyAtCompletion :
    (∃ t, step (raiseError .none accepted) = .next t ∧ t.regs.status.done = true) ∧
    (∃ t, step { State.reset with inputs := [.call 0x00000000#32] } = .next t ∧ t.regs.status.done = true) ∧
    (raiseError .none accepted).regs.status.done = false ∧ State.reset.regs.status.done = false := by
  have key : ∀ {s : State}, after (step s) (fun t => t.regs.status.done) = true →
      ∃ t, step s = .next t ∧ t.regs.status.done = true := fun h => after_exists h
  exact ⟨key (by decide), key (by decide), rfl, rfl⟩

theorem witness_ConfigurationReadAfterWrite : State.reset.idle := rfl

theorem witness_ReadOnlyRegisters : State.reset.idle ∧ 0x02C#32 ∈ [0x000#32, 0x020#32, 0x024#32, 0x028#32, 0x02C#32] :=
  ⟨rfl, by decide⟩

theorem witness_BufferWords :
    State.reset.idle ∧ State.reset.params.wf = true ∧ 15 < 16 ∧ 4 * 1023 < State.reset.params.pbufBytes ∧
    (63 : Nat) / 4 = 15 := ⟨rfl, by decide, by decide, by decide, by decide⟩

theorem witness_HdrWords : State.reset.idle ∧ 18 < 19 ∧ 579 < 580 ∧ 31 < 32 := ⟨rfl, by decide, by decide, by decide⟩

/-- Both ends of every reserved range. -/
theorem witness_ReservedOffsets :
    State.reset.idle ∧ (0x030 ≤ (0x030#32 : Word).toNat ∧ (0x0FC#32 : Word).toNat ≤ 0x0FC) ∧
    (0x140 ≤ (0x140#32 : Word).toNat ∧ (0x1FC#32 : Word).toNat ≤ 0x1FC) ∧
    (0x24C ≤ (0x24C#32 : Word).toNat ∧ (0xFFC#32 : Word).toNat ≤ 0xFFC) ∧
    0x1000 + State.reset.params.pbufBytes ≤ (0x2000#32 : Word).toNat ∧ (0x2000#32 : Word).toNat % 4 = 0 :=
  ⟨rfl, by decide⟩

theorem witness_UnsupportedAccess :
    ({ dir := .read, size := .byte, offset := 0x010#32 } : Access).size ≠ .word ∧
    ({ dir := .write 1#32, size := .half, offset := 0x010#32 } : Access).size ≠ .word ∧
    (Access.rd 0x011#32).offset.toNat % 4 ≠ 0 ∧ (Access.wr 0x013#32 1#32).offset.toNat % 4 ≠ 0 := by decide

/-- The first and last word of each window. -/
theorem witness_BusyAccesses :
    ¬ walking.idle ∧ 0x008#32 ∈ [0x008#32, 0x010#32, 0x014#32, 0x018#32, 0x01C#32] ∧
    0x020#32 ∈ [0x020#32, 0x024#32, 0x028#32, 0x02C#32] ∧
    (0x100 ≤ (0x100#32 : Word).toNat ∧ (0x13C#32 : Word).toNat < 0x140) ∧
    (0x200 ≤ (0x200#32 : Word).toNat ∧ (0x248#32 : Word).toNat < 0x24C) ∧
    (0x1000 ≤ (0x1000#32 : Word).toNat ∧ (0x1FFC#32 : Word).toNat < 0x1000 + walking.params.pbufBytes) := by
  refine ⟨by unfold State.idle; decide +kernel, by decide, by decide, by decide, by decide, by decide, ?_⟩
  decide +kernel

theorem witness_PixelReadAndWrite :
    (fix 14 14 0#3 false 0 1).idle ∧ (fix 14 14 0#3 false 0 1).image.has 13 13 = true ∧
    (fix 14 14 0#3 false 0 1).image.has 0 13 = true ∧ ((0, 13) : Nat × Nat) ≠ (13, 13) ∧
    ¬ accepted.idle ∧ accepted.image.has 13 13 = true ∧ accepted.eng.cmd ≠ 0x00000001#32 := by
  unfold State.idle; decide +kernel

theorem witness_WalkStaysInBounds : Inv walking ∧ walking.eng.phase = .encWalk :=
  ⟨walking_inv, by decide +kernel⟩

/-- The step that writes back pixel 0, and a collaborator's write. -/
theorem witness_OnlyEncodeAndCollaboratorChangeImage :
    (∃ u t, runEngine 2 walking = .next u ∧ step u = .next t ∧ t.image ≠ u.image) ∧
    ∃ t, step { fix 1 1 0#3 false 0 0 with inputs := [.writePixel 0 0 { r := 9#8, g := 9#8, b := 9#8 }] } = .next t ∧
      t.image ≠ (fix 1 1 0#3 false 0 0).image := by
  constructor
  · obtain ⟨u, hu, hp⟩ := after_exists (r := runEngine 2 walking)
      (p := fun u => after (step u) (fun t => t.image != u.image)) (by decide +kernel)
    obtain ⟨t, ht, hq⟩ := after_exists hp
    exact ⟨u, t, hu, ht, by simpa using hq⟩
  · obtain ⟨t, ht, hq⟩ := after_exists
      (r := step { fix 1 1 0#3 false 0 0 with inputs := [.writePixel 0 0 { r := 9#8, g := 9#8, b := 9#8 }] })
      (p := fun t => t.image != (fix 1 1 0#3 false 0 0).image) (by decide +kernel)
    exact ⟨t, ht, by simpa using hq⟩

theorem witness_ResetInput : ({ walking with inputs := [.rst true] } : State).inputs = .rst true :: [] := rfl

theorem witness_StepKeepsInvariant : Inv walking ∧ ∃ t, step walking = .next t := by
  obtain ⟨t, ht, _⟩ := after_exists (r := step walking) (p := fun _ => true) (by decide +kernel)
  exact ⟨walking_inv, t, ht⟩

theorem witness_ConfigurationStableWhileBusy :
    ¬ walking.idle ∧ walking.rst = false ∧ (∀ rest, walking.inputs ≠ .rst true :: rest) ∧ ∃ t, step walking = .next t :=
  ⟨by unfold State.idle; decide +kernel, by decide +kernel, fun rest h => (by cases h), witness_StepKeepsInvariant.2⟩

/-- `rst` held in the middle of an ENCODE, with each kind of input next. -/
theorem witness_AssertedResetHoldsBlock :
    held.rst = true ∧ held.inputs = [] ∧
    ({ held with inputs := [.engine] } : State).inputs = .engine :: [] ∧
    ({ held with inputs := [.access (Access.wr 0x008#32 1#32)] } : State).inputs =
      .access (Access.wr 0x008#32 1#32) :: [] ∧
    ({ held with inputs := [.call 1#32] } : State).inputs = .call 1#32 :: [] ∧
    ({ held with inputs := [.rst false] } : State).inputs = .rst false :: [] ∧ ∃ t, step held = .next t :=
  ⟨rfl, by decide +kernel, rfl, rfl, rfl, rfl, _, step_inReset_nil (by decide +kernel) rfl⟩

/-- The stops can be reached: the race, and a pixel that the image does not have. -/
theorem witness_StopsAreNamed :
    (match step { walking with inputs := [.readPixel 0 0] } with
      | .fault f => f == .imageRace
      | .next _ => false
      | .refused _ => false) = true ∧
    (match step { State.reset with inputs := [.readPixel 0 0] } with
      | .refused r => r == .pixelOutsideImage
      | .next _ => false
      | .fault _ => false) = true := by decide +kernel

end Sys2Proof.Tests
end

section
/-! SUPPORT. The input that a step takes, and what one input can do: the rules the state's statements rest on. -/

namespace Sys2Proof.Machine

/-! ### the input that a step takes (log 1) -/

/-- The input that the next step takes: the head of the pending ones, else the engine's own step. -/
def State.nextInput (s : State) : Input := s.inputs.headD .engine

/-- The state from which the next step takes its input. -/
def State.popInput (s : State) : State := { s with inputs := s.inputs.tail }

theorem step_eq_takeInput (s : State) : step s = takeInput s.nextInput s.popInput := by
  cases s with
  | mk regs nbuf hdr pbuf image eng rst params inputs rdata ipix ramEpoch draws => cases inputs <;> rfl

theorem step_outOfReset {s : State} (hr : s.rst = false) : step s = inputOutOfReset s.nextInput s.popInput := by
  rw [step_eq_takeInput, takeInput, if_neg (by simp [State.popInput, hr])]

theorem step_asserted {s : State} (hr : s.rst = true) : step s = inputInReset s.nextInput (resetBlock s.popInput) := by
  rw [step_eq_takeInput, takeInput, if_pos (show s.popInput.rst = true from hr)]

/-- Where the input comes from: no pending input stands for an engine step. -/
theorem inputs_of_nextInput {s : State} {inp : Input} (h : s.nextInput = inp) :
    (s.inputs = [] ∧ inp = .engine) ∨ ∃ rest, s.inputs = inp :: rest := by
  subst h
  unfold State.nextInput
  cases s.inputs with
  | nil => exact .inl ⟨rfl, rfl⟩
  | cons inp rest => exact .inr ⟨rest, rfl⟩

/-! ### waited commands -/

theorem encode_of_decode {v : Word} {i : Instr} (h : decode v = .ok i) : encode i = v := by
  have hopc : ∀ (o : BitVec 4) (i : Instr), decodeOpc o = .ok i → encode i = 0#28 ++ o := by
    intro o i
    cases i <;> (revert o; decide)
  unfold decode at h
  split at h
  · rename_i hr
    have hv : rsvdField v ++ opcField v = v := by
      rw [rsvdField, opcField, BitVec.extractLsb'_append_extractLsb'_eq_extractLsb' (by rfl),
        BitVec.extractLsb'_eq_self]
    rw [hopc _ _ h, ← hr, hv]
  · cases h

/-- Every word, legal or not, is called in the same way (30_encoding.md R92, R105). -/
theorem callWord_eq_callCommand (v : Word) (s : State) : callWord v s = callCommand v s := by
  unfold callWord
  split
  · rename_i i hi
    rw [exec_eq_callCommand, encode_of_decode hi]
  · rfl

/-! ### the collaborator's accesses (20_memory.md R66) -/

theorem loadImage_eq_next {w h : Nat} {cs : List Byte} {s t : State} (ht : loadImage w h cs s = .next t) :
    t = { s with image := Image.ofChannels w h cs } := by
  unfold loadImage at ht
  split at ht <;> cases ht
  rfl

theorem readPixel_eq_next {x y : Nat} {s t : State} (ht : readPixel x y s = .next t) :
    t = { s with ipix := t.ipix } := by
  unfold readPixel at ht
  split at ht
  · cases ht
  · split at ht <;> cases ht
    rfl

theorem writePixel_eq_next {x y : Nat} {p : Pixel} {s t : State} (ht : writePixel x y p s = .next t) :
    s.image.has x y = true ∧ t = { s with image := s.image.setPixel x y p } := by
  unfold writePixel at ht
  split at ht
  · cases ht
  · split at ht <;> cases ht
    exact pixWrite_eq_some.mp ‹_›

/-! ### host accesses -/

/-- A host access sets ACCERR, or is a read, or is a word write that no hazard drops (20_memory.md R62,
70_reset_and_hazards.md R287). -/
theorem hostAccess_cases (a : Access) (s : State) :
    (∃ d n, hostAccess a s = setAccErr { s with rdata := d, draws := n }) ∨
    (∃ d, hostAccess a s = { s with rdata := d }) ∨
    ∃ v r, (s.regs.status.busy && r.writeIsHazard) = false ∧ hostAccess a s = writeReg s v r := by
  unfold hostAccess
  split
  · split
    · unfold wordRead
      split
      · exact .inl ⟨_, _, rfl⟩
      · exact .inr (.inl ⟨_, rfl⟩)
    · unfold wordWrite
      split
      · exact .inl ⟨s.rdata, s.draws, rfl⟩
      · exact .inr (.inr ⟨_, _, Bool.eq_false_of_not_eq_true ‹_›, rfl⟩)
  · unfold unsupportedAccess
    split
    · exact .inl ⟨0#32, s.draws, rfl⟩
    · exact .inl ⟨s.rdata, s.draws, rfl⟩

theorem issue_cases (v : Word) (s : State) : issue v s = setAccErr s ∨ issue v s = accept v s := by
  unfold issue
  split
  · exact .inl rfl
  · exact .inr rfl

theorem writeReg_params (s : State) (v : Word) (r : HostReg) : (writeReg s v r).params = s.params := by
  cases r with
  | cmd => rcases issue_cases v s with h | h <;> simp [writeReg, h]
  | _ => rfl

theorem hostAccess_params (a : Access) (s : State) : (hostAccess a s).params = s.params := by
  rcases hostAccess_cases a s with ⟨d, n, h⟩ | ⟨d, h⟩ | ⟨v, r, -, h⟩ <;> rw [h]
  · rfl
  · exact writeReg_params s v r

/-- No write sets DONE. -/
theorem writeReg_done {s : State} {v : Word} {r : HostReg} (h : (writeReg s v r).regs.status.done = true) :
    s.regs.status.done = true := by
  cases r with
  | cmd =>
    rcases issue_cases v s with hi | hi
    · simpa [writeReg, hi] using h
    · simp [writeReg, hi] at h
  | status =>
    simp [writeReg, Status.w1c] at h
    exact h.1
  | _ => exact h

theorem hostAccess_done {a : Access} {s : State} (h : (hostAccess a s).regs.status.done = true) :
    s.regs.status.done = true := by
  rcases hostAccess_cases a s with ⟨d, n, e⟩ | ⟨d, e⟩ | ⟨v, r, -, e⟩ <;> rw [e] at h
  · exact h
  · exact h
  · exact writeReg_done h

/-- The configuration of 10_state.md R49 is the same in both states. -/
def SameConfig (s t : State) : Prop :=
  t.regs.width = s.regs.width ∧ t.regs.height = s.regs.height ∧ t.regs.cfg = s.regs.cfg ∧
    t.regs.payloadLen = s.regs.payloadLen

theorem SameConfig.refl (s : State) : SameConfig s s := ⟨rfl, rfl, rfl, rfl⟩

/-- Writes of the configuration are hazards (70_reset_and_hazards.md R287). -/
theorem writeReg_config {s : State} {r : HostReg} (h : r.writeIsHazard = false) (v : Word) :
    SameConfig s (writeReg s v r) := by
  cases r with
  | cmd => rcases issue_cases v s with hi | hi <;> simp only [writeReg, hi] <;> exact SameConfig.refl s
  | width => cases h
  | height => cases h
  | cfg => cases h
  | payloadLen => cases h
  | _ => exact SameConfig.refl s

theorem hostAccess_config {s : State} (hb : s.regs.status.busy = true) (a : Access) :
    SameConfig s (hostAccess a s) := by
  rcases hostAccess_cases a s with ⟨d, n, h⟩ | ⟨d, h⟩ | ⟨v, r, hr, h⟩ <;> rw [h]
  · exact SameConfig.refl s
  · exact SameConfig.refl s
  · exact writeReg_config (by simpa [hb] using hr) v

/-! ### engine steps -/

theorem startCommand_status (i : Instr) (s : State) : (startCommand i s).regs.status = s.regs.status := by
  cases i with
  | nop => rfl
  | encode => simp only [startCommand, startEncode]; split <;> [split; skip] <;> rfl
  | decode => simp only [startCommand, startDecode]; split <;> [skip; split] <;> rfl
  | hdrBuild => simp only [startCommand, startHdrBuild]; split <;> rfl
  | hdrParse => rfl

theorem parsePoint_status (s : State) : (parsePoint s).regs.status = s.regs.status := by
  simp only [parsePoint]; split <;> rfl

/-- Only completion changes STATUS (45_control.md R244). -/
theorem engineStep_status {s t : State} (h : engineStep s = .next t) (hf : s.eng.phase ≠ .finish) :
    t.regs.status = s.regs.status := by
  cases hp : s.eng.phase <;> simp only [engineStep, hp] at h
  case idle => cases h; rfl
  case start =>
    cases h
    unfold startWord
    split
    · exact startCommand_status _ s
    · rfl
  case encWalk =>
    rcases encWalkStep_cases s with ⟨-, e⟩ | ⟨p, -, ⟨-, -, e⟩ | ⟨-, -, e⟩ | ⟨-, -, e⟩⟩ <;> rw [e] at h <;> cases h
    · rfl
    · dsimp only; split <;> rfl
  case decHdr =>
    rcases decHdrStep_cases s with ⟨-, e⟩ | ⟨p, -, e⟩ <;> rw [e] at h <;> cases h
    dsimp only
    split
    · exact parsePoint_status _
    · rfl
  case decPay =>
    rcases decPayStep_cases s with ⟨-, e⟩ | ⟨-, -, e⟩ | ⟨-, p, -, ⟨-, e⟩ | ⟨-, e⟩⟩ <;> rw [e] at h <;> cases h
    · rfl
    · rw [packBit_frame]; rfl
    · rfl
  case finish => exact absurd hp hf

theorem engineStep_params {s t : State} (h : engineStep s = .next t) : t.params = s.params := by
  obtain ⟨-, -, hp, -⟩ := engineStep_frame h
  exact hp

theorem engineStep_config {s t : State} (h : engineStep s = .next t) : SameConfig s t := by
  obtain ⟨-, -, -, -, hw, hh, hc, hl, -⟩ := engineStep_frame h
  exact ⟨hw, hh, hc, hl⟩

theorem callCommand_params {v : Word} {s t : State} (h : callCommand v s = .next t) : t.params = s.params := by
  cases hb : s.regs.status.busy with
  | true =>
    rw [callCommand_busy hb] at h
    cases h
    rfl
  | false =>
    rw [callCommand_idle hb] at h
    exact runEngine_induct (P := fun u => u.params = s.params) (fun _ _ hu e => (engineStep_params e).trans hu)
      (accept_params v s) h

end Sys2Proof.Machine
end

section
/-! SUPPORT. O57: every step keeps the invariant, one lemma per kind of input. -/

namespace Sys2Proof.Machine

theorem inv_engineStep {s t : State} (h : Inv s) (ht : engineStep s = .next t) : Inv t := by
  cases hp : s.eng.phase <;> simp only [engineStep, hp] at ht
  case idle => cases ht; exact h
  case start => cases ht; exact inv_startWord h hp
  case encWalk => exact inv_encWalk h hp ht
  case decHdr => exact inv_decHdr h hp ht
  case decPay => exact inv_decPay h hp ht
  case finish => cases ht; exact inv_complete h

theorem inv_callCommand {v : Word} {s t : State} (h : Inv s) (ht : callCommand v s = .next t) : Inv t := by
  cases hb : s.regs.status.busy with
  | true =>
    rw [callCommand_busy hb] at ht
    cases ht
    exact inv_setAccErr h
  | false =>
    rw [callCommand_idle hb] at ht
    exact runEngine_induct (fun _ _ => inv_engineStep) (inv_accept h v) ht

/-- The invariant asks of the image only that its memory is canonical and inside its space. -/
theorem inv_withImage {s : State} (h : Inv s) {img : Image} (hw : img.cells.wf = true)
    (hb : Memory.below (3 * (img.width * img.height)) img.cells = true) : Inv { s with image := img } := by
  obtain ⟨hp, ⟨hn, hn', hpb, hpb', -, -⟩, hs, he⟩ := h
  exact ⟨hp, ⟨hn, hn', hpb, hpb', hw, hb⟩, hs, he⟩

theorem inv_loadImage {w hh : Nat} {cs : List Byte} {s t : State} (h : Inv s) (ht : loadImage w hh cs s = .next t) :
    Inv t := by
  rw [loadImage_eq_next ht]
  exact inv_withImage h (Image.ofChannels_wf w hh cs) (Image.ofChannels_below w hh cs)

theorem inv_readPixel {x y : Nat} {s t : State} (h : Inv s) (ht : readPixel x y s = .next t) : Inv t := by
  rw [readPixel_eq_next ht]
  exact h

theorem inv_writePixel {x y : Nat} {p : Pixel} {s t : State} (h : Inv s) (ht : writePixel x y p s = .next t) :
    Inv t := by
  obtain ⟨hxy, rfl⟩ := writePixel_eq_next ht
  obtain ⟨-, ⟨-, -, -, -, hw, hb⟩, -, -⟩ := id h
  exact inv_withImage h (Image.setPixel_wf p hw) (Image.setPixel_below p hxy hb)

theorem inv_inputOutOfReset {inp : Input} {s t : State} (h : Inv s) (ht : inputOutOfReset inp s = .next t) :
    Inv t := by
  cases inp with
  | access a => cases ht; exact inv_hostAccess h a
  | call v => exact inv_callCommand h ((callWord_eq_callCommand v s).symm.trans ht)
  | engine => exact inv_engineStep h ht
  | rst level => cases ht; exact inv_driveRst h level
  | loadImage w hh cs => exact inv_loadImage h ht
  | readPixel x y => exact inv_readPixel h ht
  | writePixel x y p => exact inv_writePixel h ht

/-- While `rst` is asserted only the collaborator changes anything that the invariant speaks of. -/
theorem inv_inputInReset {inp : Input} {s t : State} (h : Inv s) (ht : inputInReset inp s = .next t) : Inv t := by
  cases inp with
  | access a => cases ht; exact h
  | call v => cases ht; exact h
  | engine => cases ht; exact h
  | rst level => cases ht; exact h
  | loadImage w hh cs => exact inv_loadImage h ht
  | readPixel x y => exact inv_readPixel h ht
  | writePixel x y p => exact inv_writePixel h ht

theorem inv_popInput {s : State} (h : Inv s) : Inv s.popInput := h

/-- Settles O57: out of reset each input keeps the invariant; while `rst` is asserted the input meets the reset block. -/
theorem stepKeepsInvariant : Obligations.StepKeepsInvariant := by
  intro s t h ht
  cases hr : s.rst with
  | false => exact inv_inputOutOfReset (inv_popInput h) (step_outOfReset hr ▸ ht)
  | true => exact inv_inputInReset (inv_resetBlock (inv_popInput h)) (step_asserted hr ▸ ht)

end Sys2Proof.Machine
end

section
/-! SUPPORT. O44, O45, O46, O49: word accesses of the register page and of the reserved offsets. -/

namespace Sys2Proof.Machine

/-! ### word accesses of the register page -/

theorem hostAccess_wr_page {off : Word} (ha : off.toNat % 4 = 0) (hp : off.toNat < 0x100) (v : Word) (s : State) :
    hostAccess (Access.wr off v) s = wordWrite s v (pageReg off.toNat) := by
  rw [hostAccess_wr ha, regAt_page hp]

theorem hostAccess_rd_page {off : Word} (ha : off.toNat % 4 = 0) (hp : off.toNat < 0x100) (s : State) :
    hostAccess (Access.rd off) s = wordRead s (pageReg off.toNat) := by
  rw [hostAccess_rd ha, regAt_page hp]

/-- A write to a register of the page while idle, and the read after it where the write leaves the block idle. -/
theorem wr_rd_page {s : State} (hi : s.idle) {off v d : Word} {r : HostReg} (ha : off.toNat % 4 = 0)
    (hp : off.toNat < 0x100) (hr : pageReg off.toNat = r) (hi' : (writeReg s v r).idle)
    (hd : readReg (writeReg s v r) r = d) :
    hostAccess (Access.wr off v) s = writeReg s v r ∧
      (hostAccess (Access.rd off) (hostAccess (Access.wr off v) s)).rdata = d := by
  have hw : hostAccess (Access.wr off v) s = writeReg s v r := by
    rw [hostAccess_wr_page ha hp, hr, wordWrite_idle hi]
  refine ⟨hw, ?_⟩
  rw [hw, hostAccess_rd_page ha hp, hr, wordRead_idle hi']
  exact hd

theorem rd_page_idle {s : State} (hi : s.idle) {off : Word} (ha : off.toNat % 4 = 0) (hp : off.toNat < 0x100) :
    hostAccess (Access.rd off) s = { s with rdata := readReg s (pageReg off.toNat) } := by
  rw [hostAccess_rd_page ha hp, wordRead_idle hi]

theorem rd_page_free {off : Word} (ha : off.toNat % 4 = 0) (hp : off.toNat < 0x100)
    (hf : (pageReg off.toNat).readIsHazard = false) (s : State) :
    hostAccess (Access.rd off) s = { s with rdata := readReg s (pageReg off.toNat) } := by
  rw [hostAccess_rd_page ha hp, wordRead_free hf]

theorem wr_page_free {off : Word} (ha : off.toNat % 4 = 0) (hp : off.toNat < 0x100)
    (hf : (pageReg off.toNat).writeIsHazard = false) (v : Word) (s : State) :
    hostAccess (Access.wr off v) s = writeReg s v (pageReg off.toNat) := by
  rw [hostAccess_wr_page ha hp, wordWrite_free hf]

/-! ### registers as words (10_state.md R23, R25 to R28, R32) -/

theorem ctrlToWord_getLsbD_zero (v : Word) : ctrlToWord (v.getLsbD 0) = v &&& 0x00000001#32 := by
  apply BitVec.eq_of_getLsbD_eq
  intro i hi
  simp only [ctrlToWord, BitVec.getLsbD_append]
  interval_cases i <;> simp

theorem setWidth_extractLsb'_half (v : Word) :
    BitVec.setWidth 32 (v.extractLsb' 0 16) = v &&& 0x0000FFFF#32 := by
  apply BitVec.eq_of_getLsbD_eq
  intro i hi
  interval_cases i <;> simp

theorem Cfg.toWord_ofWord (v : Word) : (Cfg.ofWord v).toWord = v &&& 0x007F0107#32 := by
  apply BitVec.eq_of_getLsbD_eq
  intro i hi
  simp only [Cfg.ofWord, Cfg.toWord, BitVec.getLsbD_append]
  interval_cases i <;> simp

theorem Status.toWord_flags (st : Status) :
    st.toWord.getLsbD 0 = st.busy ∧ st.toWord.getLsbD 1 = st.done ∧ st.toWord.getLsbD 2 = st.err ∧
      st.toWord.getLsbD 16 = st.accErr := by
  simp only [Status.toWord, BitVec.getLsbD_append]
  simp

theorem Status.toWord_errCode (st : Status) : st.toWord.extractLsb' 8 4 = st.errCode.code := by
  apply BitVec.eq_of_getLsbD_eq
  intro i hi
  simp only [Status.toWord, BitVec.getLsbD_append, BitVec.getLsbD_extractLsb']
  interval_cases i <;> simp

theorem Status.toWord_reserved (st : Status) : st.toWord &&& 0xFFFEF0F8#32 = 0#32 := by
  apply BitVec.eq_of_getLsbD_eq
  intro i hi
  simp only [Status.toWord, BitVec.getLsbD_append, BitVec.getLsbD_and]
  interval_cases i <;> simp

theorem PHdr.toWord_pMode (p : PHdr) : p.toWord.extractLsb' 0 3 = p.pMode := by
  apply BitVec.eq_of_getLsbD_eq
  intro i hi
  simp only [PHdr.toWord, BitVec.getLsbD_append, BitVec.getLsbD_extractLsb']
  interval_cases i <;> simp

theorem PHdr.toWord_pFileType (p : PHdr) : p.toWord.getLsbD 8 = p.pFileType := by
  simp only [PHdr.toWord, BitVec.getLsbD_append]
  simp

theorem PHdr.toWord_reserved (p : PHdr) : p.toWord &&& 0xFFFFFEF8#32 = 0#32 := by
  apply BitVec.eq_of_getLsbD_eq
  intro i hi
  simp only [PHdr.toWord, BitVec.getLsbD_append, BitVec.getLsbD_and]
  interval_cases i <;> simp

/-! ### word 18 of HDR, of which only bits [31:28] exist (10_state.md R37, 20_memory.md R65) -/

theorem hdrBit_past {h : HdrBits} {n : Nat} (hn : 580 ≤ n) : hdrBit h n = false :=
  BitVec.getMsbD_of_ge h n hn

theorem hdrWord_18_low (h : HdrBits) : hdrWord h 18 &&& 0x0FFFFFFF#32 = 0#32 := by
  apply BitVec.eq_of_getMsbD_eq
  intro t ht
  rw [BitVec.getMsbD_and, hdrWord_getMsbD]
  by_cases h4 : t < 4
  · have hmask : (0x0FFFFFFF#32).getMsbD t = false := by interval_cases t <;> decide
    simp [hmask]
  · simp [hdrBit_past (h := h) (n := 32 * 18 + t) (by omega)]

theorem hdrSetWord_18 (h : HdrBits) (v : Word) : hdrSetWord h 18 v = hdrSetWord h 18 (v &&& 0xF0000000#32) := by
  apply BitVec.eq_of_getMsbD_eq
  intro n hn
  change hdrBit _ n = hdrBit _ n
  rw [hdrBit_hdrSetWord, hdrBit_hdrSetWord]
  by_cases hw : n / 32 = 18
  · have hmask : (0xF0000000#32).getMsbD (n % 32) = true := by
      have ht : n % 32 < 4 := by omega
      generalize n % 32 = t at ht
      interval_cases t <;> decide
    simp [hw, BitVec.getMsbD_and, hmask]
  · simp [hw]

/-! ### the statements -/

/-- Settles O44, register by register: the stored fields, as a word, are the written bits under the register's mask. -/
theorem configurationReadAfterWrite : Obligations.ConfigurationReadAfterWrite := by
  intro s v hi
  refine ⟨?ctrl, ?width, ?height, ?cfg, ?payloadLen⟩
  case ctrl =>
    exact wr_rd_page hi (r := .ctrl) (by decide) (by decide) rfl hi (ctrlToWord_getLsbD_zero v)
  case width =>
    exact wr_rd_page hi (r := .width) (by decide) (by decide) rfl hi (setWidth_extractLsb'_half v)
  case height =>
    exact wr_rd_page hi (r := .height) (by decide) (by decide) rfl hi (setWidth_extractLsb'_half v)
  case cfg =>
    exact wr_rd_page hi (r := .cfg) (by decide) (by decide) rfl hi (Cfg.toWord_ofWord v)
  case payloadLen =>
    exact wr_rd_page hi (r := .payloadLen) (by decide) (by decide) rfl hi rfl

/-- Settles O45: STATUS is no hazard in either direction, so its read is `Status.toWord` and its write `Status.w1c`. -/
theorem statusRegister : Obligations.StatusRegister := by
  intro s v
  obtain ⟨hbusy, hdone, herr, hacc⟩ := Status.toWord_flags s.regs.status
  refine ⟨⟨s.regs.status.toWord, rd_page_free (by decide) (by decide) rfl s, hbusy, hdone, herr,
    Status.toWord_errCode _, hacc, Status.toWord_reserved _⟩, wr_page_free (by decide) (by decide) rfl v s, ?_⟩
  decide

/-- Settles O46: no access of a read-only register is a hazard, except a read of a result while BUSY. -/
theorem readOnlyRegisters : Obligations.ReadOnlyRegisters := by
  intro s v
  refine ⟨?writes, rd_page_free (by decide) (by decide) rfl s, rd_page_free (by decide) (by decide) rfl s, ?results⟩
  case writes =>
    simp only [List.forall_mem_cons, List.not_mem_nil, false_imp_iff, implies_true, and_true]
    refine ⟨?_, ?_, ?_, ?_, ?_⟩ <;> exact wr_page_free (by decide) (by decide) rfl v s
  case results =>
    intro hi
    exact ⟨rd_page_idle hi (by decide) (by decide), rd_page_idle hi (by decide) (by decide),
      rd_page_idle hi (by decide) (by decide), s.regs.pHdr.toWord, rd_page_idle hi (by decide) (by decide),
      PHdr.toWord_pMode _, PHdr.toWord_pFileType _, PHdr.toWord_reserved _⟩

/-- Settles O49: a reserved offset names no register; word 18 of HDR keeps and gives bits [31:28] only. -/
theorem reservedOffsets : Obligations.ReservedOffsets := by
  intro s off v ha hoff
  have hres : regAt s.params.pbufBytes off.toNat = .reserved :=
    regAt_reserved (by omega) (by omega) (by omega) (by omega)
  refine ⟨?read, ?write, ?word18⟩
  case read => rw [hostAccess_rd ha, hres, wordRead_free rfl]; rfl
  case write => rw [hostAccess_wr ha, hres, wordWrite_free rfl]; rfl
  case word18 =>
    intro hi
    have ha18 : (0x248#32 : Word).toNat % 4 = 0 := by decide
    have h18 : regAt s.params.pbufBytes (0x248#32 : Word).toNat = .hdr 18 :=
      regAt_hdr_word (by decide) (by decide)
    constructor
    · rw [hostAccess_rd ha18, h18, wordRead_idle hi]
      exact hdrWord_18_low s.hdr
    · rw [hostAccess_wr ha18, hostAccess_wr ha18, h18, wordWrite_idle hi, wordWrite_idle hi, writeReg, writeReg,
        hdrSetWord_18]

end Sys2Proof.Machine
end

section
/-! SUPPORT. O43, O58, O55, O56: completion, the configuration while BUSY, and reset. -/

namespace Sys2Proof.Machine

/-- Out of reset DONE rises by the engine's completion step or in a waited call of an idle block. -/
theorem inputOutOfReset_done {inp : Input} {s t : State} (h : inputOutOfReset inp s = .next t)
    (hs : s.regs.status.done = false) (ht : t.regs.status.done = true) :
    (inp = .engine ∧ s.eng.phase = .finish) ∨ (s.idle ∧ ∃ v, inp = .call v) := by
  have stays : t.regs.status.done ≠ s.regs.status.done := by simp [hs, ht]
  cases inp with
  | access a =>
    cases h
    exact absurd (hostAccess_done ht) (by simp [hs])
  | call v =>
    cases hb : s.regs.status.busy with
    | true =>
      change callWord v s = _ at h
      rw [callWord_eq_callCommand, callCommand_busy hb] at h
      cases h
      exact absurd rfl stays
    | false => exact .inr ⟨hb, v, rfl⟩
  | engine =>
    by_cases hf : s.eng.phase = .finish
    · exact .inl ⟨rfl, hf⟩
    · exact absurd (congrArg Status.done (engineStep_status h hf)) stays
  | rst level =>
    cases h
    cases level with
    | false => exact absurd rfl stays
    | true => cases ht
  | loadImage w hh cs =>
    rw [loadImage_eq_next h] at stays
    exact absurd rfl stays
  | readPixel x y =>
    rw [readPixel_eq_next h] at stays
    exact absurd rfl stays
  | writePixel x y p =>
    rw [(writePixel_eq_next h).2] at stays
    exact absurd rfl stays

/-- Settles O43: while `rst` is asserted DONE is 0; out of reset `inputOutOfReset_done` says which inputs raise it. -/
theorem doneRisesOnlyAtCompletion : Obligations.DoneRisesOnlyAtCompletion := by
  intro s t h hs ht
  cases hr : s.rst with
  | true =>
    rw [step_inReset hr h] at ht
    cases ht
  | false =>
    refine ⟨rfl, ?_⟩
    rw [step_outOfReset hr] at h
    rcases inputOutOfReset_done h hs ht with ⟨hin, hf⟩ | ⟨hi, v, hin⟩
    · rcases inputs_of_nextInput hin with ⟨hnil, -⟩ | hcons
      · exact .inl ⟨hf, .inl hnil⟩
      · exact .inl ⟨hf, .inr hcons⟩
    · rcases inputs_of_nextInput hin with ⟨-, hne⟩ | hcons
      · cases hne
      · exact .inr ⟨hi, v, hcons⟩

theorem inputOutOfReset_params {inp : Input} {s t : State} (h : inputOutOfReset inp s = .next t) :
    t.params = s.params := by
  cases inp with
  | access a => cases h; exact hostAccess_params a s
  | call v => exact callCommand_params ((callWord_eq_callCommand v s).symm.trans h)
  | engine => exact engineStep_params h
  | rst level => cases h; cases level <;> rfl
  | loadImage w hh cs => rw [loadImage_eq_next h]
  | readPixel x y => rw [readPixel_eq_next h]
  | writePixel x y p => rw [(writePixel_eq_next h).2]

/-- While BUSY only asserting `rst` changes the configuration (10_state.md R49). -/
theorem inputOutOfReset_config {inp : Input} {s t : State} (h : inputOutOfReset inp s = .next t)
    (hb : s.regs.status.busy = true) (hne : inp ≠ .rst true) : SameConfig s t := by
  cases inp with
  | access a => cases h; exact hostAccess_config hb a
  | call v =>
    change callWord v s = _ at h
    rw [callWord_eq_callCommand, callCommand_busy hb] at h
    cases h
    exact SameConfig.refl s
  | engine => exact engineStep_config h
  | rst level =>
    cases h
    cases level with
    | false => exact SameConfig.refl s
    | true => exact absurd rfl hne
  | loadImage w hh cs => rw [loadImage_eq_next h]; exact SameConfig.refl s
  | readPixel x y => rw [readPixel_eq_next h]; exact SameConfig.refl s
  | writePixel x y p => rw [(writePixel_eq_next h).2]; exact SameConfig.refl s

/-- Settles O58: the parameters stay in every step, the configuration in a step of a busy block that does not assert
`rst`. -/
theorem configurationStableWhileBusy : Obligations.ConfigurationStableWhileBusy := by
  intro s t h
  refine ⟨?params, fun hi hr hrst => ?config⟩
  case params =>
    cases hr : s.rst with
    | true => rw [step_inReset hr h]; rfl
    | false => exact inputOutOfReset_params (s := s.popInput) (step_outOfReset hr ▸ h)
  case config =>
    have hne : s.nextInput ≠ .rst true := by
      intro hin
      rcases inputs_of_nextInput hin with ⟨-, hne⟩ | ⟨rest, hcons⟩
      · cases hne
      · exact hrst rest hcons
    exact inputOutOfReset_config (s := s.popInput) (step_outOfReset hr ▸ h) (Bool.eq_true_of_not_eq_false hi) hne

/-- Asserting `rst`, whether or not it is asserted already: the block takes its reset values. -/
theorem step_rst_true {s : State} {rest : List Input} (h : s.inputs = .rst true :: rest) :
    step s = .next { resetBlock { s with inputs := rest } with rst := true } := by
  cases hr : s.rst with
  | true => rw [step_inReset_cons h hr]; rfl
  | false => rw [step_cons h hr]; rfl

/-- Settles O55. An empty NBUF or PBUF reads as the free values of the new epoch. -/
theorem resetInput : Obligations.ResetInput := by
  refine ⟨fun s rest h => ⟨_, step_rst_true h, ?_⟩, rfl, rfl, rfl, rfl, rfl⟩
  exact ⟨rfl, rfl, rfl, rfl, rfl, rfl, rfl, rfl, fun _ => rfl, fun _ => rfl⟩

/-- Settles O56: the memories are empty, STATUS is 0 and the engine is idle. -/
theorem resetHoldsInvariant : Obligations.ResetHoldsInvariant := by
  refine ⟨by decide, ⟨rfl, rfl, rfl, rfl, rfl, rfl⟩, ?_, engine_of_not ?_⟩
  · unfold StatusSound
    decide
  · decide

end Sys2Proof.Machine
end

section
/-! SUPPORT. O47, O48, O50: word accesses of the buffer windows, and unsupported accesses. -/

namespace Sys2Proof.Machine

/-! ### word `m` of a window (20_memory.md R62 to R65) -/

/-- The offset of word `m` of a window is aligned, and no address wraps. -/
theorem wordOffset_toNat {base m : Nat} (h : base + 4 * m < 2 ^ 32) :
    (BitVec.ofNat 32 (base + 4 * m)).toNat = base + 4 * m := by
  rw [BitVec.toNat_ofNat, Nat.mod_eq_of_lt h]

theorem hostAccess_wr_word {s : State} (hi : s.idle) {base m : Nat} {r : HostReg} (ha : base % 4 = 0)
    (ho : base + 4 * m < 2 ^ 32) (hr : regAt s.params.pbufBytes (base + 4 * m) = r) (v : Word) :
    hostAccess (Access.wr (BitVec.ofNat 32 (base + 4 * m)) v) s = writeReg s v r := by
  have hn := wordOffset_toNat ho
  rw [hostAccess_wr (by omega), hn, hr, wordWrite_idle hi]

theorem hostAccess_rd_word {s : State} (hi : s.idle) {base m : Nat} {r : HostReg} (ha : base % 4 = 0)
    (ho : base + 4 * m < 2 ^ 32) (hr : regAt s.params.pbufBytes (base + 4 * m) = r) :
    hostAccess (Access.rd (BitVec.ofNat 32 (base + 4 * m))) s = { s with rdata := readReg s r } := by
  have hn := wordOffset_toNat ho
  rw [hostAccess_rd (by omega), hn, hr, wordRead_idle hi]

theorem regAt_nbuf_index (p : Nat) {m : Nat} (hm : m < 16) : regAt p (0x100 + 4 * m) = .nbuf m := by
  rw [regAt_nbuf_word (by omega) (by omega)]
  congr 1
  omega

theorem regAt_hdr_index (p : Nat) {m : Nat} (hm : m < 19) : regAt p (0x200 + 4 * m) = .hdr m := by
  rw [regAt_hdr_word (by omega) (by omega)]
  congr 1
  omega

theorem regAt_pbuf_index {p m : Nat} (hm : 4 * m < p) : regAt p (0x1000 + 4 * m) = .pbuf m := by
  rw [regAt_pbuf_word (by omega) (by omega)]
  congr 1
  omega

/-! ### the bytes of NBUF and PBUF (20_memory.md R63, R64) -/

theorem nbufRead_writeLanes (s : State) (m : Nat) (v : Word) (n : Nat) :
    nbufRead { s with nbuf := writeLanes s.nbuf m v } n =
      if n / 4 = m then v.extractLsb' (8 * (n % 4)) 8 else nbufRead s n := by
  rw [nbufRead, writeLanes_read?]
  split <;> rfl

theorem pbufRead_writeLanes (s : State) (m : Nat) (v : Word) (n : Nat) :
    pbufRead { s with pbuf := writeLanes s.pbuf m v } n =
      if n / 4 = m then v.extractLsb' (8 * (n % 4)) 8 else pbufRead s n := by
  rw [pbufRead, writeLanes_read?]
  split <;> rfl

/-- Byte `n` of a buffer `f` in the word that holds it. -/
theorem byte_of_wordOfBytes (f : Nat → Byte) {m n : Nat} (h : n / 4 = m) :
    f n = (wordOfBytes (fun q => f (4 * m + q))).extractLsb' (8 * (n % 4)) 8 := by
  have hlane := wordOfBytes_byteLane (fun q => f (4 * m + q)) (show n % 4 < 4 by omega)
  have hn : 4 * m + n % 4 = n := by omega
  rw [hn] at hlane
  exact hlane.symm

/-- Settles O47: word `m` of a window is its register `m`, and the four byte lanes are those of `writeLanes` and
`wordOfBytes`. -/
theorem bufferWords : Obligations.BufferWords := by
  intro s m v hi hwf
  refine ⟨fun hm => ?nbuf, fun hm => ?pbuf⟩
  case nbuf =>
    have hr := regAt_nbuf_index s.params.pbufBytes hm
    have ho : 0x100 + 4 * m < 2 ^ 32 := by omega
    exact ⟨⟨writeLanes s.nbuf m v, hostAccess_wr_word hi rfl ho hr v, nbufRead_writeLanes s m v⟩,
      _, hostAccess_rd_word hi rfl ho hr, fun _ => byte_of_wordOfBytes (nbufRead s)⟩
  case pbuf =>
    have hr := regAt_pbuf_index hm
    have ho : 0x1000 + 4 * m < 2 ^ 32 := by
      simp only [Params.wf, Bool.and_eq_true, decide_eq_true_eq] at hwf
      omega
    exact ⟨⟨writeLanes s.pbuf m v, hostAccess_wr_word hi rfl ho hr v, pbufRead_writeLanes s m v⟩,
      _, hostAccess_rd_word hi rfl ho hr, fun _ => byte_of_wordOfBytes (pbufRead s)⟩

/-! ### the bits of HDR (20_memory.md R65) -/

theorem Word.getLsbD_rev (v : Word) {t : Nat} (ht : t < 32) : v.getLsbD (31 - t) = v.getMsbD t := by
  rw [BitVec.getMsbD_eq_getLsbD, decide_eq_true ht, Bool.true_and]

/-- Settles O48: `hdrSetWord` and `hdrWord` say which bits a word of HDR writes and reads, most significant first. -/
theorem hdrWords : Obligations.HdrWords := by
  intro s m v hi hm
  have hr := regAt_hdr_index s.params.pbufBytes hm
  have ho : 0x200 + 4 * m < 2 ^ 32 := by omega
  refine ⟨⟨hdrSetWord s.hdr m v, hostAccess_wr_word hi rfl ho hr v, fun n hn => ?write⟩,
    hdrWord s.hdr m, hostAccess_rd_word hi rfl ho hr, fun t ht => ?read⟩
  case write =>
    rw [hdrBit_hdrSetWord, decide_eq_true hn, Bool.true_and, Word.getLsbD_rev v (Nat.mod_lt n (by decide))]
  case read =>
    rw [Word.getLsbD_rev _ ht, hdrWord_getMsbD, decide_eq_true ht, Bool.true_and]
    split
    · rfl
    · exact hdrBit_past (by omega)

/-! ### unsupported accesses (20_memory.md R62) -/

theorem Access.supported_eq_false {a : Access} (h : a.size ≠ .word ∨ a.offset.toNat % 4 ≠ 0) :
    a.supported = false := by
  rcases h with h | h <;> simp [Access.supported, h]

theorem hostAccess_of_not_supported {a : Access} (h : a.supported = false) (s : State) :
    hostAccess a s = unsupportedAccess a.dir s := by
  rw [hostAccess, h]
  rfl

/-- Settles O50: such an access never reaches the register map. (`unsupportedAccess` is the model's own name.) -/
theorem Access.unsupportedAccess : Obligations.UnsupportedAccess := by
  intro s a h
  rw [hostAccess_of_not_supported (Access.supported_eq_false h)]
  refine ⟨fun hd => ?read, fun v hd => ?write⟩
  case read => rw [hd]; rfl
  case write => rw [hd]; rfl

end Sys2Proof.Machine
end

section
/-! SUPPORT. O52, O53: the pixels of the image collaborator, and the pixels of the engine's walk. -/

namespace Sys2Proof.Machine

/-! ### the collaborator's accesses (20_memory.md R66 to R69) -/

theorem readPixel_of_has {s : State} {x y : Nat} (h : s.image.has x y = true) (he : s.encoding = false) :
    readPixel x y s = .next { s with ipix := s.image.pixel x y } := by
  simp [readPixel, he, pixRead, h]

theorem writePixel_of_has {s : State} {x y : Nat} (h : s.image.has x y = true) (hi : s.idle) (p : Pixel) :
    writePixel x y p s = .next { s with image := s.image.setPixel x y p } := by
  have hb : s.regs.status.busy = false := hi
  simp [writePixel, hb, pixWrite, h]

theorem Image.setPixel_pixel_same (img : Image) (x y : Nat) (p : Pixel) : (img.setPixel x y p).pixel x y = p := by
  simp only [Image.pixel, Image.setPixel_channel_same]
  rfl

theorem Image.setPixel_pixel_other {img : Image} {x y a b : Nat} (p : Pixel) (hy : y < img.height)
    (hb : b < img.height) (h : x ≠ a ∨ y ≠ b) : (img.setPixel x y p).pixel a b = img.pixel a b := by
  simp only [Image.pixel, Image.setPixel_channel_other hy hb h]

/-- Writing back the pixel that is there changes no value of the image memory (20_memory.md R69). -/
theorem Image.setPixel_writeBack (img : Image) (x y a : Nat) :
    (img.setPixel x y (img.pixel x y)).byteAt a = img.byteAt a := by
  rw [Image.setPixel_byteAt]
  split_ifs with hr hg hb
  · rw [hr]; rfl
  · rw [hg]; rfl
  · rw [hb]; rfl
  · rfl

theorem Image.lt_height_of_has {img : Image} {x y : Nat} (h : img.has x y = true) : y < img.height := by
  simp only [Image.has, Bool.and_eq_true, decide_eq_true_eq] at h
  exact h.2

/-- Settles O52: a pixel write is `Image.setPixel`, whose channels at other pixels stay by the injectivity of the
layout. -/
theorem pixelReadAndWrite : Obligations.PixelReadAndWrite := by
  intro s x y p hxy
  refine ⟨fun h => ?read, fun hi => ?write⟩
  case read =>
    apply readPixel_of_has hxy
    rcases h with hidle | hcmd
    · rw [State.encoding, show s.regs.status.busy = false from hidle, Bool.false_and]
    · rw [State.encoding, encode, beq_eq_false_iff_ne.mpr hcmd, Bool.and_false]
  case write =>
    refine ⟨_, writePixel_of_has hxy hi p, rfl, rfl, rfl, Image.setPixel_pixel_same s.image x y p, ?others, ?back⟩
    case others =>
      intro a b hab hne
      have hdiff : x ≠ a ∨ y ≠ b := by
        by_contra hsame
        push Not at hsame
        exact hne (by rw [hsame.1, hsame.2])
      exact Image.setPixel_pixel_other p (Image.lt_height_of_has hxy) (Image.lt_height_of_has hab) hdiff
    case back =>
      rintro rfl a
      exact Image.setPixel_writeBack s.image x y a

/-! ### the walk (20_memory.md R70, 42_walker.md R182) -/

/-- A pixel index below N = W·H is a position inside W×H. -/
theorem walk_inBounds {w h k : Nat} (hk : k < w * h) : walkX h k < w ∧ walkY h k < h :=
  ⟨walkX_lt hk, walkY_lt (Nat.pos_of_mul_pos_left (Nat.zero_lt_of_lt hk)) k⟩

/-- Phase 2 of a DECODE that still lacks payload bits is at a slot of the walk: the image holds the missing ones. -/
theorem DecPaySound.slot_lt {s : State} (h : DecPaySound s) (hd : s.eng.d ≠ 580 + s.eng.pb) :
    s.eng.s < 3 * s.n := by
  obtain ⟨hn, hc, he, hpb, -, -, -, hcount, hle, -, -⟩ := h
  obtain ⟨-, hav, -, -⟩ := decodeCheck_none hc
  have hcap := payloadBits_le_capacity hav hn
  rw [← he, ← hpb, payloadCapacity] at hcap
  by_contra hge
  have hmono := eligibleCount_mono s.regs.pHdr.pMode.toNat 580 (Nat.le_of_not_lt hge)
  omega

/-- In a sound state the pixel index of a running walk is below N. -/
theorem Inv.walk_lt {s : State} (h : Inv s)
    (hp : s.eng.phase = .encWalk ∨ s.eng.phase = .decHdr ∨ (s.eng.phase = .decPay ∧ s.eng.d ≠ 580 + s.eng.pb)) :
    s.eng.k < s.n := by
  obtain ⟨-, -, -, henc, hhdr, hpay⟩ := h
  rcases hp with hp | hp | ⟨hp, hd⟩
  · obtain ⟨-, -, -, -, -, hk, -, -⟩ := henc hp
    exact hk
  · obtain ⟨hn, hslot, hs, -, -⟩ := hhdr hp
    rw [hslot] at hs
    exact walk_lt_of_slot (Nat.lt_of_lt_of_le hs hn)
  · have hlt := (hpay hp).slot_lt hd
    obtain ⟨-, -, -, -, hslot, -⟩ := hpay hp
    rw [hslot] at hlt
    exact walk_lt_of_slot hlt

/-- Settles O53: the index is below N by the invariant, its position then inside W×H by R171. -/
theorem walkStaysInBounds : Obligations.WalkStaysInBounds := by
  intro s h hp
  have hk := h.walk_lt hp
  exact ⟨hk, walk_inBounds hk⟩

end Sys2Proof.Machine
end

section
/-! SUPPORT. O54: what changes the image. -/

namespace Sys2Proof.Machine

/-! ### the engine outside ENCODE's walk -/

/-- From `s` to `t` the engine keeps the image and the latched word, and it is in ENCODE's walk only if that word is
ENCODE's (10_state.md R41, 30_encoding.md R93). -/
structure KeepsImage (s t : State) : Prop where
  image : t.image = s.image
  cmd : t.eng.cmd = s.eng.cmd
  walk : t.eng.phase = .encWalk → s.eng.cmd = encode .encode

/-- A phase other than ENCODE's walk discharges the last condition. -/
theorem KeepsImage.of_phase {s t : State} (p : Phase) (hi : t.image = s.image) (hc : t.eng.cmd = s.eng.cmd)
    (hp : t.eng.phase = p) (hne : p ≠ .encWalk) : KeepsImage s t :=
  ⟨hi, hc, fun hw => absurd (hp.symm.trans hw) hne⟩

theorem startEncode_keeps (s : State) : (startEncode s).image = s.image ∧ (startEncode s).eng.cmd = s.eng.cmd := by
  unfold startEncode
  split
  · split <;> exact ⟨rfl, rfl⟩
  · exact ⟨rfl, rfl⟩

theorem keepsImage_startDecode (s : State) : KeepsImage s (startDecode s) := by
  simp only [startDecode]
  split
  · exact .of_phase .finish rfl rfl rfl (by decide)
  · split
    · exact .of_phase .finish rfl rfl rfl (by decide)
    · exact .of_phase .decHdr rfl rfl rfl (by decide)

theorem keepsImage_startHdrBuild (s : State) : KeepsImage s (startHdrBuild s) := by
  unfold startHdrBuild
  split <;> exact .of_phase .finish rfl rfl rfl (by decide)

theorem keepsImage_startWord (s : State) : KeepsImage s (startWord s) := by
  unfold startWord
  split
  · rename_i i hi
    cases i with
    | nop => exact .of_phase .finish rfl rfl rfl (by decide)
    | encode =>
      obtain ⟨himg, hcmd⟩ := startEncode_keeps s
      exact ⟨himg, hcmd, fun _ => (encode_of_decode hi).symm⟩
    | decode => exact keepsImage_startDecode s
    | hdrBuild => exact keepsImage_startHdrBuild s
    | hdrParse => exact .of_phase .finish rfl rfl rfl (by decide)
  · exact .of_phase .finish rfl rfl rfl (by decide)

theorem keepsImage_parsePoint (s : State) : KeepsImage s (parsePoint s) := by
  simp only [parsePoint]
  split
  · exact .of_phase .decPay rfl rfl rfl (by decide)
  · exact .of_phase .finish rfl rfl rfl (by decide)

theorem keepsImage_decHdrStep {s t : State} (hp : s.eng.phase = .decHdr) (h : decHdrStep s = .next t) :
    KeepsImage s t := by
  rcases decHdrStep_cases s with ⟨-, e⟩ | ⟨p, -, e⟩ <;> rw [e] at h <;> cases h
  dsimp only
  split
  · obtain ⟨himg, hcmd, hwalk⟩ := keepsImage_parsePoint
      { s with
        hdr := hdrSetBit s.hdr s.eng.s (lsbExtract (p.get s.eng.c)),
        eng := Engine.advance { s.eng with latch := p, s := s.eng.s + 1, d := s.eng.d + 1 } }
    rw [Engine.advance_cmd] at hcmd hwalk
    exact ⟨himg, hcmd, hwalk⟩
  · exact .of_phase .decHdr rfl (Engine.advance_cmd _) ((Engine.advance_phase _).trans hp) (by decide)

theorem keepsImage_decPayStep {s t : State} (hp : s.eng.phase = .decPay) (h : decPayStep s = .next t) :
    KeepsImage s t := by
  rcases decPayStep_cases s with ⟨-, e⟩ | ⟨-, -, e⟩ | ⟨-, p, -, ⟨-, e⟩ | ⟨-, e⟩⟩ <;> rw [e] at h <;> cases h
  · exact .of_phase .finish rfl rfl rfl (by decide)
  · rw [packBit_frame]
    exact .of_phase .decPay rfl (Engine.advance_cmd _) ((Engine.advance_phase _).trans hp) (by decide)
  · exact .of_phase .decPay rfl (Engine.advance_cmd _) ((Engine.advance_phase _).trans hp) (by decide)

/-- An engine step outside ENCODE's walk. -/
theorem keepsImage_engineStep {s t : State} (h : engineStep s = .next t) (hp : s.eng.phase ≠ .encWalk) :
    KeepsImage s t := by
  cases hph : s.eng.phase <;> simp only [engineStep, hph] at h
  case idle => cases h; exact .of_phase .idle rfl rfl hph (by decide)
  case start => cases h; exact keepsImage_startWord s
  case encWalk => exact absurd hph hp
  case decHdr => exact keepsImage_decHdrStep hph h
  case decPay => exact keepsImage_decPayStep hph h
  case finish => cases h; exact .of_phase .idle rfl rfl rfl (by decide)

/-- What holds throughout a run of a command word `v` other than ENCODE's, from a state with the image `img`. -/
def RunsWithImage (img : Image) (v : Word) (u : State) : Prop :=
  u.image = img ∧ u.eng.cmd = v ∧ u.eng.phase ≠ .encWalk

theorem RunsWithImage.engineStep {img : Image} {v : Word} (hv : v ≠ encode .encode) {a b : State}
    (ha : RunsWithImage img v a) (hab : Machine.engineStep a = .next b) : RunsWithImage img v b := by
  obtain ⟨himg, hcmd, hphase⟩ := ha
  have hk := keepsImage_engineStep hab hphase
  exact ⟨hk.image.trans himg, hk.cmd.trans hcmd, fun hw => hv (hcmd.symm.trans (hk.walk hw))⟩

/-- A waited command other than ENCODE leaves the image (30_encoding.md R93). -/
theorem callCommand_image {v : Word} {s t : State} (h : callCommand v s = .next t) (hv : v ≠ encode .encode) :
    t.image = s.image := by
  cases hb : s.regs.status.busy with
  | true =>
    rw [callCommand_busy hb] at h
    cases h
    rfl
  | false =>
    rw [callCommand_idle hb] at h
    have hrun : RunsWithImage s.image v t :=
      runEngine_induct (fun _ _ => RunsWithImage.engineStep hv) ⟨accept_image v s, accept_cmd v s, by simp⟩ h
    exact hrun.1

/-! ### the other inputs -/

theorem writeReg_image (s : State) (v : Word) (r : HostReg) : (writeReg s v r).image = s.image := by
  cases r with
  | cmd => rcases issue_cases v s with h | h <;> simp [writeReg, h]
  | _ => rfl

theorem hostAccess_image (a : Access) (s : State) : (hostAccess a s).image = s.image := by
  rcases hostAccess_cases a s with ⟨d, n, h⟩ | ⟨d, h⟩ | ⟨v, r, -, h⟩ <;> rw [h]
  · rfl
  · exact writeReg_image s v r

theorem readPixel_image {x y : Nat} {s t : State} (h : readPixel x y s = .next t) : t.image = s.image := by
  rw [readPixel_eq_next h]

theorem loadImage_idle {w h : Nat} {cs : List Byte} {s t : State} (ht : loadImage w h cs s = .next t) : s.idle := by
  unfold loadImage at ht
  split at ht
  · cases ht
  · exact Bool.eq_false_of_not_eq_true ‹_›

theorem writePixel_idle {x y : Nat} {p : Pixel} {s t : State} (ht : writePixel x y p s = .next t) : s.idle := by
  unfold writePixel at ht
  split at ht
  · cases ht
  · exact Bool.eq_false_of_not_eq_true ‹_›

/-- The inputs by which the image collaborator changes the image (20_memory.md R66). -/
def Input.WritesImage (inp : Input) : Prop :=
  (∃ w h cs, inp = .loadImage w h cs) ∨ ∃ x y p, inp = .writePixel x y p

/-- Out of reset three kinds of input change the image. -/
theorem inputOutOfReset_image {inp : Input} {s t : State} (h : inputOutOfReset inp s = .next t)
    (hne : t.image ≠ s.image) :
    (inp = .engine ∧ s.eng.phase = .encWalk) ∨ (s.idle ∧ inp = .call (encode .encode)) ∨
      (s.idle ∧ inp.WritesImage) := by
  cases inp with
  | access a => cases h; exact absurd (hostAccess_image a s) hne
  | call v =>
    change callWord v s = _ at h
    rw [callWord_eq_callCommand] at h
    refine .inr (.inl ⟨?_, ?_⟩)
    · by_contra hb
      rw [callCommand_busy (Bool.eq_true_of_not_eq_false hb)] at h
      cases h
      exact hne rfl
    · by_contra hv
      exact hne (callCommand_image h (fun e => hv (congrArg Input.call e)))
  | engine =>
    refine .inl ⟨rfl, ?_⟩
    by_contra hp
    exact hne (keepsImage_engineStep h hp).image
  | rst level => cases h; cases level <;> exact absurd rfl hne
  | loadImage w hh cs => exact .inr (.inr ⟨loadImage_idle h, .inl ⟨w, hh, cs, rfl⟩⟩)
  | readPixel x y => exact absurd (readPixel_image h) hne
  | writePixel x y p => exact .inr (.inr ⟨writePixel_idle h, .inr ⟨x, y, p, rfl⟩⟩)

/-- While `rst` is asserted only the collaborator changes the image. -/
theorem inputInReset_image {inp : Input} {s t : State} (h : inputInReset inp s = .next t) (hne : t.image ≠ s.image) :
    inp.WritesImage := by
  cases inp with
  | access a => cases h; exact absurd rfl hne
  | call v => cases h; exact absurd rfl hne
  | engine => cases h; exact absurd rfl hne
  | rst level => cases h; exact absurd rfl hne
  | loadImage w hh cs => exact .inl ⟨w, hh, cs, rfl⟩
  | readPixel x y => exact absurd (readPixel_image h) hne
  | writePixel x y p => exact .inr ⟨x, y, p, rfl⟩

/-- An input of the collaborator is a pending one. -/
theorem inputs_of_writesImage {s : State} (h : s.nextInput.WritesImage) :
    ∃ rest, (∃ w h cs, s.inputs = .loadImage w h cs :: rest) ∨ (∃ x y p, s.inputs = .writePixel x y p :: rest) := by
  rcases h with ⟨w, hh, cs, hin⟩ | ⟨x, y, p, hin⟩ <;>
    rcases inputs_of_nextInput hin with ⟨-, hengine⟩ | ⟨rest, hcons⟩
  · cases hengine
  · exact ⟨rest, .inl ⟨w, hh, cs, hcons⟩⟩
  · cases hengine
  · exact ⟨rest, .inr ⟨x, y, p, hcons⟩⟩

/-- Settles O54: `inputOutOfReset_image` and `inputInReset_image` for the input that the step takes. -/
theorem onlyEncodeAndCollaboratorChangeImage : Obligations.OnlyEncodeAndCollaboratorChangeImage := by
  intro s t h hne
  cases hr : s.rst with
  | true =>
    rw [step_asserted hr] at h
    exact .inr (.inr ⟨.inr rfl, inputs_of_writesImage (inputInReset_image h hne)⟩)
  | false =>
    rw [step_outOfReset hr] at h
    rcases inputOutOfReset_image h hne with ⟨hin, hp⟩ | ⟨hi, hin⟩ | ⟨hi, hin⟩
    · rcases inputs_of_nextInput hin with ⟨hnil, -⟩ | hcons
      · exact .inl ⟨rfl, hp, .inl hnil⟩
      · exact .inl ⟨rfl, hp, .inr hcons⟩
    · rcases inputs_of_nextInput hin with ⟨-, hengine⟩ | hcons
      · cases hengine
      · exact .inr (.inl ⟨rfl, hi, hcons⟩)
    · exact .inr (.inr ⟨.inl hi, inputs_of_writesImage hin⟩)

end Sys2Proof.Machine
end

section
/-! SUPPORT. O1, O2, O3, O4: the encoding of command words, and the words that select no command. -/

namespace Sys2Proof.Machine

/-! ### words and commands (30_encoding.md R90 to R92) -/

/-- R91's table from both sides: `encode_of_decode` and `decode_encode`. -/
theorem decode_eq_ok_iff (w : Word) (i : Instr) : decode w = .ok i ↔ w = encode i :=
  ⟨fun h => (encode_of_decode h).symm, fun h => h ▸ decode_encode i⟩

theorem decodeOpc_of_five_le {o : BitVec 4} (h : 5 ≤ o.toNat) : decodeOpc o = .error .reservedOpcode := by
  revert o
  decide

/-- R92's two illegal forms. -/
theorem decode_illegal {w : Word} (h : w.extractLsb' 4 28 ≠ 0#28 ∨ 5 ≤ (w.extractLsb' 0 4).toNat) :
    ∃ e, decode w = .error e := by
  unfold decode
  split
  · rename_i hr
    exact ⟨_, decodeOpc_of_five_le (h.resolve_left (fun hn => hn hr))⟩
  · exact ⟨_, rfl⟩

/-- Settles O2: each clause is `decode_eq_ok_iff` for one command. -/
theorem wordsSelectCommands : Obligations.WordsSelectCommands := fun w =>
  ⟨decode_eq_ok_iff w .nop, decode_eq_ok_iff w .encode, decode_eq_ok_iff w .decode, decode_eq_ok_iff w .hdrBuild,
    decode_eq_ok_iff w .hdrParse⟩

/-- Settles O1: R91's five words, and one word for each illegal form of R92. -/
theorem commandWordsDecode : Obligations.CommandWordsDecode :=
  ⟨decode_word_nop, decode_word_encode, decode_word_decode, decode_word_hdrBuild, decode_word_hdrParse,
    by decide, by decide⟩

theorem wordWf_encode (i : Instr) : wordWf (encode i) = true := by
  cases i <;> decide

/-- Settles O3. -/
theorem decodeOfEncode : Obligations.DecodeOfEncode := fun i _ => ⟨decode_encode i, wordWf_encode i⟩

/-! ### illegal words (30_encoding.md R92, 45_control.md R242) -/

theorem issue_idle {s : State} (h : s.regs.status.busy = false) (v : Word) : issue v s = accept v s := by
  simp [issue, h]

theorem startWord_of_error {s : State} {e : DecodeError} (h : decode s.eng.cmd = .error e) :
    startWord s = startIllegal s := by
  rw [startWord, h]

/-- An accepted illegal word raises its error in the engine's first step and completes in the second. -/
theorem runEngine_illegal {w : Word} {e : DecodeError} (h : decode w = .error e) (s : State) :
    runEngine 2 (accept w s) = .next (s.completed w .illegalCommand) := by
  have hstart : engineStep (accept w s) = .next (startIllegal (accept w s)) := by
    rw [engineStep_accept, startWord_of_error h]
  have hfinish : engineStep (startIllegal (accept w s)) = .next (s.completed w .illegalCommand) :=
    engineStep_finish rfl
  rw [runEngine_succ_next (by simp) hstart, runEngine_succ_next (by simp [startIllegal]) hfinish, runEngine_zero]

/-- Settles O4: `runEngine_illegal`, which a waited call meets within its fuel. -/
theorem illegalWordCompletes : Obligations.IllegalWordCompletes := by
  intro w s hi hw
  obtain ⟨e, he⟩ := decode_illegal hw
  have hrun := runEngine_illegal he s
  constructor
  · rw [callWord_eq_callCommand, callCommand_idle hi]
    exact runEngine_le hrun rfl (by unfold engineFuel; omega)
  · rw [hostAccess_wr_cmd, issue_idle hi]
    exact hrun

end Sys2Proof.Machine
end

section
/-! SUPPORT. O5, O10: a step out of reset, and runs of the machine whose only actor is the engine. -/

namespace Sys2Proof.Machine

theorem step_call {s : State} {v : Word} {rest : List Input} (h : s.inputs = .call v :: rest) (hr : s.rst = false) :
    step s = callWord v { s with inputs := rest } :=
  step_cons h hr

theorem callWord_of_ok {v : Word} {i : Instr} (h : decode v = .ok i) (s : State) : callWord v s = exec i s := by
  rw [callWord, h]

theorem callWord_of_not_ok {v : Word} (h : ∀ i, decode v ≠ .ok i) (s : State) : callWord v s = execIllegal v s := by
  unfold callWord
  split
  · exact absurd ‹_› (h _)
  · rfl

/-- A word placed as 32 bits is the word called (log 23). -/
theorem step_withFetchWord (s : State) (v : Word) :
    step (s.withFetchWord 32 v.toNat) = callWord v { s with rst := false } := by
  have hv : BitVec.ofNat 32 (v.toNat % 2 ^ 32) = v := by
    rw [Nat.mod_eq_of_lt v.isLt, BitVec.ofNat_toNat, BitVec.setWidth_eq]
  rw [step_call (rest := s.inputs) rfl rfl, hv]
  rfl

/-- Settles O5: `step_call`, `step_cons` and `step_nil` for the input that is next. -/
theorem stepRunsDecodedCommand : Obligations.StepRunsDecodedCommand := by
  intro s rest v i a
  refine ⟨fun hv => ?_, fun hr => ⟨fun hin hv => ?_, fun hin hv => ?_, fun hin => ?_, fun hin => ?_, fun hin => ?_⟩⟩
  · rw [step_withFetchWord, callWord_of_ok hv]
  · rw [step_call hin hr, callWord_of_ok hv]
  · rw [step_call hin hr, callWord_of_not_ok hv]
  · exact step_cons hin hr
  · exact step_cons hin hr
  · exact step_nil hin hr

/-- With `rst` deasserted and no input pending, steps of the machine are engine steps, and stay so. -/
theorem core_run_of_runEngine {n : Nat} {s t : State} (hin : s.inputs = []) (hr : s.rst = false)
    (h : runEngine n s = .next t) : core.run n s = .next t := by
  induction n generalizing s with
  | zero => exact h
  | succ n ih =>
    have hstep : step s = engineStep s := step_nil hin hr
    by_cases hp : s.eng.phase = .idle
    · have hstay : step s = .next s := by rw [hstep, engineStep, hp]
      rw [core_run_succ n hstay]
      exact ih hin hr (by rw [runEngine_idle hp] at h ⊢; exact h)
    · rw [runEngine_succ hp] at h
      obtain ⟨u, hu, h⟩ := andThen_eq_next h
      obtain ⟨hin', hr', -⟩ := engineStep_frame hu
      rw [core_run_succ n (hstep.trans hu)]
      exact ih (hin'.trans hin) (hr'.trans hr) h

/-- A CMD write, the only input pending, is accepted in one step of the machine (45_control.md R240). -/
theorem step_issue {s : State} (hi : s.idle) (hr : s.rst = false) (hin : s.inputs = []) (v : Word) :
    step { s with inputs := [.access (Access.wr 0x008#32 v)] } = .next (accept v s) := by
  have hs : { s with inputs := [] } = s := by rw [← hin]
  calc step { s with inputs := [.access (Access.wr 0x008#32 v)] }
      = inputOutOfReset (.access (Access.wr 0x008#32 v)) { s with inputs := [] } := step_cons rfl hr
    _ = .next (hostAccess (Access.wr 0x008#32 v) s) := by rw [hs]; rfl
    _ = .next (accept v s) := by rw [hostAccess_wr_cmd, issue_idle hi]

/-- Settles O10: one step for the CMD write, then as many engine steps as the waited call may take. -/
theorem stepwiseRunAgreesWithCall : Obligations.StepwiseRunAgreesWithCall := by
  intro v s t hi hr hin h
  rw [callWord_eq_callCommand, callCommand_idle hi] at h
  exact ⟨engineFuel s + 1, (core_run_succ _ (step_issue hi hr hin v)).trans (core_run_of_runEngine hin hr h)⟩

end Sys2Proof.Machine
end

section
/-! SUPPORT. O38: the write set of each command, kept by every engine step of its run. -/

namespace Sys2Proof.Machine

/-! ### write sets (30_encoding.md R93) -/

/-- `s` with the elements that a command `i` may write taken from `t` (30_encoding.md R93). -/
def State.withWritesOf (i : Instr) (s t : State) : State :=
  { s with
    regs := { s.regs with
      status := t.regs.status,
      encEnd := if i = .nop then s.regs.encEnd else t.regs.encEnd,
      outLen := if i = .decode then t.regs.outLen else s.regs.outLen,
      pHdr := if i = .decode ∨ i = .hdrParse then t.regs.pHdr else s.regs.pHdr,
      pStart := if i = .decode ∨ i = .hdrParse then t.regs.pStart else s.regs.pStart },
    nbuf := if i = .decode ∨ i = .hdrParse then t.nbuf else s.nbuf,
    hdr := if i = .encode ∨ i = .decode ∨ i = .hdrBuild then t.hdr else s.hdr,
    pbuf := if i = .decode then t.pbuf else s.pbuf,
    image := if i = .encode then t.image else s.image,
    eng := t.eng }

theorem State.withWritesOf_withWritesOf (i : Instr) (s t u : State) :
    (s.withWritesOf i t).withWritesOf i u = s.withWritesOf i u := by
  cases i <;> rfl

theorem eq_withWritesOf_trans {i : Instr} {s t u : State} (hst : t = s.withWritesOf i t)
    (htu : u = t.withWritesOf i u) : u = s.withWritesOf i u :=
  calc u = t.withWritesOf i u := htu
    _ = (s.withWritesOf i t).withWritesOf i u := congrArg (State.withWritesOf i · u) hst
    _ = s.withWritesOf i u := State.withWritesOf_withWritesOf i s t u

/-- The walks belong to ENCODE and DECODE (10_state.md R41). -/
def Phase.WalkOf : Phase → Instr → Prop
  | .encWalk, i => i = .encode
  | .decHdr, i => i = .decode
  | .decPay, i => i = .decode
  | _, _ => True

/-- From `s` to `t` a run of command `i` has written only elements of its write set. -/
structure RunsWithin (i : Instr) (s t : State) : Prop where
  frame : t = s.withWritesOf i t
  cmd : t.eng.cmd = encode i
  walk : t.eng.phase.WalkOf i

theorem RunsWithin.trans {i : Instr} {s t u : State} (hst : RunsWithin i s t) (htu : RunsWithin i t u) :
    RunsWithin i s u :=
  ⟨eq_withWritesOf_trans hst.frame htu.frame, htu.cmd, htu.walk⟩

/-! ### one engine step -/

theorem runsWithin_startEncode {s : State} (hc : s.eng.cmd = encode .encode) : RunsWithin .encode s (startEncode s) := by
  unfold startEncode
  split
  · split
    · exact ⟨rfl, hc, rfl⟩
    · exact ⟨rfl, hc, trivial⟩
  · exact ⟨rfl, hc, trivial⟩

theorem runsWithin_startDecode {s : State} (hc : s.eng.cmd = encode .decode) : RunsWithin .decode s (startDecode s) := by
  simp only [startDecode]
  split
  · exact ⟨rfl, hc, trivial⟩
  · split
    · exact ⟨rfl, hc, trivial⟩
    · exact ⟨rfl, hc, rfl⟩

theorem runsWithin_startHdrBuild {s : State} (hc : s.eng.cmd = encode .hdrBuild) :
    RunsWithin .hdrBuild s (startHdrBuild s) := by
  unfold startHdrBuild
  split <;> exact ⟨rfl, hc, trivial⟩

theorem runsWithin_startWord {i : Instr} {s : State} (hc : s.eng.cmd = encode i) : RunsWithin i s (startWord s) := by
  rw [startWord_of_decode (hc ▸ decode_encode i)]
  cases i with
  | nop => exact ⟨rfl, hc, trivial⟩
  | encode => exact runsWithin_startEncode hc
  | decode => exact runsWithin_startDecode hc
  | hdrBuild => exact runsWithin_startHdrBuild hc
  | hdrParse => exact ⟨rfl, hc, trivial⟩

theorem runsWithin_encWalkStep {s t : State} (hc : s.eng.cmd = encode .encode) (hp : s.eng.phase = .encWalk)
    (h : encWalkStep s = .next t) : RunsWithin .encode s t := by
  rcases encWalkStep_cases s with ⟨-, e⟩ | ⟨p, -, ⟨-, -, e⟩ | ⟨-, -, e⟩ | ⟨-, -, e⟩⟩ <;> rw [e] at h <;> cases h
  · exact ⟨rfl, by simp [hc], by simp [hp, Phase.WalkOf]⟩
  · dsimp only
    split
    · exact ⟨rfl, by simp [hc], trivial⟩
    · exact ⟨rfl, by simp [hc], by simp [hp, Phase.WalkOf]⟩

theorem runsWithin_parsePoint {s : State} (hc : s.eng.cmd = encode .decode) : RunsWithin .decode s (parsePoint s) := by
  simp only [parsePoint]
  split
  · exact ⟨rfl, hc, rfl⟩
  · exact ⟨rfl, hc, trivial⟩

theorem runsWithin_decHdrStep {s t : State} (hc : s.eng.cmd = encode .decode) (hp : s.eng.phase = .decHdr)
    (h : decHdrStep s = .next t) : RunsWithin .decode s t := by
  rcases decHdrStep_cases s with ⟨-, e⟩ | ⟨p, -, e⟩ <;> rw [e] at h <;> cases h
  have hslot : RunsWithin .decode s
      { s with
        hdr := hdrSetBit s.hdr s.eng.s (lsbExtract (p.get s.eng.c)),
        eng := Engine.advance { s.eng with latch := p, s := s.eng.s + 1, d := s.eng.d + 1 } } :=
    ⟨rfl, by simp [hc], by simp [hp, Phase.WalkOf]⟩
  dsimp only
  split
  · exact hslot.trans (runsWithin_parsePoint hslot.cmd)
  · exact hslot

theorem runsWithin_decPayStep {s t : State} (hc : s.eng.cmd = encode .decode) (hp : s.eng.phase = .decPay)
    (h : decPayStep s = .next t) : RunsWithin .decode s t := by
  rcases decPayStep_cases s with ⟨-, e⟩ | ⟨-, -, e⟩ | ⟨-, p, -, ⟨-, e⟩ | ⟨-, e⟩⟩ <;> rw [e] at h <;> cases h
  · exact ⟨rfl, hc, trivial⟩
  · rw [packBit_frame]
    exact ⟨rfl, by simp [hc], by simp [hp, Phase.WalkOf]⟩
  · exact ⟨rfl, by simp [hc], by simp [hp, Phase.WalkOf]⟩

theorem runsWithin_engineStep {i : Instr} {s t : State} (hc : s.eng.cmd = encode i) (hw : s.eng.phase.WalkOf i)
    (h : engineStep s = .next t) : RunsWithin i s t := by
  cases hp : s.eng.phase <;> simp only [engineStep, hp] at h <;> rw [hp] at hw
  case idle => cases h; exact ⟨by cases i <;> rfl, hc, by rw [hp]; trivial⟩
  case start => cases h; exact runsWithin_startWord hc
  case encWalk => obtain rfl : i = .encode := hw; exact runsWithin_encWalkStep hc hp h
  case decHdr => obtain rfl : i = .decode := hw; exact runsWithin_decHdrStep hc hp h
  case decPay => obtain rfl : i = .decode := hw; exact runsWithin_decPayStep hc hp h
  case finish => cases h; exact ⟨by cases i <;> rfl, hc, trivial⟩

/-! ### waited commands -/

theorem runsWithin_accept (i : Instr) (s : State) : RunsWithin i s (accept (encode i) s) :=
  ⟨by cases i <;> rfl, rfl, trivial⟩

theorem runsWithin_exec {i : Instr} {s t : State} (hi : s.idle) (h : exec i s = .next t) : RunsWithin i s t := by
  rw [exec_eq_callCommand, callCommand_idle hi] at h
  exact runEngine_induct (fun _ _ hsu hut => hsu.trans (runsWithin_engineStep hsu.cmd hsu.walk hut))
    (runsWithin_accept i s) h

theorem engineStep_accErr {s t : State} (h : engineStep s = .next t) :
    t.regs.status.accErr = s.regs.status.accErr := by
  obtain ⟨-, -, -, -, -, -, -, -, hacc, -⟩ := engineStep_frame h
  exact hacc

/-- A command issued while idle leaves ACCERR (60_exceptions.md R259). -/
theorem callCommand_accErr {v : Word} {s t : State} (hi : s.idle) (h : callCommand v s = .next t) :
    t.regs.status.accErr = s.regs.status.accErr := by
  rw [callCommand_idle hi] at h
  exact runEngine_induct (P := fun u => u.regs.status.accErr = s.regs.status.accErr)
    (fun _ _ hu e => (engineStep_accErr e).trans hu) (accept_accErr v s) h

/-- Settles O38: `State.withWritesOf` is the write set of R93. -/
theorem commandWriteSets : Obligations.CommandWriteSets := fun i s _ hi h =>
  ⟨(runsWithin_exec hi h).frame, callCommand_accErr hi (exec_eq_callCommand i s ▸ h)⟩

end Sys2Proof.Machine
end

section
/-! SUPPORT. O37: DECODE's run commutes with a change of CFG and PAYLOAD_LEN. -/

namespace Sys2Proof.Machine

/-- `s` with other values in CFG and PAYLOAD_LEN (10_state.md R28). -/
def State.withPayloadConfig (c : Cfg) (len : Word) (s : State) : State :=
  { s with regs := { s.regs with cfg := c, payloadLen := len } }

@[simp] theorem State.withPayloadConfig_eng (c : Cfg) (len : Word) (s : State) :
    (s.withPayloadConfig c len).eng = s.eng := rfl
@[simp] theorem State.withPayloadConfig_pHdr (c : Cfg) (len : Word) (s : State) :
    (s.withPayloadConfig c len).regs.pHdr = s.regs.pHdr := rfl
@[simp] theorem State.withPayloadConfig_withEng (c : Cfg) (len : Word) (s : State) (e : Engine) :
    (s.withPayloadConfig c len).withEng e = (s.withEng e).withPayloadConfig c len := rfl
@[simp] theorem latchPixel_withPayloadConfig (c : Cfg) (len : Word) (s : State) :
    latchPixel (s.withPayloadConfig c len) = latchPixel s := rfl

/-! ### the parts of DECODE (44_decoder.md R210 to R221) -/

theorem startDecode_withPayloadConfig (c : Cfg) (len : Word) (s : State) :
    startDecode (s.withPayloadConfig c len) = (startDecode s).withPayloadConfig c len := by
  simp only [startDecode, apply_ite (State.withPayloadConfig c len)]
  rfl

theorem parsePoint_withPayloadConfig (c : Cfg) (len : Word) (s : State) :
    parsePoint (s.withPayloadConfig c len) = (parsePoint s).withPayloadConfig c len := by
  simp only [parsePoint, apply_ite (State.withPayloadConfig c len)]
  rfl

theorem decHdrStep_withPayloadConfig (c : Cfg) (len : Word) {s t : State} (h : decHdrStep s = .next t) :
    decHdrStep (s.withPayloadConfig c len) = .next (t.withPayloadConfig c len) := by
  rcases decHdrStep_cases s with ⟨-, e⟩ | ⟨p, hp, e⟩ <;> rw [e] at h <;> cases h
  simp only [decHdrStep, latchPixel_withPayloadConfig, hp, apply_ite (State.withPayloadConfig c len),
    ← parsePoint_withPayloadConfig]
  rfl

theorem packBit_withPayloadConfig (c : Cfg) (len : Word) (b : Bool) (s : State) :
    packBit b (s.withPayloadConfig c len) = (packBit b s).withPayloadConfig c len := by
  simp only [packBit, apply_ite (State.withPayloadConfig c len)]
  rfl

theorem decPayStep_withPayloadConfig (c : Cfg) (len : Word) {s t : State} (h : decPayStep s = .next t) :
    decPayStep (s.withPayloadConfig c len) = .next (t.withPayloadConfig c len) := by
  rcases decPayStep_cases s with ⟨hd, e⟩ | ⟨-, -, e⟩ | ⟨hd, p, hp, ⟨hr, e⟩ | ⟨hr, e⟩⟩ <;> rw [e] at h <;> cases h
  · rw [decPayStep, if_pos (by exact hd)]
    rfl
  · simp [decPayStep, hd, hp, hr, packBit_withPayloadConfig]
  · simp [decPayStep, hd, hp, hr]

/-! ### its run -/

theorem startWord_withPayloadConfig (c : Cfg) (len : Word) {s : State} (hc : s.eng.cmd = encode .decode) :
    startWord (s.withPayloadConfig c len) = (startWord s).withPayloadConfig c len := by
  have hdec : decode s.eng.cmd = .ok .decode := hc ▸ decode_encode .decode
  rw [startWord_of_decode hdec, startWord_of_decode (s := s.withPayloadConfig c len) hdec]
  exact startDecode_withPayloadConfig c len s

theorem engineStep_withPayloadConfig (c : Cfg) (len : Word) {s t : State} (hc : s.eng.cmd = encode .decode)
    (hw : s.eng.phase.WalkOf .decode) (h : engineStep s = .next t) :
    engineStep (s.withPayloadConfig c len) = .next (t.withPayloadConfig c len) := by
  have hphase : (s.withPayloadConfig c len).eng.phase = s.eng.phase := rfl
  unfold engineStep at h ⊢
  rw [hphase]
  cases hp : s.eng.phase <;> rw [hp] at hw h <;> dsimp only at h ⊢
  case idle => cases h; rfl
  case start => cases h; rw [startWord_withPayloadConfig c len hc]
  case encWalk => cases hw
  case decHdr => exact decHdrStep_withPayloadConfig c len h
  case decPay => exact decPayStep_withPayloadConfig c len h
  case finish => cases h; rfl

theorem runEngine_withPayloadConfig (c : Cfg) (len : Word) {n : Nat} {s t : State} (hc : s.eng.cmd = encode .decode)
    (hw : s.eng.phase.WalkOf .decode) (h : runEngine n s = .next t) :
    runEngine n (s.withPayloadConfig c len) = .next (t.withPayloadConfig c len) := by
  induction n generalizing s with
  | zero => cases h; rfl
  | succ n ih =>
    by_cases hp : s.eng.phase = .idle
    · rw [runEngine_idle hp] at h
      cases h
      exact runEngine_idle (s := t.withPayloadConfig c len) hp _
    · rw [runEngine_succ hp] at h
      obtain ⟨u, hu, h⟩ := andThen_eq_next h
      have hsu := runsWithin_engineStep hc hw hu
      rw [runEngine_succ_next (s := s.withPayloadConfig c len) hp (engineStep_withPayloadConfig c len hc hw hu)]
      exact ih hsu.cmd hsu.walk h

/-- Settles O37: the run of the accepted word by `runEngine_withPayloadConfig`; while BUSY the word is dropped. -/
theorem decodeIgnoresConfiguration : Obligations.DecodeIgnoresConfiguration := by
  intro s t c len h
  change exec .decode (s.withPayloadConfig c len) = .next (t.withPayloadConfig c len)
  rw [exec_eq_callCommand] at h ⊢
  cases hb : s.regs.status.busy with
  | true =>
    rw [callCommand_busy hb] at h
    cases h
    exact callCommand_busy (s := s.withPayloadConfig c len) hb _
  | false =>
    rw [callCommand_idle hb] at h
    rw [callCommand_idle (s := s.withPayloadConfig c len) hb]
    exact runEngine_withPayloadConfig c len (accept_cmd _ s) trivial h

end Sys2Proof.Machine
end

section
/-! SUPPORT. O11, O12, O13, O14, O15: the BitStream converter. -/

namespace Sys2Proof.Machine

/-! ### values of bit sequences (40_bitstream.md R124, R125) -/

theorem bitsToInt_cons (b : Bool) (bs : List Bool) : bitsToInt (b :: bs) = b.toNat * 2 ^ bs.length + bitsToInt bs := by
  simpa [bitsToInt] using bitsToInt_append [b] bs

/-- Settles O14, by induction on the bits: a further leading bit weighs `2 ^ bs.length` and leaves the other weights. -/
theorem bitsToInt_eq_sum : Obligations.BitsToInt := by
  intro bits
  induction bits with
  | nil => rfl
  | cons b bs ih =>
    have hweight (t : Nat) : bs.length - 1 - t = bs.length - (t + 1) := by omega
    rw [bitsToInt_cons, ih, List.length_cons, List.range_succ_eq_map, List.map_cons, List.map_map, List.sum_cons]
    simp only [Function.comp_def, List.getD_cons_zero, List.getD_cons_succ, Nat.add_sub_cancel, Nat.sub_zero, hweight,
      Nat.succ_eq_add_one]

theorem intToBits_of_ge {v w : Nat} (h : 2 ^ w ≤ v) : intToBits v w = .error .valueTooWide := if_pos h

theorem intToBits_of_lt {v w : Nat} (h : v < 2 ^ w) : intToBits v w = .ok (intBits v w) := if_neg (Nat.not_le.mpr h)

@[simp] theorem intBits_zero (w : Nat) : intBits 0 w = List.replicate w false := by
  simp [intBits]

@[simp] theorem intBits_two_pow_sub_one (w : Nat) : intBits (2 ^ w - 1) w = List.replicate w true := by
  refine List.ext_getElem (by simp) fun t ht _ => ?_
  rw [intBits_length] at ht
  rw [intBits_getElem, Nat.testBit_two_pow_sub_one, List.getElem_replicate, decide_eq_true_eq]
  omega

/-- Settles O13, by `intBits`, the result where the value fits. -/
theorem intToBits_spec : Obligations.IntToBits := by
  intro v w
  have hpos : 0 < 2 ^ w := Nat.two_pow_pos w
  refine ⟨intToBits_of_ge, fun hv => ⟨intBits v w, intToBits_of_lt hv, intBits_length v w, fun t ht => ?_⟩, ?_, ?_,
    intToBits_of_ge le_rfl⟩
  · simp [intBits, ht]
  · rw [intToBits_of_lt hpos, intBits_zero]
  · rw [intToBits_of_lt (Nat.sub_one_lt_of_lt hpos), intBits_two_pow_sub_one]

theorem intBits_bitsToInt (bs : List Bool) : intBits (bitsToInt bs) bs.length = bs := by
  refine List.ext_getElem (intBits_length _ _) fun t _ ht => ?_
  have hlast : bs.length - 1 - (bs.length - 1 - t) = t := by omega
  have hin : bs.length - 1 - t < bs.length := by omega
  rw [intBits_getElem, bitsToInt_testBit, hlast, List.getD_eq_getElem _ _ ht, decide_eq_true hin, Bool.true_and]

/-! ### bits of byte sequences (40_bitstream.md R120, R121) -/

@[simp] theorem textToBits_nil : textToBits [] = [] := rfl

theorem textToBits_cons (b : Byte) (bs : List Byte) : textToBits (b :: bs) = bits8 b ++ textToBits bs := rfl

theorem textToBits_concat (bs : List Byte) (b : Byte) : textToBits (bs ++ [b]) = textToBits bs ++ bits8 b := by
  simp [textToBits]

theorem textToBits_getD_group (bs : List Byte) (m : Nat) {q : Nat} (hq : q < 8) :
    (textToBits bs).getD (8 * m + q) false = (bs.getD m 0#8).getLsbD (7 - q) := by
  have hdiv : (8 * m + q) / 8 = m := by omega
  have hmod : (8 * m + q) % 8 = q := by omega
  rw [textToBits_getD, hdiv, hmod]

/-- Settles O11. -/
theorem textAndFileBits : Obligations.TextAndFileBits := by
  intro t
  refine ⟨textToBits_length t, fileToBits_eq_textToBits t, textToBits_nil, fun m q hm hq => ?_⟩
  have hin : 8 * m + q < (textToBits t).length := by rw [textToBits_length]; omega
  rw [List.getElem?_eq_getElem hin, ← List.getD_eq_getElem _ false hin, textToBits_getD_group t m hq]

/-! ### bytes of bit sequences (40_bitstream.md R122, R123) -/

theorem bitsToBytes_malformed {bits : List Bool} (h : bits.length % 8 ≠ 0) :
    bitsToBytes bits = .error .malformedBitCount := if_neg h

theorem exists_bitsToBytes {bits : List Bool} (h : bits.length % 8 = 0) : ∃ out, bitsToBytes bits = .ok out :=
  ⟨_, if_pos h⟩

/-- The first eight bits give the first byte. -/
theorem bitsToBytes_group_append {g : List Bool} (hg : g.length = 8) (bits : List Bool) :
    bitsToBytes (g ++ bits) = (bitsToBytes bits).map (BitVec.ofNat 8 (bitsToInt g) :: ·) := by
  have hlen : (g ++ bits).length = bits.length + 8 := by rw [List.length_append, hg, Nat.add_comm]
  have hdrop (q : Nat) : (g ++ bits).drop (8 * (q + 1)) = bits.drop (8 * q) := by
    rw [Nat.mul_succ, Nat.add_comm, ← List.drop_drop, ← hg, List.drop_left]
  have hhead : (g ++ bits).take 8 = g := hg ▸ List.take_left
  unfold bitsToBytes
  rw [hlen, Nat.add_mod_right]
  split
  · simp [Except.map, Nat.add_div_right, List.range_succ_eq_map, hhead, Function.comp_def, hdrop]
  · rfl

theorem bitsToBytes_textToBits (bs : List Byte) : bitsToBytes (textToBits bs) = .ok bs := by
  induction bs with
  | nil => rfl
  | cons b bs ih =>
    rw [textToBits_cons, bitsToBytes_group_append (bits8_length b), ih, bitsToInt_bits8, BitVec.ofNat_toNat,
      BitVec.setWidth_eq]
    rfl

theorem bits8_ofNat_bitsToInt {g : List Bool} (hg : g.length = 8) : bits8 (BitVec.ofNat 8 (bitsToInt g)) = g := by
  have hlt : bitsToInt g < 2 ^ 8 := hg ▸ bitsToInt_lt g
  rw [bits8_eq_intBits, BitVec.toNat_ofNat, Nat.mod_eq_of_lt hlt, ← hg, intBits_bitsToInt]

/-- Every whole number of groups of eight is the bits of some bytes. -/
theorem exists_eq_textToBits {bits : List Bool} {n : Nat} (hlen : bits.length = 8 * n) :
    ∃ bytes, bits = textToBits bytes := by
  induction n generalizing bits with
  | zero => exact ⟨[], List.eq_nil_of_length_eq_zero hlen⟩
  | succ n ih =>
    obtain ⟨bytes, hbytes⟩ := ih (bits := bits.drop 8) (by rw [List.length_drop]; omega)
    have hhead : (bits.take 8).length = 8 := by rw [List.length_take]; omega
    refine ⟨BitVec.ofNat 8 (bitsToInt (bits.take 8)) :: bytes, ?_⟩
    rw [textToBits_cons, bits8_ofNat_bitsToInt hhead, ← hbytes, List.take_append_drop]

theorem eq_textToBits_of_bitsToBytes {bits : List Bool} {bytes : List Byte} (h : bitsToBytes bits = .ok bytes) :
    bits = textToBits bytes := by
  by_cases hlen : bits.length % 8 = 0
  · obtain ⟨bytes', rfl⟩ := exists_eq_textToBits (bits := bits) (n := bits.length / 8) (by omega)
    rw [bitsToBytes_textToBits] at h
    cases h
    rfl
  · rw [bitsToBytes_malformed hlen] at h
    cases h

/-- A byte is the sum of its bits by weight. -/
theorem toNat_eq_sum_bits (b : Byte) :
    b.toNat = ((List.range 8).map (fun t => (b.getLsbD (7 - t)).toNat * 2 ^ (7 - t))).sum := by
  rw [← bitsToInt_bits8]
  exact bitsToInt_eq_sum (bits8 b)

/-- Settles O12: the sequence is `textToBits` of the bytes, whose bits are known. -/
theorem bitsToBytes_spec : Obligations.BitsToBytes := by
  intro bits
  refine ⟨bitsToBytes_malformed, fun hlen => ?_, rfl⟩
  obtain ⟨out, hout⟩ := exists_bitsToBytes hlen
  obtain rfl := eq_textToBits_of_bitsToBytes hout
  refine ⟨out, hout, by rw [textToBits_length]; omega, fun q _ => ?_⟩
  rw [toNat_eq_sum_bits]
  congr 1
  refine List.map_congr_left fun t ht => ?_
  rw [textToBits_getD_group out q (List.mem_range.mp ht)]

/-- Settles O15. -/
theorem bitStreamFunctionsInvert : Obligations.BitStreamFunctionsInvert :=
  ⟨fun b => ⟨bitsToBytes_textToBits b, textToBits_length b⟩,
    fun v w hv => ⟨intBits v w, intToBits_of_lt hv, bitsToInt_intBits_of_lt hv, intBits_length v w⟩⟩

end Sys2Proof.Machine
end

section
/-! SUPPORT. O16: the payload packer, one group of eight bits at a time. -/

namespace Sys2Proof.Machine

theorem pbufRead_pbufWrite (n : Nat) (v : Byte) (s : State) (j : Nat) :
    pbufRead (pbufWrite n v s) j = if n = j then v else pbufRead s j := by
  simp only [pbufRead, pbufWrite_pbuf, pbufWrite_ramEpoch, Memory.read?_write]
  split <;> rfl

theorem packBit_partial {s : State} (h : s.eng.nacc ≠ 7#3) (b : Bool) :
    packBit b s = s.withEng { s.eng with acc := packShift s.eng.acc b, nacc := s.eng.nacc + 1#3 } := if_neg h

theorem packBit_full {s : State} (h : s.eng.nacc = 7#3) (b : Bool) :
    packBit b s = (pbufWrite s.eng.j (packShift s.eng.acc b) s).withEng
      { s.eng with acc := 0#8, nacc := 0#3, j := s.eng.j + 1 } := if_pos h

/-- Fewer than eight bits from an empty packer stand in its shift register. -/
theorem packBits_partial {s : State} (hacc : s.eng.acc = 0#8) (hnacc : s.eng.nacc = 0#3) {bits : List Bool}
    (hlen : bits.length < 8) :
    bits.foldl (fun u b => packBit b u) s =
      s.withEng { s.eng with acc := BitVec.ofNat 8 (bitsToInt bits), nacc := BitVec.ofNat 3 bits.length } := by
  induction bits using List.reverseRecOn with
  | nil => simp [State.withEng, ← hacc, ← hnacc]
  | append_singleton bits b ih =>
    rw [List.length_append, List.length_singleton] at hlen
    have hnot : BitVec.ofNat 3 bits.length ≠ 7#3 := by bv_omega
    rw [List.foldl_append, ih (by omega), List.foldl_cons, List.foldl_nil, packBit_partial hnot]
    simp [State.withEng, packShift_bitsToInt, BitVec.ofNat_add]

/-- The eight bits of a byte, from an empty packer, write the byte to PBUF and leave the packer empty. -/
theorem packBits_bits8 {s : State} (hacc : s.eng.acc = 0#8) (hnacc : s.eng.nacc = 0#3) (b : Byte) :
    (bits8 b).foldl (fun u b => packBit b u) s =
      (pbufWrite s.eng.j b s).withEng { s.eng with acc := 0#8, nacc := 0#3, j := s.eng.j + 1 } := by
  have hsplit : bits8 b = (bits8 b).take 7 ++ [b.getLsbD 0] := rfl
  have hseven : ((bits8 b).take 7).length = 7 := rfl
  have hbyte : packShift (BitVec.ofNat 8 (bitsToInt ((bits8 b).take 7))) (b.getLsbD 0) = b := by
    rw [packShift_bitsToInt, ← hsplit, bitsToInt_bits8, BitVec.ofNat_toNat, BitVec.setWidth_eq]
  rw [hsplit, List.foldl_append, packBits_partial hacc hnacc (by omega), List.foldl_cons, List.foldl_nil,
    packBit_full (by rw [hseven]; rfl)]
  simp only [State.withEng_eng, hbyte]
  rfl

/-- The packer fed whole bytes from its start, by induction on the last byte. -/
theorem packed_textToBits (s : State) (bytes : List Byte) :
    ∃ pb,
      packed s (textToBits bytes) =
        { s with pbuf := pb, eng := { s.eng with acc := 0#8, nacc := 0#3, j := bytes.length } } ∧
      ∀ j, pbufRead { s with pbuf := pb } j = if j < bytes.length then bytes.getD j 0#8 else pbufRead s j := by
  induction bytes using List.reverseRecOn with
  | nil => exact ⟨s.pbuf, rfl, fun _ => rfl⟩
  | append_singleton bytes b ih =>
    obtain ⟨pb, hpacked, hread⟩ := ih
    refine ⟨pb.write bytes.length b, ?_, fun j => ?_⟩
    · unfold packed at hpacked ⊢
      rw [textToBits_concat, List.foldl_append, hpacked, packBits_bits8 rfl rfl, List.length_append]
      rfl
    · have hwrite : pbufRead { s with pbuf := pb.write bytes.length b } j = _ :=
        pbufRead_pbufWrite bytes.length b { s with pbuf := pb } j
      rw [hwrite, hread, List.length_append, List.length_singleton]
      rcases Nat.lt_trichotomy j bytes.length with hlt | rfl | hgt
      · rw [if_neg hlt.ne', if_pos hlt, if_pos (by omega), List.getD_append _ _ _ _ hlt]
      · rw [if_pos rfl, if_pos (by omega), List.getD_append_right _ _ _ _ le_rfl]
        simp
      · rw [if_neg hgt.ne, if_neg (by omega), if_neg (by omega)]

/-- Settles O16: the bits are those of the bytes. -/
theorem packerAssemblesBytes : Obligations.PackerAssemblesBytes := by
  intro s bits bytes h
  rw [eq_textToBits_of_bitsToBytes h]
  exact packed_textToBits s bytes

end Sys2Proof.Machine
end

section
/-! SUPPORT. O21, O22, O23, O24: the header's bits by field, HDR_BUILD, HDR_PARSE, and one after the other. -/

namespace Sys2Proof.Machine

/-! ### the fields of the built header (41_header.md R141 to R147) -/

theorem intBits_getElem? (v : Nat) {w t : Nat} (ht : t < w) : (intBits v w)[t]? = some (v.testBit (w - 1 - t)) := by
  rw [List.getElem?_eq_getElem (by rwa [intBits_length]), intBits_getElem]

/-- A field of a bit sequence stands behind what precedes it. -/
theorem getElem?_field (pre field post : List Bool) {t : Nat} (ht : t < field.length) :
    (pre ++ field ++ post)[pre.length + t]? = field[t]? := by
  rw [List.getElem?_append_left (by rw [List.length_append]; omega), List.getElem?_append_right (Nat.le_add_right _ _),
    Nat.add_sub_cancel_left]

theorem padName_leading_pad {nb : List Bool} {t : Nat} (ht : t < 512 - nb.length) :
    (padName .leading nb)[t]? = some false := by
  simp only [padName, nameFieldBits]
  rw [List.getElem?_append_left (by rwa [List.length_replicate]), List.getElem?_replicate_of_lt ht]

theorem padName_leading_name (nb : List Bool) (t : Nat) : (padName .leading nb)[512 - nb.length + t]? = nb[t]? := by
  simp only [padName, nameFieldBits]
  rw [List.getElem?_append_right (by simp), List.length_replicate, Nat.add_sub_cancel_left]

theorem padName_trailing_name {nb : List Bool} {t : Nat} (ht : t < nb.length) :
    (padName .trailing nb)[t]? = nb[t]? :=
  List.getElem?_append_left ht

theorem padName_trailing_pad {nb : List Bool} {t : Nat} (hlo : nb.length ≤ t) (hhi : t < 512) :
    (padName .trailing nb)[t]? = some false := by
  simp only [padName, nameFieldBits]
  rw [List.getElem?_append_right hlo, List.getElem?_replicate_of_lt (by omega)]

/-- The one zero bit of a text header leaves no other bit in the field, on either side (41_header.md R144). -/
theorem padName_text (pad : NamePad) : padName pad [false] = List.replicate 512 false := by
  cases pad with
  | leading => exact List.replicate_succ'.symm
  | trailing => rfl

section fields

variable {p : Params} {isFile : Bool} {mode : BitVec 3} {name : List Byte} {len : Nat}

theorem headerBits_mode {t : Nat} (ht : t < 3) :
    (headerBits p isFile mode name len)[1 + t]? = some (mode.getLsbD (2 - t)) := by
  have h := getElem?_field [isFile] (intBits mode.toNat 3) (padName p.namePad (nameBitsRaw isFile name)
    ++ intBits p.startFieldValue.toNat startFieldBits ++ intBits (580 + 8 * len) endFieldBits) (t := t) (by simpa)
  rw [intBits_getElem? _ ht, BitVec.testBit_toNat] at h
  simpa [headerBits, modeFieldBits] using h

section checked

variable (hname : isFile = true → name.length ≤ 64)
include hname

theorem headerBits_name {t : Nat} (ht : t < 512) :
    (headerBits p isFile mode name len)[4 + t]? = (padName p.namePad (nameBitsRaw isFile name))[t]? := by
  have hlen := padName_length p.namePad (nameBitsRaw_length_le hname)
  have h := getElem?_field ([isFile] ++ intBits mode.toNat 3) (padName p.namePad (nameBitsRaw isFile name))
    (intBits p.startFieldValue.toNat startFieldBits ++ intBits (580 + 8 * len) endFieldBits) (hlen ▸ ht)
  simpa [headerBits] using h

theorem headerBits_start {t : Nat} (ht : t < 32) :
    (headerBits p isFile mode name len)[516 + t]? = some (p.startFieldValue.getLsbD (31 - t)) := by
  have hlen := padName_length p.namePad (nameBitsRaw_length_le hname)
  have h := getElem?_field ([isFile] ++ intBits mode.toNat 3 ++ padName p.namePad (nameBitsRaw isFile name))
    (intBits p.startFieldValue.toNat 32) (intBits (580 + 8 * len) endFieldBits) (t := t) (by simpa)
  rw [intBits_getElem? _ ht, BitVec.testBit_toNat] at h
  simpa [headerBits, hlen, modeFieldBits, startFieldBits] using h

theorem headerBits_end {t : Nat} (ht : t < 32) :
    (headerBits p isFile mode name len)[548 + t]? = some ((580 + 8 * len).testBit (31 - t)) := by
  have hlen := padName_length p.namePad (nameBitsRaw_length_le hname)
  have h := getElem?_field ([isFile] ++ intBits mode.toNat 3 ++ padName p.namePad (nameBitsRaw isFile name)
    ++ intBits p.startFieldValue.toNat 32) (intBits (580 + 8 * len) 32) [] (t := t) (by simpa)
  rw [intBits_getElem? _ ht] at h
  simpa [headerBits, hlen] using h

end checked

/-! ### the name field under either padding (41_header.md R143, R144) -/

theorem headerBits_text {t : Nat} (ht : t < 512) :
    (headerBits p false mode name len)[4 + t]? = some false := by
  rw [headerBits_name (isFile := false) (by simp) ht]
  exact padName_text p.namePad ▸ List.getElem?_replicate_of_lt ht

theorem nameBitsRaw_file_length (name : List Byte) : (nameBitsRaw true name).length = 8 * name.length :=
  textToBits_length name

/-- Bit `t` of byte `q` of a name. -/
theorem nameBitsRaw_file_bit {q t : Nat} (hq : q < name.length) (ht : t < 8) :
    (nameBitsRaw true name)[8 * q + t]? = some ((name.getD q 0#8).getLsbD (7 - t)) := by
  obtain ⟨-, -, -, hbit⟩ := textAndFileBits name
  exact hbit q t hq ht

theorem headerBits_leading_pad (hpad : p.namePad = .leading) {t : Nat} (ht : t < 512 - 8 * name.length) :
    (headerBits p true mode name len)[4 + t]? = some false := by
  rw [headerBits_name (by omega) (by omega), hpad]
  exact padName_leading_pad (nameBitsRaw_file_length name ▸ ht)

theorem headerBits_leading_name (hpad : p.namePad = .leading) (hfit : name.length ≤ 64) {q t : Nat}
    (hq : q < name.length) (ht : t < 8) :
    (headerBits p true mode name len)[516 - 8 * name.length + 8 * q + t]? =
      some ((name.getD q 0#8).getLsbD (7 - t)) := by
  have hoff : 516 - 8 * name.length + 8 * q + t = 4 + (512 - 8 * name.length + (8 * q + t)) := by omega
  rw [hoff, headerBits_name (fun _ => hfit) (by omega), hpad, ← nameBitsRaw_file_length, padName_leading_name]
  exact nameBitsRaw_file_bit hq ht

theorem headerBits_trailing_name (hpad : p.namePad = .trailing) (hfit : name.length ≤ 64) {q t : Nat}
    (hq : q < name.length) (ht : t < 8) :
    (headerBits p true mode name len)[4 + 8 * q + t]? = some ((name.getD q 0#8).getLsbD (7 - t)) := by
  have hlen := nameBitsRaw_file_length name
  rw [Nat.add_assoc, headerBits_name (fun _ => hfit) (by omega), hpad, padName_trailing_name (by omega)]
  exact nameBitsRaw_file_bit hq ht

theorem headerBits_trailing_pad (hpad : p.namePad = .trailing) {t : Nat} (hlo : 8 * name.length ≤ t) (hhi : t < 512) :
    (headerBits p true mode name len)[4 + t]? = some false := by
  rw [headerBits_name (by omega) hhi, hpad]
  exact padName_trailing_pad (nameBitsRaw_file_length name ▸ hlo) hhi

end fields

/-- Settles O21: the fields one after the other. -/
theorem headerFields : Obligations.HeaderFields := by
  intro p isFile mode name len hname
  refine ⟨headerBits_length p isFile mode len hname, rfl, fun _ => headerBits_mode, ?text, ?leading, ?trailing,
    fun _ => headerBits_start hname, fun _ => headerBits_end hname, rfl, rfl⟩
  case text => rintro rfl t; exact headerBits_text
  case leading =>
    rintro rfl hpad
    exact ⟨fun _ => headerBits_leading_pad hpad, fun _ _ => headerBits_leading_name hpad (hname rfl)⟩
  case trailing =>
    rintro rfl hpad
    exact ⟨fun _ _ => headerBits_trailing_name hpad (hname rfl), fun _ => headerBits_trailing_pad hpad⟩

/-! ### HDR_BUILD (41_header.md R148, R151) -/

/-- An idle block runs a command that is over after its start (45_control.md R240, R244). -/
theorem exec_of_start {i : Instr} {s t : State} (hi : s.idle) (ht : startCommand i (accept (encode i) s) = t)
    (hf : t.eng.phase = .finish) : exec i s = .next (complete t) := by
  rw [exec_eq_callCommand]
  exact callCommand_of_start hi ((startWord_of_decode (decode_encode i)).trans ht) hf

theorem hdrBuildCheck_modeReserved {s : State} (h : 2 < s.mode) : hdrBuildCheck s = .modeReserved := if_pos h

theorem hdrBuildCheck_nameTooLong {s : State} (hm : s.mode ≤ 2) (h : nameTooLong s = true) :
    hdrBuildCheck s = .nameTooLong := by
  rw [hdrBuildCheck, if_neg (Nat.not_lt.mpr hm), if_pos h]

theorem hdrBuildCheck_valueTooWide {s : State} (hm : s.mode ≤ 2) (hn : nameTooLong s = false)
    (h : 2 ^ 32 ≤ s.streamLen) : hdrBuildCheck s = .valueTooWide := by
  rw [hdrBuildCheck, if_neg (Nat.not_lt.mpr hm), hn, if_neg Bool.false_ne_true, if_pos h]

theorem hdrBuildCheck_none {s : State} (hm : s.mode ≤ 2) (hn : nameTooLong s = false) (h : s.streamLen < 2 ^ 32) :
    hdrBuildCheck s = .none := by
  rw [hdrBuildCheck, if_neg (Nat.not_lt.mpr hm), hn, if_neg Bool.false_ne_true, if_neg (Nat.not_le.mpr h)]

/-- A failed check writes nothing. -/
theorem exec_hdrBuild_error {s : State} {e : ErrCode} (hi : s.idle) (he : hdrBuildCheck s = e) (hne : e ≠ .none) :
    exec .hdrBuild s = .next (s.completed 0x00000003#32 e) := by
  subst he
  exact exec_of_start (i := .hdrBuild) hi (if_neg hne) rfl

theorem exec_hdrBuild_ok {s : State} (hi : s.idle) (h : hdrBuildCheck s = .none) :
    exec .hdrBuild s = .next ((storeHeader s).completed 0x00000003#32 .none) :=
  exec_of_start (i := .hdrBuild) hi (if_pos h) rfl

/-- Settles O22: the check decides between `exec_hdrBuild_error` and `exec_hdrBuild_ok`. -/
theorem hdrBuildResult : Obligations.HdrBuildResult := by
  intro s hi
  refine ⟨fun hm => ?mode, fun hm hf hl => ?name, fun hm hn hv => ?wide, fun hm hn hv => ?ok⟩
  case mode => exact exec_hdrBuild_error hi (hdrBuildCheck_modeReserved hm) (by decide)
  case name =>
    have hlong : nameTooLong s = true := by simp [nameTooLong, hf, hl]
    exact exec_hdrBuild_error hi (hdrBuildCheck_nameTooLong hm hlong) (by decide)
  case wide => exact exec_hdrBuild_error hi (hdrBuildCheck_valueTooWide hm (nameTooLong_false.mpr hn) hv) (by decide)
  case ok =>
    have hshort := nameTooLong_false.mpr hn
    exact ⟨_, exec_hdrBuild_ok hi (hdrBuildCheck_none hm hshort hv), rfl,
      fun h hh => hdrBit_hdrOfBits_getElem (builtHeader_length hshort) hh⟩

/-! ### HDR_PARSE (41_header.md R149, R150, R152) -/

theorem exec_hdrParse {s : State} (hi : s.idle) :
    exec .hdrParse s = .next ((parseHeader s).completed 0x00000004#32 .none) :=
  exec_of_start hi rfl rfl

@[simp] theorem nbufRead_completed (s : State) (v : Word) (e : ErrCode) (j : Nat) :
    nbufRead (s.completed v e) j = nbufRead s j := rfl

/-- Settles O23: `parseHeader` is the frame; its 64 writes are `nbufRead_parseHeader`. -/
theorem hdrParseResult : Obligations.HdrParseResult := by
  intro s hi
  refine ⟨_, exec_hdrParse hi, rfl, fun j hj => ?field, fun j hj => ?rest⟩
  case field => rw [nbufRead_completed, nbufRead_parseHeader, if_pos hj, nameFieldByte]
  case rest => rw [nbufRead_completed, nbufRead_parseHeader, if_neg (Nat.not_lt.mpr hj)]

/-! ### HDR_BUILD, then HDR_PARSE (41_header.md R153) -/

/-- A slice of a stored sequence whose bits are known. -/
theorem hdrSlice_of_bits {bits : List Bool} (hlen : bits.length = 580) {a w : Nat} {f : Nat → Bool}
    (h : ∀ t < w, bits[a + t]? = some (f t)) : hdrSlice (hdrOfBits bits) a (a + w) = (List.range w).map f := by
  rw [hdrSlice, Nat.add_sub_cancel_left]
  refine List.map_congr_left fun t ht => ?_
  rw [hdrBit_hdrOfBits hlen, List.getD_eq_getElem?_getD, h t (List.mem_range.mp ht), Option.getD_some]

/-- An integer field of a stored sequence is read back. -/
theorem bitsToInt_hdrSlice {bits : List Bool} (hlen : bits.length = 580) {a w v : Nat} (hv : v < 2 ^ w)
    (h : ∀ t < w, bits[a + t]? = some (v.testBit (w - 1 - t))) :
    bitsToInt (hdrSlice (hdrOfBits bits) a (a + w)) = v := by
  rw [hdrSlice_of_bits hlen h]
  exact bitsToInt_intBits_of_lt hv

/-- A byte of the name field of a stored sequence is read back. -/
theorem nameFieldByte_of_bits {bits : List Bool} (hlen : bits.length = 580) {j : Nat} {b : Byte}
    (h : ∀ t < 8, bits[4 + 8 * j + t]? = some (b.getLsbD (7 - t))) : nameFieldByte (hdrOfBits bits) j = b := by
  have hend : 12 + 8 * j = 4 + 8 * j + 8 := by omega
  rw [nameFieldByte, hend, bitsToInt_hdrSlice hlen b.isLt h, BitVec.ofNat_toNat, BitVec.setWidth_eq]

theorem nameFieldByte_of_zeros {bits : List Bool} (hlen : bits.length = 580) {j : Nat}
    (h : ∀ t < 8, bits[4 + 8 * j + t]? = some false) : nameFieldByte (hdrOfBits bits) j = 0#8 :=
  nameFieldByte_of_bits hlen fun t ht => by rw [h t ht, BitVec.getLsbD_zero]

theorem nameBytes_getD {s : State} {q : Nat} (hq : q < s.regs.cfg.nameLen.toNat) :
    (nameBytes s).getD q 0#8 = nbufRead s q := by
  rw [List.getD_eq_getElem _ _ (by simpa using hq)]
  simp [nameBytes]

section roundTrip

variable {s : State} (hshort : nameTooLong s = false)
include hshort

theorem nameBytes_length_le (hf : s.regs.cfg.isFile = true) : (nameBytes s).length ≤ 64 := by
  rw [nameBytes_length]
  exact nameTooLong_false.mp hshort hf

theorem builtHeader_fileType : hdrBit (hdrOfBits (builtHeader s)) 0 = s.regs.cfg.isFile :=
  hdrBit_hdrOfBits (builtHeader_length hshort) 0

theorem builtHeader_mode : bitsToInt (hdrSlice (hdrOfBits (builtHeader s)) 1 4) = s.regs.cfg.mode.toNat :=
  bitsToInt_hdrSlice (w := 3) (builtHeader_length hshort) s.regs.cfg.mode.isLt fun _ => headerBits_mode

theorem builtHeader_start :
    bitsToInt (hdrSlice (hdrOfBits (builtHeader s)) 516 548) = s.params.startFieldValue.toNat :=
  bitsToInt_hdrSlice (w := 32) (builtHeader_length hshort) s.params.startFieldValue.isLt fun _ =>
    headerBits_start (nameBytes_length_le hshort)

theorem builtHeader_end (hv : s.streamLen < 2 ^ 32) :
    bitsToInt (hdrSlice (hdrOfBits (builtHeader s)) 548 580) = s.streamLen :=
  bitsToInt_hdrSlice (w := 32) (builtHeader_length hshort) hv fun _ => headerBits_end (nameBytes_length_le hshort)

theorem nameFieldByte_leading_name (hf : s.regs.cfg.isFile = true) (hpad : s.params.namePad = .leading) {q : Nat}
    (hq : q < s.regs.cfg.nameLen.toNat) :
    nameFieldByte (hdrOfBits (builtHeader s)) (64 - s.regs.cfg.nameLen.toNat + q) = nbufRead s q := by
  have hfit := nameBytes_length_le hshort hf
  refine nameFieldByte_of_bits (builtHeader_length hshort) fun t ht => ?_
  rw [← nameBytes_getD hq, builtHeader, hf]
  rw [← nameBytes_length] at hq ⊢
  have hoff : 4 + 8 * (64 - (nameBytes s).length + q) + t = 516 - 8 * (nameBytes s).length + 8 * q + t := by omega
  rw [hoff]
  exact headerBits_leading_name hpad hfit hq ht

theorem nameFieldByte_leading_pad (hf : s.regs.cfg.isFile = true) (hpad : s.params.namePad = .leading) {j : Nat}
    (hj : j < 64 - s.regs.cfg.nameLen.toNat) : nameFieldByte (hdrOfBits (builtHeader s)) j = 0#8 := by
  refine nameFieldByte_of_zeros (builtHeader_length hshort) fun t ht => ?_
  rw [← nameBytes_length] at hj
  rw [builtHeader, hf, Nat.add_assoc]
  exact headerBits_leading_pad hpad (by omega)

theorem nameFieldByte_trailing_name (hf : s.regs.cfg.isFile = true) (hpad : s.params.namePad = .trailing) {q : Nat}
    (hq : q < s.regs.cfg.nameLen.toNat) : nameFieldByte (hdrOfBits (builtHeader s)) q = nbufRead s q := by
  refine nameFieldByte_of_bits (builtHeader_length hshort) fun t ht => ?_
  rw [← nameBytes_getD hq, builtHeader, hf]
  exact headerBits_trailing_name hpad (nameBytes_length_le hshort hf) (by rwa [nameBytes_length]) ht

theorem nameFieldByte_trailing_pad (hf : s.regs.cfg.isFile = true) (hpad : s.params.namePad = .trailing) {j : Nat}
    (hlo : s.regs.cfg.nameLen.toNat ≤ j) (hhi : j < 64) : nameFieldByte (hdrOfBits (builtHeader s)) j = 0#8 := by
  refine nameFieldByte_of_zeros (builtHeader_length hshort) fun t ht => ?_
  rw [← nameBytes_length] at hlo
  rw [builtHeader, hf, Nat.add_assoc]
  exact headerBits_trailing_pad hpad (by omega) (by omega)

theorem nameFieldByte_text (hf : s.regs.cfg.isFile = false) {j : Nat} (hj : j < 64) :
    nameFieldByte (hdrOfBits (builtHeader s)) j = 0#8 := by
  refine nameFieldByte_of_zeros (builtHeader_length hshort) fun t ht => ?_
  rw [builtHeader, hf, Nat.add_assoc]
  exact headerBits_text (by omega)

end roundTrip

/-- NBUF once a stored header has been parsed. -/
theorem nbufRead_parseHeader_storeHeader (s : State) {v w : Word} {e f : ErrCode} {j : Nat} (hj : j < 64) :
    nbufRead ((parseHeader ((storeHeader s).completed v e)).completed w f) j =
      nameFieldByte (hdrOfBits (builtHeader s)) j := by
  rw [nbufRead_completed, nbufRead_parseHeader, if_pos hj]
  rfl

/-- Settles O24: HDR_BUILD stores the built header, and HDR_PARSE reads each of its fields back. -/
theorem headerRoundTrip : Obligations.HeaderRoundTrip := by
  intro s hi hm hn (hv : s.streamLen < 2 ^ 32)
  have hshort := nameTooLong_false.mpr hn
  have hbuild := exec_hdrBuild_ok hi (hdrBuildCheck_none hm hshort hv)
  refine ⟨_, _, hbuild, exec_hdrParse rfl, builtHeader_length hshort, builtHeader_fileType hshort, ?mode, ?encEnd,
    ?start, fun hf hpad => ⟨fun q hq => ?leadingName, fun j hj => ?leadingPad⟩,
    fun hf hpad => ⟨fun q hq => ?trailingName, fun j hlo hhi => ?trailingPad⟩, fun hf j hj => ?text⟩
  case mode =>
    change BitVec.ofNat 3 (bitsToInt (hdrSlice (hdrOfBits (builtHeader s)) 1 4)) = s.regs.cfg.mode
    rw [builtHeader_mode hshort, BitVec.ofNat_toNat, BitVec.setWidth_eq]
  case encEnd =>
    change (BitVec.ofNat 32 (bitsToInt (hdrSlice (hdrOfBits (builtHeader s)) 548 580))).toNat = s.streamLen
    rw [builtHeader_end hshort hv, BitVec.toNat_ofNat, Nat.mod_eq_of_lt hv]
  case start =>
    change BitVec.ofNat 32 (bitsToInt (hdrSlice (hdrOfBits (builtHeader s)) 516 548)) = s.params.startFieldValue
    rw [builtHeader_start hshort, BitVec.ofNat_toNat, BitVec.setWidth_eq]
  case leadingName =>
    have hfit := hn hf
    rw [nbufRead_parseHeader_storeHeader s (by omega), nameFieldByte_leading_name hshort hf hpad hq]
  case leadingPad => rw [nbufRead_parseHeader_storeHeader s (by omega), nameFieldByte_leading_pad hshort hf hpad hj]
  case trailingName =>
    have hfit := hn hf
    rw [nbufRead_parseHeader_storeHeader s (by omega), nameFieldByte_trailing_name hshort hf hpad hq]
  case trailingPad =>
    rw [nbufRead_parseHeader_storeHeader s hhi, nameFieldByte_trailing_pad hshort hf hpad hlo hhi]
  case text => rw [nbufRead_parseHeader_storeHeader s hj, nameFieldByte_text hshort hf hj]

end Sys2Proof.Machine
end

section
/-! SUPPORT. O17, O18, O19, O20: walk positions and slots, the selects and LSB operations, and the slots of the
stream. -/

namespace Sys2Proof.Machine

/-! ### walk positions (42_walker.md R171, R172) -/

theorem walkIndex_lt {w h x y : Nat} (hx : x < w) (hy : y < h) : x * h + y < w * h :=
  calc x * h + y < (x + 1) * h := by rw [Nat.succ_mul]; exact Nat.add_lt_add_left hy _
    _ ≤ w * h := Nat.mul_le_mul_right h hx

theorem walkX_index {h y : Nat} (x : Nat) (hy : y < h) : walkX h (x * h + y) = x := by
  rw [walkX, Nat.mul_comm, Nat.mul_add_div (Nat.zero_lt_of_lt hy), Nat.div_eq_of_lt hy, Nat.add_zero]

theorem walkY_index {h y : Nat} (x : Nat) (hy : y < h) : walkY h (x * h + y) = y := by
  rw [walkY, Nat.mul_comm, Nat.mul_add_mod, Nat.mod_eq_of_lt hy]

theorem slotOf_lt_iff (n k : Nat) (c : Channel) : slotOf k c < 3 * n ↔ k < n := by
  have hc := c.idx_lt
  rw [slotOf]
  omega

/-- Settles O17: pixel indices and slots are the quotients and remainders of division by `h` and by 3. -/
theorem walkIndices : Obligations.WalkIndices :=
  ⟨fun _ _ k hk => ⟨walkX_lt hk, walkY_lt (Nat.pos_of_lt_mul_left hk) k, walk_eq.symm⟩,
    fun _ _ x _ hx hy => ⟨walkIndex_lt hx hy, walkX_index x hy, walkY_index x hy⟩,
    fun n k c => ⟨slotOf_div k c, slotOf_mod k c, chanOfSlot_slotOf k c, slotOf_lt_iff n k c⟩,
    slotOf_chanOfSlot⟩

/-! ### the selects and the LSB operations (42_walker.md R174 to R176, R179, R180) -/

theorem payloadEligible_iff (m k : Nat) : payloadEligible m k = true ↔ m = 0 ∨ (m = 1 ∧ k % 2 = 0) := by
  simp [payloadEligible]

theorem writeE_iff (i m k : Nat) : writeE i m k = true ↔ i < 580 ∨ payloadEligible m k = true := by
  simp [writeE]

theorem readD_iff (s m k : Nat) : readD s m k = true ↔ 580 ≤ s ∧ payloadEligible m k = true := by
  simp [readD]

theorem lsbWrite_getLsbD_zero (v : Byte) (b : Bool) : (lsbWrite v b).getLsbD 0 = b := lsbExtract_lsbWrite v b

theorem lsbWrite_getLsbD_of_pos (v : Byte) (b : Bool) {j : Nat} (hj : 1 ≤ j) :
    (lsbWrite v b).getLsbD j = v.getLsbD j := by
  have hne : j ≠ 0 := Nat.ne_of_gt hj
  have hmask : (0xFE#8).getLsbD j = decide (j < 8) := by
    rw [show 0xFE#8 = ~~~1#8 from rfl, BitVec.getLsbD_not, BitVec.getLsbD_one]
    simp [hne]
  have hbit : (BitVec.setWidth 8 (BitVec.ofBool b)).getLsbD j = false := by simp [hne]
  rw [lsbWrite, BitVec.getLsbD_or, BitVec.getLsbD_and, hmask, hbit, Bool.or_false]
  simpa using BitVec.lt_of_getLsbD

/-- An LSB write of the bit that is already there changes nothing. -/
theorem lsbWrite_of_getLsbD_zero {v : Byte} {b : Bool} (h : v.getLsbD 0 = b) : lsbWrite v b = v := by
  apply BitVec.eq_of_getLsbD_eq
  intro j _
  cases j with
  | zero => rw [lsbWrite_getLsbD_zero, h]
  | succ j => exact lsbWrite_getLsbD_of_pos v b (Nat.succ_pos j)

/-- Settles O18: the selects by their conditions, and an LSB write bit by bit. -/
theorem selectsAndLsbOperations : Obligations.SelectsAndLsbOperations := by
  refine ⟨fun i s m k => ⟨payloadEligible_iff m k, ?write, ?read⟩,
    fun v b => ⟨lsbWrite_getLsbD_zero v b, fun _ => lsbWrite_getLsbD_of_pos v b, rfl, lsbWrite_of_getLsbD_zero⟩⟩
  case write => rw [writeE_iff, payloadEligible_iff]
  case read => rw [readD_iff, payloadEligible_iff]

/-! ### the slots of the stream, and capacity (42_walker.md R177, R178) -/

theorem writeE_of_ge {i : Nat} (hi : 580 ≤ i) (m k : Nat) : writeE i m k = payloadEligible m k := by
  rw [Bool.eq_iff_iff, writeE_iff, or_iff_right (Nat.not_lt.mpr hi)]

theorem readD_of_ge {s : Nat} (hs : 580 ≤ s) (m k : Nat) : readD s m k = payloadEligible m k := by
  rw [Bool.eq_iff_iff, readD_iff, and_iff_right hs]

theorem sigma_of_lt {i : Nat} (m : Nat) (hi : i < 580) : sigma m i = i := if_neg fun h => Nat.not_le.mpr hi h.2

theorem sigma_zero (i : Nat) : sigma 0 i = i := if_neg fun h => Nat.zero_ne_one h.1

theorem sigma_one_add (n : Nat) : sigma 1 (580 + n) = 3 * (194 + 2 * (n / 3)) + n % 3 := by
  rw [sigma, if_pos ⟨rfl, Nat.le_add_right _ _⟩, Nat.add_sub_cancel_left]

theorem sigma_ge {m i : Nat} (hm : m ≤ 1) (hi : 580 ≤ i) : 580 ≤ sigma m i := by
  rw [← Nat.not_lt, ← streamIndexAt_lt_iff m, (streamIndexAt_sigma hm i).1]
  exact Nat.not_lt.mpr hi

/-- The closed form counts the eligible slots of a range. -/
theorem eligibleCount_eq_card (m a b : Nat) :
    eligibleCount m a b = ((Finset.Ico a b).filter (fun s => payloadEligible m (s / 3) = true)).card := by
  rw [eligibleCount_eq_length, ← List.toFinset_card_of_nodup (List.nodup_range.filter _)]
  congr 1
  ext s
  simp only [List.mem_toFinset, List.mem_filter, List.mem_range, Finset.mem_filter, Finset.mem_Ico, Bool.and_eq_true,
    decide_eq_true_eq]
  tauto

theorem eligibleCount_sigma {m i : Nat} (hm : m ≤ 1) (hi : 580 ≤ i) : eligibleCount m 580 (sigma m i) = i - 580 := by
  have hidx := (streamIndexAt_sigma hm i).1
  rw [streamIndexAt_ge (sigma_ge hm hi)] at hidx
  omega

theorem payloadEligible_sigma {m i : Nat} (hm : m ≤ 1) (hi : 580 ≤ i) :
    payloadEligible m (sigma m i / 3) = true := by
  rw [← writeE_of_ge hi]
  exact (streamIndexAt_sigma hm i).2

/-- A slot carries a stream bit exactly when the encoder selects it there. -/
theorem exists_sigma_eq_iff {m : Nat} (hm : m ≤ 1) (s : Nat) :
    (∃ i, sigma m i = s) ↔ writeE (streamIndexAt m s) m (s / 3) = true := by
  constructor
  · rintro ⟨i, rfl⟩
    obtain ⟨hidx, hsel⟩ := streamIndexAt_sigma hm i
    rwa [hidx]
  · exact fun h => ⟨_, sigma_streamIndexAt hm h⟩

/-- Settles O19: `streamIndexAt` inverts σ, and counts the eligible slots from slot 580 on. -/
theorem streamPlacement : Obligations.StreamPlacement := by
  intro m hm
  refine ⟨fun i k hi => (writeE_iff i m k).mpr (.inl hi), fun i s k hi hs => ⟨writeE_of_ge hi m k, readD_of_ge hs m k⟩,
    fun i hi => sigma_of_lt m hi, fun i hi => ⟨sigma_ge hm hi, payloadEligible_sigma hm hi, ?count⟩, fun s => ?range,
    sigma_zero, sigma_one_add⟩
  case count => rw [← eligibleCount_eq_card, eligibleCount_sigma hm hi]
  case range => rw [exists_sigma_eq_iff hm, writeE_iff, streamIndexAt_lt_iff]

/-- A stream bit's slot lies below `b` exactly when the carry count there has passed the bit. -/
theorem sigma_lt_iff {m : Nat} (hm : m ≤ 1) (i b : Nat) : sigma m i < b ↔ i < streamIndexAt m b := by
  refine ⟨fun h => ?_, sigma_lt_of_le hm⟩
  obtain ⟨hidx, hsel⟩ := streamIndexAt_sigma hm i
  calc i < streamIndexAt m (sigma m i + 1) := by rw [streamIndexAt_succ, hidx, hsel]; exact Nat.lt_succ_self i
    _ ≤ streamIndexAt m b := streamIndexAt_mono m h

theorem payloadCapacity_zero (n : Nat) : payloadCapacity 0 n = 3 * n - 580 := rfl

theorem payloadCapacity_one {n : Nat} (hn : 580 ≤ 3 * n) : payloadCapacity 1 n = 3 * ((n - 193) / 2) := by
  simp only [payloadCapacity, eligibleCount, eligibleBelow, if_neg Nat.one_ne_zero, if_true]
  omega

theorem fits_iff_sigma_lt {m b : Nat} (hm : m ≤ 1) (hb : 580 ≤ b) (n : Nat) :
    (580 ≤ 3 * n ∧ b - 580 ≤ payloadCapacity m n) ↔ sigma m (b - 1) < 3 * n := by
  rw [sigma_lt_iff hm, payloadCapacity]
  by_cases hn : 580 ≤ 3 * n
  · rw [streamIndexAt_ge hn]
    omega
  · rw [streamIndexAt_lt (Nat.not_le.mp hn)]
    omega

/-- Settles O20: a stream fits when the stream index reached at the end of the image is its length or more. -/
theorem capacityCountsEligibleSlots : Obligations.CapacityCountsEligibleSlots :=
  ⟨eligibleCount_eq_card, fun n hn => ⟨payloadCapacity_zero n, payloadCapacity_one hn⟩,
    fun _ n _ hm hb => fits_iff_sigma_lt hm hb n⟩

end Sys2Proof.Machine
end

section
/-! SUPPORT. O25, O26, O28: ENCODE's checks, the stream that does not fit, and the stream in the image. -/

namespace Sys2Proof.Machine

/-! ### the checks before any write (43_encoder.md R190, R191) -/

theorem encodeCheck_badGeometry {s : State} (h : s.w = 0 ∨ s.h = 0) : encodeCheck s = .badGeometry := if_pos h

section positiveGeometry

variable {s : State} (hw : 0 < s.w) (hh : 0 < s.h)
include hw hh

theorem encodeCheck_modeReserved (hm : 1 < s.mode) : encodeCheck s = .modeReserved := by
  rw [encodeCheck, if_neg (by omega), if_pos hm]

theorem encodeCheck_nameTooLong (hm : s.mode ≤ 1) (hn : nameTooLong s = true) : encodeCheck s = .nameTooLong := by
  rw [encodeCheck, if_neg (by omega), if_neg (Nat.not_lt.mpr hm), if_pos hn]

theorem encodeCheck_bufferRange (hm : s.mode ≤ 1) (hn : nameTooLong s = false) (hb : s.params.pbufBytes < s.len) :
    encodeCheck s = .bufferRange := by
  rw [encodeCheck, if_neg (by omega), if_neg (Nat.not_lt.mpr hm), hn, if_neg Bool.false_ne_true, if_pos hb]

theorem encodeCheck_valueTooWide (hm : s.mode ≤ 1) (hn : nameTooLong s = false) (hb : s.len ≤ s.params.pbufBytes)
    (hv : 2 ^ 32 ≤ s.streamLen) : encodeCheck s = .valueTooWide := by
  rw [encodeCheck, if_neg (by omega), if_neg (Nat.not_lt.mpr hm), hn, if_neg Bool.false_ne_true,
    if_neg (Nat.not_lt.mpr hb), if_pos hv]

end positiveGeometry

/-- A failed check leaves only the start of the hidden state. -/
theorem exec_encode_error {s : State} {e : ErrCode} (hi : s.idle) (he : encodeCheck s = e) (hne : e ≠ .none) :
    exec .encode s = .next ((beginEncode s).completed 0x00000001#32 e) := by
  subst he
  exact exec_of_start (i := .encode) hi (if_neg hne) rfl

/-- Settles O25: the checks of `encodeCheck` in order, each reported by `exec_encode_error`. -/
theorem encodeChecksInOrder : Obligations.EncodeChecksInOrder := by
  intro s hi
  refine ⟨fun hg => ?geometry, fun hw hh => ⟨fun hm => ?mode, fun hm => ⟨fun hf hl => ?name, fun hn => ⟨fun hb => ?range,
    fun hb hv => ?wide⟩⟩⟩⟩
  case geometry => exact exec_encode_error hi (encodeCheck_badGeometry hg) (by decide)
  case mode => exact exec_encode_error hi (encodeCheck_modeReserved hw hh hm) (by decide)
  case name =>
    have hlong : nameTooLong s = true := by simp [nameTooLong, hf, hl]
    exact exec_encode_error hi (encodeCheck_nameTooLong hw hh hm hlong) (by decide)
  case range => exact exec_encode_error hi (encodeCheck_bufferRange hw hh hm (nameTooLong_false.mpr hn) hb) (by decide)
  case wide =>
    exact exec_encode_error hi (encodeCheck_valueTooWide hw hh hm (nameTooLong_false.mpr hn) hb hv) (by decide)

/-! ### a stream that does not fit (43_encoder.md R192) -/

theorem streamFits_eq_false_iff (s : State) :
    streamFits s = false ↔ 3 * s.n < 580 ∨ payloadCapacity s.mode s.n < 8 * s.len := by
  rw [streamFits, Bool.and_eq_false_iff, decide_eq_false_iff_not, decide_eq_false_iff_not, Nat.not_le, Nat.not_le]

theorem exec_encode_tooSmall {s : State} (hi : s.idle) (hc : encodeCheck s = .none) (hf : streamFits s = false) :
    exec .encode s = .next ((storeHeader (beginEncode s)).completed 0x00000001#32 .imageTooSmall) := by
  have hstart : startEncode (accept 0x00000001#32 s) =
      raiseError .imageTooSmall (storeHeader (beginEncode (accept 0x00000001#32 s))) := by
    have hc' : encodeCheck (accept 0x00000001#32 s) = .none := hc
    have hf' : streamFits (accept 0x00000001#32 s) = false := hf
    rw [startEncode, if_pos hc', hf', if_neg Bool.false_ne_true]
  exact exec_of_start (i := .encode) hi hstart rfl

/-- Settles O26: the header is stored before the capacity check, and no pixel is touched after it. -/
theorem encodeTooSmallKeepsImage : Obligations.EncodeTooSmallKeepsImage := by
  intro s hi hc z hsmall
  obtain ⟨-, -, -, hname, -, -⟩ := encodeCheck_none hc
  exact ⟨_, exec_encode_tooSmall hi hc ((streamFits_eq_false_iff s).mpr hsmall), rfl,
    fun h hh => hdrBit_hdrOfBits_getElem (builtHeader_length hname) hh⟩

/-! ### the stream (43_encoder.md R193) -/

@[simp] theorem payloadBytes_length (s : State) : (payloadBytes s).length = s.len := by simp [payloadBytes]

theorem stream_length {s : State} (hn : nameTooLong s = false) : s.stream.length = s.streamLen := by
  rw [State.stream, List.length_append, builtHeader_length hn, fileToBits_eq_textToBits, textToBits_length,
    payloadBytes_length, State.streamLen]

theorem stream_header {s : State} (hn : nameTooLong s = false) {h : Nat} (hh : h < 580) :
    s.stream[h]? = some (hdrBit (hdrOfBits (builtHeader s)) h) := by
  have hlen := builtHeader_length hn
  rw [State.stream, List.getElem?_append_left (by omega), hdrBit_hdrOfBits_getElem hlen hh]

theorem payloadBytes_getD {s : State} {q : Nat} (hq : q < s.len) : (payloadBytes s).getD q 0#8 = pbufRead s q := by
  rw [List.getD_eq_getElem _ _ (by simpa using hq)]
  simp [payloadBytes]

/-- The bits that the walk takes once the header is stored are those of the stream. -/
theorem streamBit_storeHeader_accept {s : State} (hn : nameTooLong s = false) (v : Word) {i : Nat}
    (hi : i < s.streamLen) : streamBit (storeHeader (accept v s)) i = s.stream.getD i false := by
  have hlen := builtHeader_length hn
  by_cases hh : i < 580
  · rw [streamBit, if_pos hh, List.getD_eq_getElem?_getD, stream_header hn hh]
    rfl
  · have hbyte : (i - 580) / 8 < s.len := by
      simp only [State.streamLen] at hi
      omega
    rw [streamBit, if_neg hh, State.stream, List.getD_append_right _ _ _ _ (by omega), hlen, fileToBits_eq_textToBits,
      textToBits_getD, payloadBytes_getD hbyte]
    rfl

/-! ### the slots that take a stream bit (42_walker.md R177) -/

theorem encOn_sigma {s : State} (hm : s.mode ≤ 1) {i : Nat} (hi : i < s.streamLen) :
    encOn s (sigma s.mode i) = true := by
  obtain ⟨hidx, hsel⟩ := streamIndexAt_sigma hm i
  simp [encOn, hidx, hsel, hi]

theorem encOn_eq_false {s : State} (hm : s.mode ≤ 1) {n : Nat} (hn : ∀ i < s.streamLen, sigma s.mode i ≠ n) :
    encOn s n = false := by
  rw [encOn, Bool.and_eq_false_iff, decide_eq_false_iff_not]
  by_cases hi : streamIndexAt s.mode n < s.streamLen
  · exact .inr (Bool.eq_false_iff.mpr fun hsel => hn _ hi (sigma_streamIndexAt hm hsel))
  · exact .inl hi

/-- The slot of stream bit `i` takes that bit. -/
theorem encByte_sigma {s : State} (hm : s.mode ≤ 1) {i : Nat} (hi : i < s.streamLen) :
    encByte s (sigma s.mode i) = lsbWrite (s.slot (sigma s.mode i)) (streamBit s i) := by
  obtain ⟨hidx, -⟩ := streamIndexAt_sigma hm i
  rw [encByte, encOn_sigma hm hi, hidx, lane, if_pos rfl]

/-- A slot without a stream bit keeps its value. -/
theorem encByte_of_not_sigma {s : State} (hm : s.mode ≤ 1) {n : Nat} (hn : ∀ i < s.streamLen, sigma s.mode i ≠ n) :
    encByte s n = s.slot n := by
  rw [encByte, encOn_eq_false hm hn, lane, if_neg Bool.false_ne_true]

theorem sigma_le_lastSlot {s : State} (hm : s.mode ≤ 1) {i : Nat} (hi : i < s.streamLen) :
    sigma s.mode i ≤ s.lastSlot := by
  rcases Nat.eq_or_lt_of_le (Nat.le_sub_one_of_lt hi) with rfl | hlt
  · exact Nat.le_refl _
  · exact Nat.le_of_lt (sigma_strictMono hm hlt)

/-- Once every slot of the stream is processed, the image holds the stream. -/
theorem EncImg.byteAt_sigma {s : State} {img : Image} {m : Nat} (h : EncImg s img m) (hm : s.mode ≤ 1)
    (hlast : s.lastSlot < m) {i : Nat} (hi : i < s.streamLen) :
    img.byteAt (s.slotAddr (sigma s.mode i)) =
      lsbWrite (s.image.byteAt (s.slotAddr (sigma s.mode i))) (streamBit s i) := by
  rw [h.done _ (Nat.lt_of_le_of_lt (sigma_le_lastSlot hm hi) hlast), encByte_sigma hm hi]
  rfl

/-- An address that carries no stream bit keeps its value: it is an unselected slot, or no processed slot at all. -/
theorem EncImg.byteAt_other {s : State} {img : Image} {m : Nat} (h : EncImg s img m) (hm : s.mode ≤ 1) {a : Nat}
    (ha : ∀ i < s.streamLen, a ≠ s.slotAddr (sigma s.mode i)) : img.byteAt a = s.image.byteAt a := by
  by_cases hslot : ∃ n < m, s.slotAddr n = a
  · obtain ⟨n, hn, rfl⟩ := hslot
    have hoff : ∀ i < s.streamLen, sigma s.mode i ≠ n := fun i hi e => ha i hi (congrArg s.slotAddr e.symm)
    rw [h.done n hn, encByte_of_not_sigma hm hoff]
    rfl
  · exact h.keep a fun n hn e => hslot ⟨n, hn, e⟩

/-! ### a successful ENCODE (43_encoder.md R193, R195, R196) -/

theorem storeHeader_encEnd_toNat {s : State} (hv : s.streamLen < 2 ^ 32) (v : Word) :
    (storeHeader (accept v s)).regs.encEnd.toNat = s.streamLen := by
  show (BitVec.ofNat 32 s.streamLen).toNat = s.streamLen
  rw [BitVec.toNat_ofNat, Nat.mod_eq_of_lt hv]

/-- A waited ENCODE is its start, its whole walk and its completion. -/
theorem exec_encode_ok {s : State} (hi : s.idle) (hc : encodeCheck s = .none) (hn : 580 ≤ 3 * s.n)
    (hf : 8 * s.len ≤ payloadCapacity s.mode s.n) (hp : ∀ k, k ≤ s.lastSlot / 3 → s.hasPixel k) :
    ∃ t, exec .encode s = .next (complete t) ∧
      EncDone (storeHeader (accept 0x00000001#32 s)) t (s.lastSlot / 3) := by
  obtain ⟨-, -, hm, -, -, hv⟩ := encodeCheck_none hc
  obtain ⟨u, hstart, hat⟩ := enc_start hc hn hf
  obtain ⟨t, hwalk, hdone⟩ : ∃ t, runEngine (s.lastSlot + 1) u = .next t ∧
      EncDone (storeHeader (accept 0x00000001#32 s)) t (s.lastSlot / 3) :=
    enc_run_all (storeHeader_encEnd_toNat hv _) hm hat hp
  refine ⟨t, ?_, hdone⟩
  have hlast : s.lastSlot < 3 * s.n := lastSlot_lt hm hn hf
  have hfinish : runEngine (s.lastSlot + 1 + 1) u = .next (complete t) := by
    rw [runEngine_add_next hwalk, runEngine_succ_next (by rw [hdone.phase]; decide) (engineStep_finish hdone.phase)]
    rfl
  have hrun : runEngine (s.lastSlot + 1 + 1 + 1) (accept 0x00000001#32 s) = .next (complete t) := by
    rw [runEngine_succ_next (by simp) hstart, hfinish]
  calc exec .encode s = runEngine (engineFuel s) (accept 0x00000001#32 s) := callCommand_idle hi _
    _ = .next (complete t) := runEngine_le hrun rfl (by rw [engineFuel]; omega)

/-- What a completed ENCODE leaves besides the image and the engine. -/
theorem EncDone.complete_frame {s t : State} {v : Word} {k : Nat} (h : EncDone (storeHeader (accept v s)) t k) :
    complete t = { (storeHeader s).completed v .none with image := t.image, eng := (complete t).eng } := by
  have hres := h.result
  calc complete t = complete { storeHeader (accept v s) with image := t.image, eng := t.eng } :=
        congrArg complete h.frame
    _ = _ := by simp only [complete, hres]; rfl

/-- Settles O28: the whole walk leaves `EncDone`, whose image holds the stream in the slots of σ and nothing else new. -/
theorem encodeEmbedsStream : Obligations.EncodeEmbedsStream := by
  intro s hi hc hn hf hp
  obtain ⟨-, -, hm, hname, -, -⟩ := encodeCheck_none hc
  obtain ⟨t, hexec, hdone⟩ := exec_encode_ok hi hc hn hf hp
  have himg := hdone.img
  have hlast : s.lastSlot < 3 * (s.lastSlot / 3 + 1) := by omega
  have hhdr : (complete t).hdr = hdrOfBits (builtHeader s) := congrArg State.hdr hdone.complete_frame
  refine ⟨complete t, hexec, ?frame, rfl, himg.width, himg.height, stream_length hname, fun h hh => ?header,
    fun i hlt => ?bit, fun a ha => himg.byteAt_other hm ha⟩
  case frame =>
    rw [hhdr]
    exact hdone.complete_frame
  case header => rw [hhdr, stream_header hname hh]
  case bit =>
    rw [← streamBit_storeHeader_accept hname 0x00000001#32 hlt]
    exact himg.byteAt_sigma hm hlast hlt

end Sys2Proof.Machine
end

section
/-! SUPPORT. O27: the slots of one pixel of ENCODE's walk, and the lane operation that they are together. -/

namespace Sys2Proof.Machine

/-- The lane that would take stream bit `i` at the pixel of the cursor is enabled: the stream has that bit, and the
multiplexer selects the pixel for it (42_walker.md R175, R181). -/
def State.laneOn (s : State) (i : Nat) : Bool := decide (i < s.regs.encEnd.toNat) && writeE i s.mode s.eng.k

/-- ENCODE's walk has written `p` back as the pixel of its cursor, with `i` stream bits placed so far: it stands at the
next pixel, or is over with the stream (43_encoder.md R194, R195). -/
def State.pixelWritten (s : State) (p : Pixel) (i : Nat) : State :=
  { s with
    image := s.image.setPixel (walkX s.h s.eng.k) (walkY s.h s.eng.k) p,
    eng := { s.eng with
      latch := p, i := i, k := s.eng.k + 1, c := .r, pcPix := s.eng.pcPix + 1,
      phase := if i = s.regs.encEnd.toNat then .finish else s.eng.phase,
      result := if i = s.regs.encEnd.toNat then .none else s.eng.result } }

/-- The walk at the next channel of the same pixel, with `p` in the latch and `i` stream bits placed so far. The latch
alone holds what the earlier channels did, so `pixelWritten` from here is, by definition, `pixelWritten` from `s`. -/
def State.nextChannel (s : State) (p : Pixel) (i : Nat) : State :=
  s.withEng { s.eng with latch := p, i := i, c := s.eng.c.next }

/-! ### the lanes -/

theorem laneOn_of_lt {s : State} {i : Nat} (h : i < s.regs.encEnd.toNat) : s.laneOn i = writeE i s.mode s.eng.k := by
  rw [State.laneOn, decide_eq_true h, Bool.true_and]

/-- Past the end of the stream no lane is enabled. -/
theorem laneOn_of_eq {s : State} {i : Nat} (h : i = s.regs.encEnd.toNat) : s.laneOn i = false := by
  rw [State.laneOn, decide_eq_false (by omega), Bool.false_and]

theorem add_laneOn_lt {s : State} {i : Nat} (h : i < s.regs.encEnd.toNat)
    (hne : i + (s.laneOn i).toNat ≠ s.regs.encEnd.toNat) : i + (s.laneOn i).toNat < s.regs.encEnd.toNat := by
  have := Bool.toNat_le (s.laneOn i)
  omega

/-! ### the next channel -/

@[simp] theorem nextChannel_eng_c (s : State) (p : Pixel) (i : Nat) : (s.nextChannel p i).eng.c = s.eng.c.next := rfl

theorem latchPixel_nextChannel {s : State} (hb : s.eng.c ≠ .b) (p : Pixel) (i : Nat) :
    latchPixel (s.nextChannel p i) = some p := by
  refine latchPixel_of_ne_r (s := s.nextChannel p i) fun hr => ?_
  have hidx := Channel.next_idx hb
  rw [nextChannel_eng_c] at hr
  rw [hr] at hidx
  cases hidx

/-! ### one slot -/

/-- A slot changes the latch and the stream index of the engine. -/
theorem encSlot_frame (s : State) (p : Pixel) :
    encSlot s p = { s.eng with latch := (encSlot s p).latch, i := (encSlot s p).i } := by
  unfold encSlot
  split <;> rfl

section slot

variable {s : State} {p : Pixel} (hph : s.eng.phase = .encWalk) (hlt : s.eng.i < s.regs.encEnd.toNat)
  (hl : latchPixel s = some p)
include hph hlt hl

/-- A slot that is neither the pixel's last nor the stream's keeps its byte in the latch. -/
theorem engineStep_nextChannel (hb : s.eng.c ≠ .b)
    (hne : s.eng.i + (s.laneOn s.eng.i).toNat ≠ s.regs.encEnd.toNat) :
    engineStep s = .next (s.nextChannel
      (p.set s.eng.c (lane (p.get s.eng.c) (s.laneOn s.eng.i) (streamBit s s.eng.i)))
      (s.eng.i + (s.laneOn s.eng.i).toNat)) := by
  rw [laneOn_of_lt hlt] at hne ⊢
  rw [← encSlot_i s p] at hne
  have hstep : engineStep s = .next (s.withEng (encSlot s p).advance) := by
    simp [engineStep, hph, encWalkStep, hl, hb, hne]
  rw [hstep, Engine.advance_of_ne_b (by rwa [encSlot_c]), encSlot_frame, encSlot_latch, encSlot_i]
  rfl

/-- The pixel's last slot, or the stream's, writes the pixel back. -/
theorem engineStep_pixelWritten (hpix : s.hasPixel s.eng.k)
    (hlast : s.eng.c = .b ∨ s.eng.i + (s.laneOn s.eng.i).toNat = s.regs.encEnd.toNat) :
    engineStep s = .next (s.pixelWritten
      (p.set s.eng.c (lane (p.get s.eng.c) (s.laneOn s.eng.i) (streamBit s s.eng.i)))
      (s.eng.i + (s.laneOn s.eng.i).toNat)) := by
  rw [laneOn_of_lt hlt] at hlast ⊢
  rw [← encSlot_i s p] at hlast
  have hwalk : engineStep s = encWalkStep s := by rw [engineStep, hph]
  rcases encWalkStep_cases s with ⟨hnone, -⟩ | ⟨q, hq, ⟨hb, hne, -⟩ | ⟨-, hhas, -⟩ | ⟨-, -, hstep⟩⟩
  · exact absurd (hl.symm.trans hnone) (by simp)
  all_goals obtain rfl : p = q := Option.some.inj (hl.symm.trans hq)
  · exact absurd hlast (not_or.mpr ⟨hb, hne⟩)
  · exact absurd (hpix.symm.trans hhas) (by decide)
  rw [hwalk, hstep, encSlot_frame, encSlot_latch, encSlot_i, State.pixelWritten]
  split <;> rfl

end slot

/-! ### the rest of a pixel -/

section pixel

variable {s : State} {p : Pixel} (hph : s.eng.phase = .encWalk) (hlt : s.eng.i < s.regs.encEnd.toNat)
  (hpix : s.hasPixel s.eng.k) (hl : latchPixel s = some p)
include hph hlt hpix hl

/-- From channel B, one step. -/
theorem runEngine_pixel_b (hc : s.eng.c = .b) :
    let eb := s.laneOn s.eng.i
    runEngine 1 s = .next (s.pixelWritten { p with b := lane p.b eb (streamBit s s.eng.i) } (s.eng.i + eb.toNat)) := by
  have hstep := engineStep_pixelWritten hph hlt hl hpix (.inl hc)
  rw [hc] at hstep
  exact runEngine_succ_next (by rw [hph]; decide) hstep 0

/-- From channel G, one or two steps. -/
theorem runEngine_pixel_g (hc : s.eng.c = .g) :
    let eg := s.laneOn s.eng.i
    let ib := s.eng.i + eg.toNat
    let eb := s.laneOn ib
    ∃ j, 1 ≤ j ∧ j ≤ 2 ∧ runEngine j s = .next (s.pixelWritten
      { p with g := lane p.g eg (streamBit s s.eng.i), b := lane p.b eb (streamBit s ib) } (ib + eb.toNat)) := by
  intro eg ib eb
  by_cases hend : ib = s.regs.encEnd.toNat
  · have hstep := engineStep_pixelWritten hph hlt hl hpix (.inr hend)
    have heb : eb = false := laneOn_of_eq hend
    rw [hc] at hstep
    refine ⟨1, by decide, by decide, ?_⟩
    rw [heb]
    exact runEngine_succ_next (by rw [hph]; decide) hstep 0
  · have hb : s.eng.c ≠ .b := by rw [hc]; decide
    have hstep := engineStep_nextChannel hph hlt hl hb hend
    rw [hc] at hstep
    refine ⟨2, by decide, by decide, ?_⟩
    rw [runEngine_succ_next (by rw [hph]; decide) hstep]
    exact runEngine_pixel_b (s := s.nextChannel _ ib) hph (add_laneOn_lt hlt hend) hpix (latchPixel_nextChannel hb _ _)
      (by rw [nextChannel_eng_c, hc]; rfl)

/-- From channel R, one to three steps: the lane operation on the whole pixel. -/
theorem runEngine_pixel_r (hc : s.eng.c = .r) :
    let er := s.laneOn s.eng.i
    let ig := s.eng.i + er.toNat
    let eg := s.laneOn ig
    let ib := ig + eg.toNat
    let eb := s.laneOn ib
    ∃ j, 1 ≤ j ∧ j ≤ 3 ∧ runEngine j s = .next (s.pixelWritten
      (laneOp p er eg eb (fun q => streamBit s (s.eng.i + q))) (ib + eb.toNat)) := by
  intro er ig eg ib eb
  have hrun : s.eng.phase ≠ .idle := by rw [hph]; decide
  have hbits : laneOp p er eg eb (fun q => streamBit s (s.eng.i + q)) =
      ⟨lane p.r er (streamBit s s.eng.i), lane p.g eg (streamBit s ig), lane p.b eb (streamBit s ib)⟩ := by
    simp only [laneOp, Nat.add_zero, ig, ib, Nat.add_assoc]
  rw [hbits]
  by_cases hend : ig = s.regs.encEnd.toNat
  · have hstep := engineStep_pixelWritten hph hlt hl hpix (.inr hend)
    have heg : eg = false := laneOn_of_eq hend
    have heb : eb = false := by simp only [eb, ib, heg]; exact laneOn_of_eq hend
    rw [hc] at hstep
    refine ⟨1, by decide, by decide, ?_⟩
    simp only [ib, heg, heb]
    exact runEngine_succ_next hrun hstep 0
  · have hb : s.eng.c ≠ .b := by rw [hc]; decide
    have hstep := engineStep_nextChannel hph hlt hl hb hend
    rw [hc] at hstep
    obtain ⟨j, hpos, hj, hrest⟩ := runEngine_pixel_g (s := s.nextChannel _ ig) hph (add_laneOn_lt hlt hend) hpix
      (latchPixel_nextChannel hb (p.set .r (lane p.r er (streamBit s s.eng.i))) _)
      (by rw [nextChannel_eng_c, hc]; rfl)
    refine ⟨j + 1, by omega, by omega, ?_⟩
    rw [runEngine_succ_next hrun hstep]
    exact hrest

end pixel

/-- Settles O27: `runEngine_pixel_r` from the pixel that channel R reads. -/
theorem encodePixelIsLaneOperation : Obligations.EncodePixelIsLaneOperation := by
  intro s hph hc hlt hpix er ig eg ib eb x y
  have hl : latchPixel s = some (s.image.pixel x y) := by
    rw [latchPixel_of_r hc]
    exact pixRead_eq_some.mpr ⟨hpix, rfl⟩
  have her : s.laneOn s.eng.i = er := laneOn_of_lt hlt
  obtain ⟨j, hpos, hj, hrun⟩ := runEngine_pixel_r hph hlt hpix hl hc
  rw [her] at hrun
  exact ⟨j, _, hpos, hj, hrun, by rw [State.pixelWritten, hph, ← hc]; rfl⟩

end Sys2Proof.Machine
end

section
/-! SUPPORT. O30, O31, O32, O33: DECODE's checks before the walk and at the parse point, what phase 1 extracts, and the
payload that phase 2 delivers. -/

namespace Sys2Proof.Machine

/-! ### the checks before any pixel read (44_decoder.md R210, R211) -/

/-- A failed early check leaves the start of DECODE and its error. -/
theorem exec_decode_earlyError {s : State} {e : ErrCode} (hi : s.idle)
    (hs : startDecode (accept 0x00000002#32 s) = raiseError e (beginDecode (accept 0x00000002#32 s))) :
    exec .decode s = .next ((beginDecode s).completed 0x00000002#32 e) :=
  exec_of_start (i := .decode) hi hs rfl

/-- Settles O30: `startDecode`'s two checks, each reported by `exec_decode_earlyError`. -/
theorem decodeEarlyErrors : Obligations.DecodeEarlyErrors := by
  intro s hi z
  refine ⟨fun hg => exec_decode_earlyError hi (if_pos hg), fun hw hh hn => exec_decode_earlyError hi ?_⟩
  have hg : ¬ (s.w = 0 ∨ s.h = 0) := by omega
  exact (if_neg hg).trans (if_pos hn)

/-! ### what phase 1 extracts, and its parse (44_decoder.md R212, R213) -/

theorem hdrBit_imageHeader (s : State) {n : Nat} (hn : n < 580) : hdrBit s.imageHeader n = lsbExtract (s.slot n) := by
  rw [hdrBit, State.imageHeader, ofMsbFn_getMsbD, decide_eq_true hn, Bool.true_and]

/-- A slice fits in a word of its length. -/
theorem toNat_ofNat_hdrSlice (h : HdrBits) (a b : Nat) {w : Nat} (hw : b - a = w) :
    (BitVec.ofNat w (bitsToInt (hdrSlice h a b))).toNat = bitsToInt (hdrSlice h a b) := by
  have hlt := bitsToInt_lt (hdrSlice h a b)
  rw [hdrSlice_length, hw] at hlt
  rw [BitVec.toNat_ofNat, Nat.mod_eq_of_lt hlt]

@[simp] theorem parsed_hdr (s : State) : s.parsed.hdr = s.imageHeader := rfl

theorem nbufRead_parsed (s : State) {j : Nat} (hj : j < 64) :
    nbufRead s.parsed j = nameFieldByte s.imageHeader j := by
  rw [State.parsed, nbufRead_parseHeader, if_pos hj]

/-- Settles O33: the header's bits by `hdrBit_imageHeader`; each parsed field is as wide as its slice. -/
theorem decodeReadsHeaderFromImage : Obligations.DecodeReadsHeaderFromImage := by
  intro s
  refine ⟨fun n hn => hdrBit_imageHeader s hn, rfl, toNat_ofNat_hdrSlice _ 1 4 rfl, toNat_ofNat_hdrSlice _ 516 548 rfl,
    toNat_ofNat_hdrSlice _ 548 580 rfl, fun j hj => ?_⟩
  rw [nbufRead_parsed s hj, nameFieldByte, parsed_hdr]
  exact toNat_ofNat_hdrSlice _ _ _ (by omega)

/-! ### the run up to the parse point -/

/-- A run that reaches the end of its command within the fuel of a waited call is the whole call. -/
theorem exec_of_run {i : Instr} {s u : State} {n : Nat} (hi : s.idle)
    (hrun : runEngine n (accept (encode i) s) = .next u) (hf : u.eng.phase = .finish) (hn : n < engineFuel s) :
    exec i s = .next (complete u) := by
  have hcomplete : runEngine (n + 1) (accept (encode i) s) = .next (complete u) := by
    rw [runEngine_add_next hrun, runEngine_succ_next (by rw [hf]; decide) (engineStep_finish hf), runEngine_zero]
  rw [exec_eq_callCommand, callCommand_idle hi]
  exact runEngine_le hcomplete rfl hn

/-- A DECODE accepted in `s`, with OUT_LEN cleared: the state that phase 1 starts from. -/
def State.decodeStart (s : State) : State :=
  { accept 0x00000002#32 s with regs := { (accept 0x00000002#32 s).regs with outLen := 0#32 } }

/-- The engine's start and phase 1. -/
theorem runEngine_header {s : State} (hw : 0 < s.w) (hh : 0 < s.h) (hn : 580 ≤ 3 * s.n)
    (hp : ∀ k, k ≤ 193 → s.hasPixel k) :
    ∃ t, runEngine 581 (accept 0x00000002#32 s) = .next (parsePoint t) ∧ HdrDone s.decodeStart t := by
  obtain ⟨u, hstart, hat⟩ := dec_start hw hh hn
  obtain ⟨t, hrun, hdone⟩ := hdr_run_all hat hp
  exact ⟨t, (runEngine_succ_next (by simp) hstart 580).trans hrun, hdone⟩

/-- After phase 1 the parse gives `State.parsed`, the command accepted there and the engine's own state apart. -/
theorem HdrDone.parseHeader_eq {s t : State} (h : HdrDone s.decodeStart t) :
    parseHeader t = (accept 0x00000002#32 s.parsed).withEng t.eng := by
  rw [h.frame]
  rfl

theorem HdrDone.decodeCheck_eq {s t : State} (h : HdrDone s.decodeStart t) :
    decodeCheck (parseHeader t) = decodeCheck s.parsed := by
  rw [h.parseHeader_eq]
  rfl

/-! ### the checks after the parse (44_decoder.md R214, R216 to R218) -/

/-- A DECODE whose parsed header fails a check ends in that check's error. -/
theorem exec_decode_parseError {s : State} (hi : s.idle) (hw : 0 < s.w) (hh : 0 < s.h) (hn : 580 ≤ 3 * s.n)
    (hp : ∀ k, k ≤ 193 → s.hasPixel k) (hc : decodeCheck s.parsed ≠ .none) :
    ∃ u, exec .decode s = .next u ∧
      u = { s.parsed.completed 0x00000002#32 (decodeCheck s.parsed) with eng := u.eng } ∧ u.eng.phase = .idle := by
  obtain ⟨t, hrun, hdone⟩ := runEngine_header hw hh hn hp
  have hcheck := hdone.decodeCheck_eq
  rw [parsePoint_error (by rwa [hcheck]), hcheck, hdone.parseHeader_eq] at hrun
  exact ⟨_, exec_of_run (i := .decode) hi hrun rfl (by rw [engineFuel]; omega), rfl, rfl⟩

/-- When the image cannot supply the payload, by end rule (44_decoder.md R216). -/
theorem not_available_iff (rule : DecEndRule) (m e n : Nat) :
    (!available rule m e n) = true ↔
      (rule = .dataBits ∧ payloadCapacity m n < payloadBits rule m e) ∨ (rule = .slots ∧ 3 * n < e) := by
  cases rule with
  | dataBits => simp [available, payloadBits_dataBits, Nat.lt_sub_iff_add_lt]
  | slots => simp [available]

/-- Settles O31: the code is `decodeCheck`'s, with R216's condition by `not_available_iff`. -/
theorem decodeParseErrors : Obligations.DecodeParseErrors := by
  intro s hi hw hh hn hp m e pb code hne
  have hcode : decodeCheck s.parsed = code := by
    unfold decodeCheck
    simp only [not_available_iff]
    rfl
  rw [← hcode] at hne ⊢
  exact exec_decode_parseError hi hw hh hn hp hne

/-! ### phase 2 (44_decoder.md R219 to R221) -/

theorem le_sigma {m i : Nat} (hm : m ≤ 1) : i ≤ sigma m i :=
  calc i = streamIndexAt m (sigma m i) := (streamIndexAt_sigma hm i).1.symm
    _ ≤ sigma m i := streamIndexAt_le m _

/-- The slot of the last payload bit lies in an image that has the capacity. -/
theorem sigma_lt_of_le_capacity {m n pb : Nat} (hm : m ≤ 1) (hn : 580 ≤ 3 * n) (h : pb ≤ payloadCapacity m n) :
    sigma m (579 + pb) < 3 * n := by
  have hidx := streamIndexAt_ge (m := m) hn
  rw [← payloadCapacity] at hidx
  exact sigma_lt_of_le hm (by omega)

/-- Under either end rule the payload has no more bits than there are slots from slot 580 to the end value. -/
theorem payloadBits_le (rule : DecEndRule) (m e : Nat) : payloadBits rule m e ≤ e - 580 := by
  cases rule with
  | dataBits => exact le_rfl
  | slots =>
    have hle := streamIndexAt_le m (max 580 e)
    rw [streamIndexAt_ge (Nat.le_max_left _ _)] at hle
    rw [payloadBits_slots]
    omega

/-- Phase 2 up to the slot after the last payload bit. -/
theorem pay_run_all {s u : State} {last : Nat} (h : PayAt s u 580) (hm : s.regs.pHdr.pMode.toNat ≤ 1)
    (hlast : sigma s.regs.pHdr.pMode.toNat (579 + u.eng.pb) = last) (hp : ∀ k, k ≤ last / 3 → s.hasPixel k) :
    ∃ t n, runEngine (last - 579) u = .next t ∧ PayAt s t n ∧ t.eng.d = 580 + t.eng.pb ∧ t.eng.pb = u.eng.pb := by
  have hge : 579 + u.eng.pb ≤ last := hlast ▸ le_sigma hm
  obtain ⟨t, hrun, hat⟩ := pay_run h hm (last - 579) (by omega) (fun j hj => hp j (by omega))
  have hpb : t.eng.pb = u.eng.pb := hat.pb.trans h.pb.symm
  refine ⟨t, _, hrun, hat, (pay_end_iff hat hm ?_).mpr ?_, hpb⟩ <;> rw [hpb, hlast] <;> omega

/-- PBUF once phase 2 has collected whole bytes. -/
theorem pbufRead_of_payAt {s u : State} {n : Nat} (h : PayAt s u n) {bytes : List Byte}
    (hbits : imageBits s (u.eng.d - 580) = textToBits bytes) (j : Nat) :
    pbufRead u j = if j < bytes.length then bytes.getD j 0#8 else pbufRead s j := by
  obtain ⟨pb, hpacked, hread⟩ := packed_textToBits s bytes
  have hpbuf : u.pbuf = pb := by rw [h.pack.pbuf, hbits, hpacked]
  rw [← hread, h.frame, hpbuf]
  rfl

/-- The payload bit count that the parsed header gives (44_decoder.md R215). -/
def State.parsedBits (s : State) : Nat :=
  payloadBits s.params.decEndRule s.parsed.regs.pHdr.pMode.toNat s.parsed.regs.encEnd.toNat

/-- The image of a DECODE whose checks pass has the slot of the last payload bit. -/
theorem lastBit_lt {s : State} (hn : 580 ≤ 3 * s.n) (hc : decodeCheck s.parsed = .none) :
    sigma s.parsed.regs.pHdr.pMode.toNat (579 + s.parsedBits) < 3 * s.n := by
  obtain ⟨hm, hav, -, -⟩ := decodeCheck_none hc
  exact sigma_lt_of_le_capacity hm hn (payloadBits_le_capacity hav hn)

/-- `u` is what a DECODE of `s` leaves when its checks pass: the parsed header, OUT_LEN, and in PBUF the bytes of the
bits that phase 2 collects (44_decoder.md R221). -/
structure Delivered (s u : State) : Prop where
  frame : u = { s.parsed.completed 0x00000002#32 .none with
    pbuf := u.pbuf, eng := u.eng,
    regs := { (s.parsed.completed 0x00000002#32 .none).regs with outLen := BitVec.ofNat 32 (s.parsedBits / 8) } }
  idle : u.eng.phase = .idle
  read : ∀ bytes, imageBits s.parsed s.parsedBits = textToBits bytes →
    ∀ j, pbufRead u j = if j < bytes.length then bytes.getD j 0#8 else pbufRead s j

theorem exec_decode_ok {s : State} (hi : s.idle) (hw : 0 < s.w) (hh : 0 < s.h) (hn : 580 ≤ 3 * s.n)
    (hc : decodeCheck s.parsed = .none)
    (hp : ∀ k, k ≤ sigma s.parsed.regs.pHdr.pMode.toNat (579 + s.parsedBits) / 3 → s.hasPixel k) :
    ∃ u, exec .decode s = .next u ∧ Delivered s u := by
  obtain ⟨hm, -, -, -⟩ := decodeCheck_none hc
  have hge := le_sigma hm (i := 579 + s.parsedBits)
  have hlt := lastBit_lt hn hc
  generalize hlast : sigma s.parsed.regs.pHdr.pMode.toNat (579 + s.parsedBits) = last at hp hge hlt
  obtain ⟨t, hhdr, hdone⟩ := runEngine_header hw hh hn fun k hk => hp k (by omega)
  have hat := parse_ok hdone (hdone.decodeCheck_eq.trans hc)
  rw [hdone.parseHeader_eq] at hat
  have hpb : (parsePoint t).eng.pb = s.parsedBits := hat.pb
  obtain ⟨v, n, hpay, hv, hd, hvpb⟩ := pay_run_all hat hm (by rw [hpb]; exact hlast) hp
  rw [hpb] at hvpb
  have hrun := runEngine_add_next hhdr (last - 579 + 1)
  rw [runEngine_add_next hpay, runEngine_succ_next (by rw [hv.phase]; decide) (pay_finish hv hd), hvpb,
    runEngine_zero] at hrun
  refine ⟨_, exec_of_run (i := .decode) hi hrun rfl (by rw [engineFuel]; omega), ?frame, rfl,
    fun bytes hbits j => ?read⟩
  case frame =>
    rw [hv.frame]
    rfl
  case read =>
    rw [hvpb] at hd
    refine pbufRead_of_payAt hv ?_ j
    rw [hd, Nat.add_sub_cancel_left]
    exact hbits

/-- Settles O32: phase 2 of `exec_decode_ok` collects a whole number of bytes, the bits of `imageBits`. -/
theorem decodeExtractsPayload : Obligations.DecodeExtractsPayload := by
  intro s hi hw hh hn m pb hc hp
  obtain ⟨-, -, hwhole, -⟩ := decodeCheck_none hc
  obtain ⟨u, hexec, hu⟩ := exec_decode_ok hi hw hh hn hc hp
  have hlen : (imageBits s.parsed pb).length = pb := by simp [imageBits]
  obtain ⟨bytes, hbytes⟩ := exists_bitsToBytes (bits := imageBits s.parsed pb) (by rw [hlen]; exact hwhole)
  have hbits := eq_textToBits_of_bitsToBytes hbytes
  have hcount : bytes.length = pb / 8 := by
    rw [hbits, textToBits_length] at hlen
    omega
  have hle : pb ≤ s.parsed.regs.encEnd.toNat - 580 :=
    payloadBits_le s.params.decEndRule m s.parsed.regs.encEnd.toNat
  refine ⟨u, bytes, hexec, hu.frame, hu.idle, ?_, hbytes, hcount, fun j => ?_⟩
  · have := s.parsed.regs.encEnd.isLt
    omega
  · rw [← hcount]
    exact hu.read bytes hbits j

end Sys2Proof.Machine
end

section
/-! SUPPORT. O34, O35: a DECODE of what an ENCODE has embedded, under either end rule. -/

namespace Sys2Proof.Machine

/-! ### what ENCODE leaves (43_encoder.md R193, R196) -/

/-- `t` is what a successful ENCODE of `s` leaves, as far as a DECODE of `t` depends on it. -/
structure Encoded (s t : State) : Prop where
  idle : t.idle
  noError : t.regs.status.errCode = .none
  width : t.w = s.w
  height : t.h = s.h
  params : t.params = s.params
  encEnd : t.regs.encEnd.toNat = s.streamLen
  fits : t.fitsImage
  bits : ∀ i < s.streamLen, lsbExtract (t.slot (sigma s.mode i)) = s.stream.getD i false

/-- The address of a slot depends on the geometry alone. -/
theorem slotAddr_congr {s t : State} (hh : t.h = s.h) (hi : t.image.height = s.image.height) (n : Nat) :
    t.slotAddr n = s.slotAddr n := by
  simp only [State.slotAddr, Image.addr, hh, hi]

theorem exists_encoded {s : State} (hi : s.idle) (hfit : s.fitsImage) (hc : encodeCheck s = .none)
    (hn : 580 ≤ 3 * s.n) (hf : 8 * s.len ≤ payloadCapacity s.mode s.n) :
    ∃ t, exec .encode s = .next t ∧ Encoded s t := by
  obtain ⟨-, -, hm, -, -, hv⟩ := encodeCheck_none hc
  have hlast := lastSlot_lt hm hn hf
  obtain ⟨t, hexec, hframe, -, hiw, hih, -, -, hbit, -⟩ :=
    encodeEmbedsStream s hi hc hn hf fun k hk => hasPixel_of_fitsImage hfit (by omega)
  have hregs := congrArg State.regs hframe
  have hw : t.w = s.w := by rw [State.w, hregs]; rfl
  have hh : t.h = s.h := by rw [State.h, hregs]; rfl
  refine ⟨t, hexec, ?idle, ?noError, hw, hh, (congrArg State.params hframe :), ?encEnd, ?fits, fun i hlt => ?bits⟩
  case idle => rw [State.idle, hregs]; rfl
  case noError => rw [hregs]; rfl
  case encEnd =>
    rw [hregs]
    exact (BitVec.toNat_ofNat _ _).trans (Nat.mod_eq_of_lt hv)
  case fits => rwa [State.fitsImage, hw, hh, hiw, hih]
  case bits =>
    have hslot : t.slot (sigma s.mode i) = t.image.byteAt (s.slotAddr (sigma s.mode i)) :=
      congrArg t.image.byteAt (slotAddr_congr hh hih _)
    rw [hslot, hbit i hlt, lsbExtract_lsbWrite]

/-! ### the checks that a DECODE of an encoded image passes (44_decoder.md R214 to R218) -/

/-- Under either end rule, an image that can hold a stream can supply it. -/
theorem available_of_fits {rule : DecEndRule} {m n len : Nat} (hn : 580 ≤ 3 * n) (hf : 8 * len ≤ payloadCapacity m n) :
    available rule m (580 + 8 * len) n = true := by
  cases rule with
  | dataBits => simpa [available] using hf
  | slots => exact decide_eq_true (((fits_iff_streamIndexAt hn).mp hf).trans (streamIndexAt_le m _))

/-- A mode, a capacity and a buffer that suffice leave the whole-byte check. -/
theorem decodeCheck_of_available {s : State} (hm : s.regs.pHdr.pMode.toNat ≤ 1)
    (hav : available s.params.decEndRule s.regs.pHdr.pMode.toNat s.regs.encEnd.toNat s.n = true)
    (hb : payloadBits s.params.decEndRule s.regs.pHdr.pMode.toNat s.regs.encEnd.toNat / 8 ≤ s.params.pbufBytes) :
    decodeCheck s =
      if payloadBits s.params.decEndRule s.regs.pHdr.pMode.toNat s.regs.encEnd.toNat % 8 = 0 then .none
      else .truncatedPayload := by
  simp [decodeCheck, Nat.not_lt.mpr hm, hav, Nat.not_lt.mpr hb]

section encoded

variable {s t : State} (h : Encoded s t) (hc : encodeCheck s = .none)
include h

theorem Encoded.n_eq : t.n = s.n := by rw [State.n, h.width, h.height]; rfl

include hc

/-- Phase 1 of the DECODE extracts the header that ENCODE built. -/
theorem Encoded.imageHeader_eq : t.imageHeader = hdrOfBits (builtHeader s) := by
  obtain ⟨-, -, -, hname, -, -⟩ := encodeCheck_none hc
  refine HdrBits.ext_bit fun n hn => ?_
  have hbit := h.bits n (by rw [State.streamLen]; omega)
  rw [sigma_of_lt _ hn, List.getD_eq_getElem?_getD, stream_header hname hn, Option.getD_some] at hbit
  rw [hdrBit_imageHeader t hn, hbit]

theorem Encoded.parsed_fileType : t.parsed.regs.pHdr.pFileType = s.regs.cfg.isFile := by
  obtain ⟨-, -, -, hname, -, -⟩ := encodeCheck_none hc
  change hdrBit t.imageHeader 0 = _
  rw [h.imageHeader_eq hc, builtHeader_fileType hname]

theorem Encoded.parsed_mode : t.parsed.regs.pHdr.pMode = s.regs.cfg.mode := by
  obtain ⟨-, -, -, hname, -, -⟩ := encodeCheck_none hc
  change BitVec.ofNat 3 (bitsToInt (hdrSlice t.imageHeader 1 4)) = _
  rw [h.imageHeader_eq hc, builtHeader_mode hname, BitVec.ofNat_toNat, BitVec.setWidth_eq]

theorem Encoded.parsed_encEnd : t.parsed.regs.encEnd.toNat = s.streamLen := by
  obtain ⟨-, -, -, hname, -, hv⟩ := encodeCheck_none hc
  rw [← builtHeader_end hname hv, ← h.imageHeader_eq hc]
  exact toNat_ofNat_hdrSlice _ 548 580 rfl

theorem Encoded.parsed_nbufRead {j : Nat} (hj : j < 64) :
    nbufRead t.parsed j = nameFieldByte (hdrOfBits (builtHeader s)) j := by
  rw [nbufRead_parsed t hj, h.imageHeader_eq hc]

theorem Encoded.parsedBits_eq : t.parsedBits = payloadBits s.params.decEndRule s.mode s.streamLen := by
  rw [State.parsedBits, h.params, h.parsed_mode hc, h.parsed_encEnd hc]
  rfl

variable (hn : 580 ≤ 3 * s.n) (hf : 8 * s.len ≤ payloadCapacity s.mode s.n)
include hn hf

/-- The whole-byte check is the only one that a DECODE of an encoded image can fail. -/
theorem Encoded.decodeCheck_eq :
    decodeCheck t.parsed = if t.parsedBits % 8 = 0 then .none else .truncatedPayload := by
  obtain ⟨-, -, hm, -, hbuf, -⟩ := encodeCheck_none hc
  refine decodeCheck_of_available ?mode ?available ?buffer
  case mode => rwa [h.parsed_mode hc]
  case available =>
    change available t.params.decEndRule _ _ t.n = true
    rw [h.parsed_mode hc, h.parsed_encEnd hc, h.n_eq]
    exact available_of_fits hn hf
  case buffer =>
    change t.parsedBits / 8 ≤ t.params.pbufBytes
    have hle := payloadBits_le s.params.decEndRule s.mode s.streamLen
    rw [← h.parsedBits_eq hc, State.streamLen] at hle
    rw [h.params]
    omega

/-- A DECODE of an encoded image whose payload bits make whole bytes delivers them. -/
theorem Encoded.exec_decode_ok (hwhole : t.parsedBits % 8 = 0) :
    ∃ u, exec .decode t = .next u ∧ Delivered t u := by
  obtain ⟨hw, hh, -, -, -, -⟩ := encodeCheck_none hc
  have hcheck := (h.decodeCheck_eq hc hn hf).trans (if_pos hwhole)
  have hn' : 580 ≤ 3 * t.n := by rwa [h.n_eq]
  have hlast := lastBit_lt hn' hcheck
  exact Machine.exec_decode_ok h.idle (by rwa [h.width]) (by rwa [h.height]) hn' hcheck fun k hk =>
    hasPixel_of_fitsImage h.fits (by omega)

/-- A DECODE of an encoded image whose payload bits do not make whole bytes ends in TRUNCATED_PAYLOAD. -/
theorem Encoded.exec_decode_truncated (hpart : t.parsedBits % 8 ≠ 0) :
    ∃ u, exec .decode t = .next u ∧ u.regs.status.errCode = .truncatedPayload := by
  obtain ⟨hw, hh, -, -, -, -⟩ := encodeCheck_none hc
  have hcheck := (h.decodeCheck_eq hc hn hf).trans (if_neg hpart)
  have hn' : 580 ≤ 3 * t.n := by rwa [h.n_eq]
  obtain ⟨u, hexec, hframe, -⟩ := exec_decode_parseError h.idle (by rwa [h.width]) (by rwa [h.height]) hn'
    (fun k hk => hasPixel_of_fitsImage h.fits (by omega)) (by rw [hcheck]; decide)
  rw [hcheck] at hframe
  exact ⟨u, hexec, congrArg (·.regs.status.errCode) hframe⟩

end encoded

/-! ### the DATA_BITS end rule (44_decoder.md R224) -/

theorem payloadBits_dataBits_stream (m len : Nat) : payloadBits .dataBits m (580 + 8 * len) = 8 * len :=
  Nat.add_sub_cancel_left 580 _

/-- The payload bits in the image are the payload. -/
theorem Encoded.imageBits_eq {s t : State} (h : Encoded s t) (hc : encodeCheck s = .none) :
    imageBits t.parsed (8 * s.len) = textToBits (payloadBytes s) := by
  obtain ⟨-, -, -, hname, -, -⟩ := encodeCheck_none hc
  have hlen : (textToBits (payloadBytes s)).length = 8 * s.len := by rw [textToBits_length, payloadBytes_length]
  refine List.ext_getElem (by simp [imageBits]) fun i hi hi' => ?_
  have hbit := h.bits (580 + i) (by rw [State.streamLen]; omega)
  have hheader := builtHeader_length hname
  rw [State.stream, List.getD_append_right _ _ _ _ (by omega), hheader, Nat.add_sub_cancel_left,
    fileToBits_eq_textToBits, List.getD_eq_getElem _ _ hi'] at hbit
  rw [← hbit]
  simp only [imageBits, List.getElem_map, List.getElem_range, h.parsed_mode hc]
  rfl

/-- Settles O34: under DATA_BITS the DECODE collects exactly the payload's bits, so `Encoded.exec_decode_ok` applies. -/
theorem encodeDecodeRoundTrip : Obligations.EncodeDecodeRoundTrip := by
  intro s hi hfit hrule hc hn hf
  obtain ⟨-, -, -, hname, -, -⟩ := encodeCheck_none hc
  obtain ⟨t, henc, h⟩ := exists_encoded hi hfit hc hn hf
  have hpb : t.parsedBits = 8 * s.len := by
    rw [h.parsedBits_eq hc, hrule]
    exact payloadBits_dataBits_stream _ _
  obtain ⟨u, hdec, ⟨hframe, -, hread⟩⟩ := h.exec_decode_ok hc hn hf (by omega)
  rw [hpb] at hframe hread
  have hregs := congrArg State.regs hframe
  have hnbuf (j : Nat) (hj : j < 64) : nbufRead u j = nameFieldByte (hdrOfBits (builtHeader s)) j := by
    rw [← h.parsed_nbufRead hc hj, hframe]
    rfl
  refine ⟨t, u, henc, hdec, h.noError, congrArg (·.status.errCode) hregs, ?outLen, fun j hj => ?payload,
    (congrArg (·.pHdr.pFileType) hregs).trans (h.parsed_fileType hc),
    (congrArg (·.pHdr.pMode) hregs).trans (h.parsed_mode hc), ?encEnd, (congrArg State.image hframe :),
    fun hfile hpad => ⟨fun q hq => ?name, fun j hj => ?pad⟩⟩
  case outLen =>
    have hlt : s.len < 2 ^ 32 := s.regs.payloadLen.isLt
    rw [hregs]
    change (BitVec.ofNat 32 (8 * s.len / 8)).toNat = s.len
    rw [BitVec.toNat_ofNat]
    omega
  case payload =>
    rw [hread _ (h.imageBits_eq hc), payloadBytes_length, if_pos hj, payloadBytes_getD hj]
  case encEnd =>
    have hend : u.regs.encEnd = t.parsed.regs.encEnd := (congrArg Regs.encEnd hregs :)
    rw [hend, ← BitVec.toNat_inj, h.parsed_encEnd hc, h.encEnd]
  case name =>
    have hle := nameTooLong_false.mp hname hfile
    rw [hnbuf _ (by omega), nameFieldByte_leading_name hname hfile hpad hq]
  case pad => rw [hnbuf _ (by omega), nameFieldByte_leading_pad hname hfile hpad hj]

/-! ### the SLOTS end rule in mode 1 (44_decoder.md R225) -/

theorem payloadBits_slots_stream (m len : Nat) :
    payloadBits .slots m (580 + 8 * len) = eligibleCount m 580 (580 + 8 * len) := by
  rw [payloadBits_slots, Nat.max_eq_right (Nat.le_add_right 580 _)]

/-- The slots of the odd pixels are counted as slots and carry no payload bit. -/
theorem eligibleCount_one_lt {len : Nat} (h : 1 ≤ len) : eligibleCount 1 580 (580 + 8 * len) < 8 * len := by
  simp only [eligibleCount, eligibleBelow, if_neg Nat.one_ne_zero, if_true]
  omega

/-- Settles O35: the bits that SLOTS counts are fewer than the payload's, and make whole bytes or do not. -/
theorem slotsRuleLosesModeOnePayload : Obligations.SlotsRuleLosesModeOnePayload := by
  have hthree : payloadBits .slots 1 (580 + 8 * 3) = 12 := by decide
  refine ⟨fun len hlen => ⟨payloadBits_slots_stream 1 len, eligibleCount_one_lt hlen⟩, hthree, ?_⟩
  intro s hi hfit hrule hmode hlen hc hn hf
  rw [← hmode] at hf
  obtain ⟨t, henc, h⟩ := exists_encoded hi hfit hc hn hf
  have hpb : t.parsedBits = payloadBits .slots 1 (580 + 8 * s.len) := by
    rw [h.parsedBits_eq hc, hrule, hmode, State.streamLen]
  by_cases hwhole : t.parsedBits % 8 = 0
  · obtain ⟨u, hdec, ⟨hframe, -, -⟩⟩ := h.exec_decode_ok hc hn hf hwhole
    have hfew : t.parsedBits < 8 * s.len := by
      rw [hpb, payloadBits_slots_stream]
      exact eligibleCount_one_lt hlen
    have hout : u.regs.outLen.toNat = t.parsedBits / 8 % 2 ^ 32 :=
      (congrArg (·.regs.outLen.toNat) hframe).trans (BitVec.toNat_ofNat _ _)
    refine ⟨t, u, henc, hdec, .inr ⟨congrArg (·.regs.status.errCode) hframe, by omega⟩, fun hl => ?_⟩
    rw [hpb, hl, hthree] at hwhole
    exact absurd hwhole (by decide)
  · obtain ⟨u, hdec, herr⟩ := h.exec_decode_truncated hc hn hf hwhole
    exact ⟨t, u, henc, hdec, .inl herr, fun _ => herr⟩

end Sys2Proof.Machine
end

section
/-! SUPPORT. O6, O8: acceptance of a command, and NOP. -/

namespace Sys2Proof.Machine

/-! ### acceptance (45_control.md R240) -/

theorem busy_of_not_idle {s : State} (h : ¬ s.idle) : s.regs.status.busy = true := Bool.eq_true_of_not_eq_false h

theorem issue_busy {s : State} (h : s.regs.status.busy = true) (v : Word) : issue v s = setAccErr s := if_pos h

theorem engineStep_start {s : State} (h : s.eng.phase = .start) : engineStep s = .next (startWord s) := by
  rw [engineStep, h]

/-- Settles O6: a CMD write and a waited call accept or drop the word alike, and the engine's first step starts it. -/
theorem commandAcceptance : Obligations.CommandAcceptance := by
  intro s v
  refine ⟨fun hi => ?accepted, fun hb => ?dropped, fun hb i => ?callDropped, fun i hv hcmd hstart => ?started⟩
  case accepted =>
    rw [hostAccess_wr_cmd, issue_idle hi]
    rfl
  case dropped =>
    rw [hostAccess_wr_cmd, issue_busy (busy_of_not_idle hb)]
    rfl
  case callDropped =>
    rw [exec_eq_callCommand, callCommand_busy (busy_of_not_idle hb)]
    rfl
  case started => rw [engineStep_start hstart, startWord_of_decode (hcmd ▸ hv)]

/-! ### NOP (45_control.md R241) -/

/-- Settles O8: NOP is over after its start, which only raises `none`. -/
theorem nopResult : Obligations.NopResult := fun _ hi => exec_of_start (i := .nop) hi rfl rfl

end Sys2Proof.Machine
end

section
/-! SUPPORT. O9: every waited command becomes idle, and an engine that becomes idle has completed. -/

namespace Sys2Proof.Machine

/-! ### becoming idle is completing (45_control.md R244) -/

/-- IRQ_EN is as in `s`, and the engine, if idle, reports a completion in STATUS (45_control.md R244). -/
structure CompletedWhenIdle (s u : State) : Prop where
  irqEn : u.regs.irqEn = s.regs.irqEn
  status : u.eng.phase = .idle → u.regs.status.busy = false ∧ u.regs.status.done = true ∧
    u.regs.status.err = (u.regs.status.errCode != .none)

/-- An accepted command is not idle. -/
theorem completedWhenIdle_accept (v : Word) (s : State) : CompletedWhenIdle s (accept v s) where
  irqEn := accept_regs_irqEn v s
  status := nofun

theorem engineStep_idle {s : State} (h : s.eng.phase = .idle) : engineStep s = .next s := by
  rw [engineStep, h]

/-- Every engine step keeps the property: an idle engine stays, completion writes STATUS, and no other step ends idle. -/
theorem completedWhenIdle_engineStep {s a b : State} (h : CompletedWhenIdle s a) (hab : engineStep a = .next b) :
    CompletedWhenIdle s b := by
  obtain ⟨-, -, -, hirq, -⟩ := engineStep_frame hab
  refine ⟨hirq.trans h.irqEn, fun hb => ?_⟩
  by_cases hidle : a.eng.phase = .idle
  · rw [engineStep_idle hidle] at hab
    cases hab
    exact h.status hb
  · by_cases hfinish : a.eng.phase = .finish
    · rw [engineStep_finish hfinish] at hab
      cases hab
      exact ⟨rfl, rfl, rfl⟩
    · exact absurd hb (engineStep_not_idle hab hidle hfinish)

theorem completedWhenIdle_callCommand {v : Word} {s t : State} (hi : s.idle) (h : callCommand v s = .next t) :
    CompletedWhenIdle s t := by
  rw [callCommand_idle hi] at h
  exact runEngine_induct (fun _ _ => completedWhenIdle_engineStep) (completedWhenIdle_accept v s) h

/-! ### every waited command becomes idle (45_control.md R243, 70_reset_and_hazards.md R284) -/

/-- The outcome is a state whose engine is idle. -/
def BecomesIdle (r : Result) : Prop := ∃ t, r = .next t ∧ t.eng.phase = .idle

theorem streamFits_iff (s : State) :
    streamFits s = true ↔ 580 ≤ 3 * s.n ∧ 8 * s.len ≤ payloadCapacity s.mode s.n := by
  rw [streamFits, Bool.and_eq_true, decide_eq_true_eq, decide_eq_true_eq]

/-- ENCODE: a check fails, the stream does not fit, or its last slot lies in the image. -/
theorem exec_encode_becomesIdle {s : State} (hi : s.idle) (hfit : s.fitsImage) : BecomesIdle (exec .encode s) := by
  by_cases hc : encodeCheck s = .none
  · cases hf : streamFits s with
    | true =>
      obtain ⟨hn, hcap⟩ := (streamFits_iff s).mp hf
      obtain ⟨-, -, hm, -, -, -⟩ := encodeCheck_none hc
      have hlast := lastSlot_lt hm hn hcap
      obtain ⟨t, hexec, -⟩ := exec_encode_ok hi hc hn hcap fun k hk => hasPixel_of_fitsImage hfit (by omega)
      exact ⟨complete t, hexec, rfl⟩
    | false => exact ⟨_, exec_encode_tooSmall hi hc hf, rfl⟩
  · exact ⟨_, exec_encode_error hi rfl hc, rfl⟩

/-- DECODE: an early check fails, a check of the parsed header fails, or the last payload bit lies in the image. -/
theorem exec_decode_becomesIdle {s : State} (hi : s.idle) (hfit : s.fitsImage) : BecomesIdle (exec .decode s) := by
  obtain ⟨hgeometry, hexhausted⟩ := decodeEarlyErrors s hi
  by_cases hg : s.w = 0 ∨ s.h = 0
  · exact ⟨_, hgeometry hg, rfl⟩
  have hw : 0 < s.w := by omega
  have hh : 0 < s.h := by omega
  by_cases hn : 3 * s.n < 580
  · exact ⟨_, hexhausted hw hh hn, rfl⟩
  rw [Nat.not_lt] at hn
  by_cases hc : decodeCheck s.parsed = .none
  · have hlast := lastBit_lt hn hc
    obtain ⟨u, hexec, hu⟩ := exec_decode_ok hi hw hh hn hc fun k hk => hasPixel_of_fitsImage hfit (by omega)
    exact ⟨u, hexec, hu.idle⟩
  · obtain ⟨u, hexec, -, hidle⟩ :=
      exec_decode_parseError hi hw hh hn (fun k hk => hasPixel_of_fitsImage hfit (by omega)) hc
    exact ⟨u, hexec, hidle⟩

theorem exec_hdrBuild_becomesIdle {s : State} (hi : s.idle) : BecomesIdle (exec .hdrBuild s) := by
  by_cases hc : hdrBuildCheck s = .none
  · exact ⟨_, exec_hdrBuild_ok hi hc, rfl⟩
  · exact ⟨_, exec_hdrBuild_error hi rfl hc, rfl⟩

theorem exec_becomesIdle (i : Instr) {s : State} (hi : s.idle) (hfit : s.fitsImage) : BecomesIdle (exec i s) := by
  cases i with
  | nop => exact ⟨_, nopResult s hi, rfl⟩
  | encode => exact exec_encode_becomesIdle hi hfit
  | decode => exact exec_decode_becomesIdle hi hfit
  | hdrBuild => exact exec_hdrBuild_becomesIdle hi
  | hdrParse => exact ⟨_, exec_hdrParse hi, rfl⟩

theorem execIllegal_becomesIdle {v : Word} {e : DecodeError} (hv : decode v = .error e) {s : State} (hi : s.idle) :
    BecomesIdle (execIllegal v s) :=
  ⟨_, callCommand_of_start hi (startWord_of_error hv) rfl, rfl⟩

theorem callWord_becomesIdle (v : Word) {s : State} (hi : s.idle) (hfit : s.fitsImage) :
    BecomesIdle (callWord v s) := by
  unfold callWord
  split
  case h_1 i _ => exact exec_becomesIdle i hi hfit
  case h_2 e hv => exact execIllegal_becomesIdle hv hi

/-- Settles O9: `callWord_becomesIdle` gives the end of the run, `CompletedWhenIdle` what STATUS and `irq` hold there. -/
theorem everyCommandCompletes : Obligations.EveryCommandCompletes := by
  intro v s hi hfit
  obtain ⟨t, ht, hidle⟩ := callWord_becomesIdle v hi hfit
  have hcall : callCommand v s = .next t := (callWord_eq_callCommand v s).symm.trans ht
  obtain ⟨hirq, hstatus⟩ := completedWhenIdle_callCommand hi hcall
  obtain ⟨hbusy, hdone, herr⟩ := hstatus hidle
  refine ⟨t, ht, hbusy, hdone, hidle, herr, callCommand_accErr hi hcall, ?irq, fun i hv => ?exec⟩
  case irq => rw [State.irq, hdone, Bool.true_and, hirq]
  case exec => rw [← callWord_of_ok hv, ht]

end Sys2Proof.Machine
end

section
/-! SUPPORT. O7, O41: raising an error and completion, and the interrupt output. -/

namespace Sys2Proof.Machine

/-- Settles O7: the one step left after a raise is completion, and the idle engine then stays. -/
theorem raiseEndsCommand : Obligations.RaiseEndsCommand := by
  intro e s
  refine ⟨rfl, fun fuel hfuel => ?_⟩
  obtain ⟨n, rfl⟩ := Nat.exists_eq_add_of_le' hfuel
  rw [runEngine_succ_next (by simp) (engineStep_finish (raiseError_phase e s)), runEngine_idle (complete_phase _)]
  rfl

/-- Settles O41: `irq` is DONE and IRQ_EN, so each clause says what one access, reset or completion makes of the two. -/
theorem interruptOutput : Obligations.InterruptOutput := by
  intro s v
  have hstatus : (hostAccess (Access.wr 0x00C#32 v) s).irq = (s.regs.status.done && !v.getLsbD 1 && s.regs.irqEn) :=
    congrArg State.irq (wr_page_free (by decide) (by decide) rfl v s)
  have hctrl : hostAccess (Access.wr 0x004#32 v) s = { s with regs := { s.regs with irqEn := v.getLsbD 0 } } :=
    wr_page_free (by decide) (by decide) rfl v s
  have hread : hostAccess (Access.rd 0x00C#32) s = { s with rdata := s.regs.status.toWord } :=
    rd_page_free (by decide) (by decide) rfl s
  refine ⟨rfl, fun hv => ?cleared, fun hv => ?kept, ?ctrl, fun hi => ?accepted, ?read, rfl, rfl⟩
  case cleared => rw [hstatus, hv, Bool.not_true, Bool.and_false, Bool.false_and]
  case kept => rw [hstatus, hv, Bool.not_false, Bool.and_true, State.irq]
  case ctrl => rw [hctrl]; rfl
  case accepted => rw [hostAccess_wr_cmd, issue_idle hi]; rfl
  case read => rw [hread]; rfl

end Sys2Proof.Machine
end

section
/-! SUPPORT. O42: what clears ACCERR. -/

namespace Sys2Proof.Machine

/-! ### host accesses (60_exceptions.md R259) -/

theorem regAt_eq_status {p off : Nat} (h : regAt p off = .status) : off = 0x00C := by
  unfold regAt at h
  split_ifs at h
  unfold pageReg at h
  split at h
  case h_4 => rfl
  all_goals cases h

/-- A supported write is a word write. -/
theorem Access.eq_wr {a : Access} {v : Word} (ha : a.supported = true) (hd : a.dir = .write v) :
    a = Access.wr a.offset v ∧ a.offset.toNat % 4 = 0 := by
  obtain ⟨dir, size, offset⟩ := a
  simp only [Access.supported, Bool.and_eq_true, beq_iff_eq] at ha
  obtain ⟨rfl, ho⟩ := ha
  cases hd
  exact ⟨rfl, ho⟩

theorem unsupportedAccess_accErr (d : Dir) (s : State) : (unsupportedAccess d s).regs.status.accErr = true := by
  cases d <;> rfl

theorem wordRead_accErr {s : State} (hs : s.regs.status.accErr = true) (r : HostReg) :
    (wordRead s r).regs.status.accErr = true := by
  unfold wordRead
  split
  · rfl
  · exact hs

/-- Of the register writes only that of STATUS clears ACCERR, with bit 16 (10_state.md R25). -/
theorem writeReg_clears_accErr {s : State} {v : Word} {r : HostReg} (hs : s.regs.status.accErr = true)
    (ht : (writeReg s v r).regs.status.accErr = false) : r = .status ∧ v.getLsbD 16 = true := by
  have kept : (writeReg s v r).regs.status.accErr ≠ s.regs.status.accErr := by simp [hs, ht]
  cases r with
  | status => exact ⟨rfl, by simpa [writeReg, Status.w1c, hs] using ht⟩
  | cmd =>
    rcases issue_cases v s with hi | hi <;> rw [writeReg, hi] at ht
    · cases ht
    · exact absurd ht (by simp [hs])
  | _ => exact absurd rfl kept

theorem wordWrite_clears_accErr {s : State} {v : Word} {r : HostReg} (hs : s.regs.status.accErr = true)
    (ht : (wordWrite s v r).regs.status.accErr = false) : r = .status ∧ v.getLsbD 16 = true := by
  unfold wordWrite at ht
  split at ht
  · cases ht
  · exact writeReg_clears_accErr hs ht

theorem hostAccess_clears_accErr {a : Access} {s : State} (hs : s.regs.status.accErr = true)
    (ht : (hostAccess a s).regs.status.accErr = false) :
    ∃ v : Word, v.getLsbD 16 = true ∧ a = Access.wr 0x00C#32 v := by
  unfold hostAccess at ht
  split at ht
  case isFalse => simp [unsupportedAccess_accErr] at ht
  case isTrue ha =>
    split at ht
    case h_1 => simp [wordRead_accErr hs] at ht
    case h_2 v hd =>
      obtain ⟨hr, hv⟩ := wordWrite_clears_accErr hs ht
      have hoff : a.offset = 0x00C#32 := BitVec.eq_of_toNat_eq (regAt_eq_status hr)
      exact ⟨v, hv, hoff ▸ (Access.eq_wr ha hd).1⟩

/-! ### the other inputs -/

/-- Out of reset ACCERR is cleared by a STATUS write or by asserting `rst`. -/
theorem inputOutOfReset_clears_accErr {inp : Input} {s t : State} (h : inputOutOfReset inp s = .next t)
    (hs : s.regs.status.accErr = true) (ht : t.regs.status.accErr = false) :
    inp = .rst true ∨ ∃ v : Word, v.getLsbD 16 = true ∧ inp = .access (Access.wr 0x00C#32 v) := by
  have changed : t.regs.status.accErr ≠ s.regs.status.accErr := by simp [hs, ht]
  cases inp with
  | access a =>
    cases h
    obtain ⟨v, hv, rfl⟩ := hostAccess_clears_accErr hs ht
    exact .inr ⟨v, hv, rfl⟩
  | call v =>
    change callWord v s = _ at h
    rw [callWord_eq_callCommand] at h
    cases hb : s.regs.status.busy with
    | true =>
      rw [callCommand_busy hb] at h
      cases h
      cases ht
    | false => exact absurd (callCommand_accErr hb h) changed
  | engine => exact absurd (engineStep_accErr h) changed
  | rst level =>
    cases h
    cases level with
    | false => exact absurd rfl changed
    | true => exact .inl rfl
  | loadImage w hh cs =>
    rw [loadImage_eq_next h] at changed
    exact absurd rfl changed
  | readPixel x y =>
    rw [readPixel_eq_next h] at changed
    exact absurd rfl changed
  | writePixel x y p =>
    rw [(writePixel_eq_next h).2] at changed
    exact absurd rfl changed

/-- Settles O42: `inputOutOfReset_clears_accErr` for the input that the step takes. -/
theorem accErrIsSticky : Obligations.AccErrIsSticky := by
  intro s t h hs ht
  cases hr : s.rst with
  | true => exact .inl rfl
  | false =>
    rw [step_outOfReset hr] at h
    refine .inr ?_
    rcases inputOutOfReset_clears_accErr h hs ht with hin | ⟨v, hv, hin⟩ <;>
      rcases inputs_of_nextInput hin with ⟨-, hengine⟩ | ⟨rest, hcons⟩
    · cases hengine
    · exact ⟨rest, .inl hcons⟩
    · cases hengine
    · exact ⟨rest, .inr ⟨v, hv, hcons⟩⟩

end Sys2Proof.Machine
end

section
/-! SUPPORT. O39, O40: the codes that a command can report, and what it has changed by then. -/

namespace Sys2Proof.Machine

/-! ### the codes of the checks (60_exceptions.md R254) -/

/-- The outcomes of the checks after the parse (44_decoder.md R214, R216 to R218). -/
def parseCodes : List ErrCode := [.none, .modeReserved, .imageExhausted, .truncatedPayload, .bufferRange]

theorem hdrBuildCheck_mem (s : State) :
    hdrBuildCheck s ∈ [ErrCode.none, .modeReserved, .nameTooLong, .valueTooWide] := by
  unfold hdrBuildCheck
  split_ifs <;> decide

theorem encodeCheck_mem (s : State) :
    encodeCheck s ∈ [ErrCode.none, .badGeometry, .modeReserved, .nameTooLong, .bufferRange, .valueTooWide] := by
  unfold encodeCheck
  split_ifs <;> decide

theorem decodeCheck_mem (s : State) : decodeCheck s ∈ parseCodes := by
  simp only [decodeCheck]
  split_ifs <;> decide

/-! ### past the last check no error is raised (60_exceptions.md R253) -/

/-- The command is past its checks, and neither STATUS nor the completion due reports an error. -/
structure ErrorFree (s : State) : Prop where
  started : s.eng.phase ≠ .start
  parsed : s.eng.phase ≠ .decHdr
  status : s.regs.status.errCode = .none
  result : s.eng.phase = .finish → s.eng.result = .none

/-- In a walk no code is raised yet. -/
theorem ErrorFree.of_walk {s : State} {p : Phase} (hp : s.eng.phase = p) (hw : p = .encWalk ∨ p = .decPay)
    (hs : s.regs.status.errCode = .none) : ErrorFree s := by
  subst hp
  rcases hw with hw | hw <;> exact ⟨by simp [hw], by simp [hw], hs, by simp [hw]⟩

theorem ErrorFree.succeed {s : State} (hs : s.regs.status.errCode = .none) : ErrorFree (succeed s) :=
  ⟨nofun, nofun, hs, fun _ => rfl⟩

theorem ErrorFree.engineStep {s t : State} (hs : ErrorFree s) (h : Machine.engineStep s = .next t) : ErrorFree t := by
  obtain ⟨hstart, hparse, hstatus, hresult⟩ := id hs
  cases hp : s.eng.phase <;> simp only [Machine.engineStep, hp] at h
  case idle => cases h; exact hs
  case start => exact absurd hp hstart
  case encWalk =>
    rcases encWalkStep_cases s with ⟨-, e⟩ | ⟨p, -, ⟨-, -, e⟩ | ⟨-, -, e⟩ | ⟨-, -, e⟩⟩ <;> rw [e] at h <;> cases h
    · exact .of_walk (p := .encWalk) (by simp [hp]) (.inl rfl) hstatus
    · dsimp only
      split
      · exact .succeed hstatus
      · exact .of_walk (p := .encWalk) (by simp [hp]) (.inl rfl) hstatus
  case decHdr => exact absurd hp hparse
  case decPay =>
    rcases decPayStep_cases s with ⟨-, e⟩ | ⟨-, -, e⟩ | ⟨-, p, -, ⟨-, e⟩ | ⟨-, e⟩⟩ <;> rw [e] at h <;> cases h
    · exact .succeed hstatus
    · rw [packBit_frame]
      exact .of_walk (p := .decPay) (by simp [hp]) (.inr rfl) hstatus
    · exact .of_walk (p := .decPay) (by simp [hp]) (.inr rfl) hstatus
  case finish => cases h; exact ⟨nofun, nofun, hresult hp, nofun⟩

/-- A property that the command's start establishes and every engine step keeps holds after the waited command. -/
theorem exec_induct {P : State → Prop} {i : Instr} {s t : State} (hi : s.idle)
    (hstep : ∀ a b, P a → engineStep a = .next b → P b) (hstart : P (startCommand i (accept (encode i) s)))
    (h : exec i s = .next t) : P t := by
  have hfirst : engineStep (accept (encode i) s) = .next (startCommand i (accept (encode i) s)) := by
    rw [engineStep_accept, startWord_of_decode (decode_encode i)]
  rw [exec_eq_callCommand, callCommand_idle hi, engineFuel, runEngine_succ_next (by simp) hfirst] at h
  exact runEngine_induct hstep hstart h

/-! ### ENCODE (43_encoder.md R190 to R192) -/

theorem startEncode_walk {s : State} (hc : encodeCheck s = .none) (hf : streamFits s = true) :
    startEncode s = enterEncWalk (storeHeader (beginEncode s)) := by
  rw [startEncode, if_pos hc, if_pos hf]

/-- An ENCODE ends in a failed check, in a stream that does not fit, or in no error. -/
theorem exec_encode_cases {s t : State} (hi : s.idle) (h : exec .encode s = .next t) :
    t = (beginEncode s).completed 0x00000001#32 (encodeCheck s) ∨
    t = (storeHeader (beginEncode s)).completed 0x00000001#32 .imageTooSmall ∨
    t.regs.status.errCode = .none := by
  by_cases hc : encodeCheck s = .none
  · cases hf : streamFits s with
    | true =>
      have hwalk : ErrorFree (startEncode (accept 0x00000001#32 s)) := by
        rw [startEncode_walk (s := accept 0x00000001#32 s) hc hf]
        exact .of_walk (p := .encWalk) rfl (.inl rfl) rfl
      exact .inr (.inr (exec_induct (i := .encode) hi (fun _ _ => ErrorFree.engineStep) hwalk h).status)
    | false =>
      rw [exec_encode_tooSmall hi hc hf] at h
      cases h
      exact .inr (.inl rfl)
  · rw [exec_encode_error hi rfl hc] at h
    cases h
    exact .inl rfl

/-! ### DECODE (44_decoder.md R210 to R218) -/

theorem startDecode_walk {s : State} (hg : ¬ (s.w = 0 ∨ s.h = 0)) (hn : ¬ 3 * s.n < 580) :
    startDecode s = (beginDecode s).withEng { (beginDecode s).eng with phase := .decHdr } :=
  (if_neg hg).trans (if_neg hn)

/-- A DECODE of `s` has delivered no payload byte: OUT_LEN is 0 and PBUF as it was. -/
structure Undelivered (s u : State) : Prop where
  outLen : u.regs.outLen = 0#32
  pbuf : u.pbuf = s.pbuf

/-- Where a DECODE of `s` stands from its walk on: in phase 1, with an error raised at the parse point, with that error
reported, or past every error. -/
inductive DecodeRun (s u : State) : Prop
  | header (phase : u.eng.phase = .decHdr) (status : u.regs.status.errCode = .none) (payload : Undelivered s u)
  | raised (phase : u.eng.phase = .finish) (status : u.regs.status.errCode = .none)
      (result : u.eng.result ∈ parseCodes) (payload : Undelivered s u)
  | reported (phase : u.eng.phase = .idle) (status : u.regs.status.errCode ∈ parseCodes) (payload : Undelivered s u)
  | errorFree (free : ErrorFree u)

/-- The parse point raises its error before any payload byte is written. -/
theorem decodeRun_parsePoint {s u : State} (hu : u.regs.status.errCode = .none) (hd : Undelivered s u) :
    DecodeRun s (parsePoint u) := by
  by_cases hc : decodeCheck (parseHeader u) = .none
  · rw [parsePoint_ok hc]
    exact .errorFree (.of_walk (p := .decPay) rfl (.inr rfl) hu)
  · rw [parsePoint_error hc]
    exact .raised rfl hu (decodeCheck_mem _) ⟨hd.outLen, hd.pbuf⟩

theorem DecodeRun.engineStep {s a b : State} (ha : DecodeRun s a) (h : Machine.engineStep a = .next b) :
    DecodeRun s b := by
  cases ha with
  | header hp hs hd =>
    simp only [Machine.engineStep, hp] at h
    rcases decHdrStep_cases a with ⟨-, e⟩ | ⟨p, -, e⟩ <;> rw [e] at h <;> cases h
    dsimp only
    split
    · exact decodeRun_parsePoint hs ⟨hd.outLen, hd.pbuf⟩
    · exact .header ((Engine.advance_phase _).trans hp) hs ⟨hd.outLen, hd.pbuf⟩
  | raised hp hs hr hd =>
    rw [engineStep_finish hp] at h
    cases h
    exact .reported rfl hr ⟨hd.outLen, hd.pbuf⟩
  | reported hp hs hd =>
    rw [engineStep_idle hp] at h
    cases h
    exact .reported hp hs hd
  | errorFree hfree => exact .errorFree (hfree.engineStep h)

theorem DecodeRun.errCode {s u : State} (h : DecodeRun s u) :
    u.regs.status.errCode = .none ∨ (u.regs.status.errCode ∈ parseCodes ∧ Undelivered s u) := by
  cases h with
  | header _ hs _ => exact .inl hs
  | raised _ hs _ _ => exact .inl hs
  | reported _ hs hd => exact .inr ⟨hs, hd⟩
  | errorFree hfree => exact .inl hfree.status

/-- A DECODE ends in an early error, in no error, or, with an image that holds a header, in an error of the parsed
header. -/
theorem exec_decode_cases {s t : State} (hi : s.idle) (h : exec .decode s = .next t) :
    (∃ e ∈ [ErrCode.badGeometry, .imageExhausted], t = (beginDecode s).completed 0x00000002#32 e) ∨
    t.regs.status.errCode = .none ∨
    ((0 < s.w ∧ 0 < s.h ∧ 580 ≤ 3 * s.n) ∧ t.regs.status.errCode ∈ parseCodes ∧ Undelivered s t) := by
  obtain ⟨hgeometry, hexhausted⟩ := decodeEarlyErrors s hi
  by_cases hg : s.w = 0 ∨ s.h = 0
  · rw [hgeometry hg] at h
    cases h
    exact .inl ⟨_, by decide, rfl⟩
  have hw : 0 < s.w := by omega
  have hh : 0 < s.h := by omega
  by_cases hn : 3 * s.n < 580
  · rw [hexhausted hw hh hn] at h
    cases h
    exact .inl ⟨_, by decide, rfl⟩
  have hwalk : DecodeRun s (startDecode (accept 0x00000002#32 s)) := by
    rw [startDecode_walk (s := accept 0x00000002#32 s) hg hn]
    exact .header rfl rfl ⟨rfl, rfl⟩
  exact .inr ((exec_induct (i := .decode) hi (fun _ _ => DecodeRun.engineStep) hwalk h).errCode.imp_right
    fun hrun => ⟨⟨hw, hh, Nat.not_lt.mp hn⟩, hrun⟩)

/-! ### the other commands -/

@[simp] theorem completed_errCode (s : State) (v : Word) (e : ErrCode) :
    (s.completed v e).regs.status.errCode = e := rfl

theorem exec_hdrBuild_cases {s t : State} (hi : s.idle) (h : exec .hdrBuild s = .next t) :
    t = s.completed 0x00000003#32 (hdrBuildCheck s) ∨ t.regs.status.errCode = .none := by
  by_cases hc : hdrBuildCheck s = .none
  · rw [exec_hdrBuild_ok hi hc] at h
    cases h
    exact .inr rfl
  · rw [exec_hdrBuild_error hi rfl hc] at h
    cases h
    exact .inl rfl

theorem exec_nop_errCode {s t : State} (hi : s.idle) (h : exec .nop s = .next t) : t.regs.status.errCode = .none := by
  rw [nopResult s hi] at h
  cases h
  rfl

theorem exec_hdrParse_errCode {s t : State} (hi : s.idle) (h : exec .hdrParse s = .next t) :
    t.regs.status.errCode = .none := by
  rw [exec_hdrParse hi] at h
  cases h
  rfl

theorem callWord_illegal {v : Word} (hv : ∀ j, decode v ≠ .ok j) {s : State} (hi : s.idle) :
    callWord v s = .next (s.completed v .illegalCommand) := by
  rw [callWord_eq_callCommand]
  cases hd : decode v with
  | ok j => exact absurd hd (hv j)
  | error e => exact callCommand_of_start hi (startWord_of_error hd) rfl

/-! ### the statements -/

/-- Settles O40: the outcomes of each command, with the codes of its checks. -/
theorem commandsReportTheirErrors : Obligations.CommandsReportTheirErrors := by
  intro i s t hi h
  cases i with
  | nop => exact exec_nop_errCode hi h
  | hdrParse => exact exec_hdrParse_errCode hi h
  | hdrBuild =>
    rcases exec_hdrBuild_cases hi h with rfl | hnone
    · exact hdrBuildCheck_mem s
    · simp [hnone]
  | encode =>
    rcases exec_encode_cases hi h with rfl | rfl | hnone
    · exact List.mem_append_left [ErrCode.imageTooSmall] (encodeCheck_mem s)
    · simp
    · simp [hnone]
  | decode =>
    rcases exec_decode_cases hi h with ⟨e, he, rfl⟩ | hnone | ⟨-, hcode, -⟩
    · exact (by decide : [ErrCode.badGeometry, .imageExhausted] ⊆ _) he
    · simp [hnone]
    · exact (by decide : parseCodes ⊆ _) hcode

/-- Settles O39: in the state of a check that failed before any write both values of each conditional field agree; a
DECODE past its parse point has changed its write set (`RunsWithin.frame`), except that OUT_LEN is 0 and PBUF is kept. -/
theorem errorsArePrecise : Obligations.ErrorsArePrecise := by
  refine ⟨fun i s t hi h hne => ?_, fun v s hi hv => callWord_illegal hv hi⟩
  intro parsed built
  cases i with
  | nop => exact absurd (exec_nop_errCode hi h) hne
  | hdrParse => exact absurd (exec_hdrParse_errCode hi h) hne
  | hdrBuild =>
    rcases exec_hdrBuild_cases hi h with rfl | hnone
    · simp [State.completed]
    · exact absurd hnone hne
  | encode =>
    rcases exec_encode_cases hi h with rfl | rfl | hnone
    · simp [State.completed, beginEncode, State.withEng]
    · have hbuilt : built := ⟨rfl, rfl⟩
      simp [State.completed, beginEncode, storeHeader, State.withEng, hbuilt]
    · exact absurd hnone hne
  | decode =>
    rcases exec_decode_cases hi h with ⟨e, -, rfl⟩ | hnone | ⟨hheader, -, hout, hpbuf⟩
    · simp [State.completed, beginDecode, packerReset, State.withEng]
    · exact absurd hnone hne
    · have hparsed : parsed := ⟨rfl, hheader⟩
      have hframe := (runsWithin_exec hi h).frame
      rw [State.withWritesOf] at hframe
      simpa [hparsed, hout, hpbuf] using hframe

end Sys2Proof.Machine
end

section
/-! SUPPORT. O36: a walk runs up to the first pixel that the image lacks, and is refused there. -/

namespace Sys2Proof.Machine

/-- A walk that misses a pixel misses a first one. -/
theorem exists_first_missing {s : State} {k : Nat} (hk : ¬ s.hasPixel k) :
    ∃ j, j ≤ k ∧ ¬ s.hasPixel j ∧ ∀ i < j, s.hasPixel i := by
  classical
  have hex : ∃ j, ¬ s.hasPixel j := ⟨k, hk⟩
  exact ⟨Nat.find hex, Nat.find_min' hex hk, Nat.find_spec hex, fun i hi => not_not.mp (Nat.find_min hex hi)⟩

/-- A run that reaches a refused engine step within the fuel of a waited call is a refused call. -/
theorem exec_of_refused {i : Instr} {s u : State} {n : Nat} {r : Refusal} (hi : s.idle)
    (hrun : runEngine n (accept (encode i) s) = .next u) (hstop : engineStep u = .refused r) (hn : n < engineFuel s) :
    exec i s = .refused r := by
  have hbusy : u.eng.phase ≠ .idle := fun hidle => by
    rw [engineStep_idle hidle] at hstop
    cases hstop
  have hrefused : runEngine (n + 1) (accept (encode i) s) = .refused r := by
    rw [runEngine_add_next hrun, runEngine_succ hbusy, hstop, andThen_refused]
  rw [exec_eq_callCommand, callCommand_idle hi]
  exact runEngine_le_refused hrefused hn

/-! ### ENCODE (43_encoder.md R194) -/

/-- An ENCODE accepted in `s`, with the header stored: the state that its walk starts from. -/
def State.encodeStart (s : State) : State := storeHeader (accept 0x00000001#32 s)

theorem exec_encode_refused {s : State} {k : Nat} (hi : s.idle) (hc : encodeCheck s = .none) (hn : 580 ≤ 3 * s.n)
    (hf : 8 * s.len ≤ payloadCapacity s.mode s.n) (hk : k ≤ s.lastSlot / 3) (hmiss : ¬ s.hasPixel k) :
    exec .encode s = .refused .pixelOutsideImage := by
  obtain ⟨-, -, hm, -, -, hv⟩ := encodeCheck_none hc
  have hlast := lastSlot_lt hm hn hf
  obtain ⟨j, hj, hmissing, hbefore⟩ := exists_first_missing hmiss
  obtain ⟨u, hstart, hat⟩ := enc_start hc hn hf
  obtain ⟨t, hwalk, ht⟩ : ∃ t, runEngine (3 * j) u = .next t ∧ EncAt s.encodeStart t (3 * j) :=
    enc_run (storeHeader_encEnd_toNat hv _) hm hat (3 * j) (by change _ ≤ s.lastSlot; omega)
      fun i hi => hbefore i (by omega)
  exact exec_of_refused (i := .encode) hi ((runEngine_succ_next (by simp) hstart (3 * j)).trans hwalk)
    (enc_refused ht hmissing) (by rw [engineFuel]; omega)

/-! ### DECODE (44_decoder.md R212, R219) -/

theorem geometry_pos {s : State} (hn : 580 ≤ 3 * s.n) : 0 < s.w ∧ 0 < s.h := by
  have hpos : 0 < s.w * s.h := by change 0 < s.n; omega
  exact ⟨Nat.pos_of_mul_pos_right hpos, Nat.pos_of_mul_pos_left hpos⟩

theorem exec_decode_refused_header {s : State} {k : Nat} (hi : s.idle) (hn : 580 ≤ 3 * s.n) (hk : k ≤ 193)
    (hmiss : ¬ s.hasPixel k) : exec .decode s = .refused .pixelOutsideImage := by
  obtain ⟨hw, hh⟩ := geometry_pos hn
  obtain ⟨j, hj, hmissing, hbefore⟩ := exists_first_missing hmiss
  obtain ⟨u, hstart, hat⟩ := dec_start hw hh hn
  obtain ⟨t, hwalk, ht⟩ := hdr_run hat (3 * j) (by omega) fun i hi => hbefore i (by omega)
  exact exec_of_refused (i := .decode) hi ((runEngine_succ_next (by simp) hstart (3 * j)).trans hwalk)
    (hdr_refused ht hmissing) (by rw [engineFuel]; omega)

/-- Phase 2 up to a missing pixel that lies no later than the last payload bit. -/
theorem pay_run_refused {s u : State} {last j : Nat} (h : PayAt s u 580) (hm : s.regs.pHdr.pMode.toNat ≤ 1)
    (hlast : sigma s.regs.pHdr.pMode.toNat (579 + u.eng.pb) = last) (hpast : 193 < j) (hj : 3 * j ≤ last)
    (hmissing : ¬ s.hasPixel j) (hbefore : ∀ i < j, s.hasPixel i) :
    ∃ t, runEngine (3 * j - 580) u = .next t ∧ engineStep t = .refused .pixelOutsideImage := by
  obtain ⟨t, hrun, hat⟩ := pay_run h hm (3 * j - 580) (by omega) fun i hi => hbefore i (by omega)
  rw [Nat.add_sub_cancel' (by omega)] at hat
  have hpb : t.eng.pb = u.eng.pb := hat.pb.trans h.pb.symm
  have hopen : t.eng.d ≠ 580 + t.eng.pb := by
    refine mt (pay_end_iff hat hm ?_).mp ?_ <;> rw [hpb, hlast] <;> omega
  exact ⟨t, hrun, pay_refused hat hopen hmissing⟩

theorem exec_decode_refused_payload {s : State} {k : Nat} (hi : s.idle) (hn : 580 ≤ 3 * s.n)
    (hp : ∀ j, j ≤ 193 → s.hasPixel j) (hc : decodeCheck s.parsed = .none)
    (hk : k ≤ sigma s.parsed.regs.pHdr.pMode.toNat (579 + s.parsedBits) / 3) (hmiss : ¬ s.hasPixel k) :
    exec .decode s = .refused .pixelOutsideImage := by
  obtain ⟨hw, hh⟩ := geometry_pos hn
  obtain ⟨hm, -, -, -⟩ := decodeCheck_none hc
  have hlt := lastBit_lt hn hc
  generalize hlast : sigma s.parsed.regs.pHdr.pMode.toNat (579 + s.parsedBits) = last at hk hlt
  obtain ⟨j, hj, hmissing, hbefore⟩ := exists_first_missing hmiss
  have hpast : 193 < j := Nat.lt_of_not_le fun hle => hmissing (hp j hle)
  obtain ⟨t, hhdr, hdone⟩ := runEngine_header hw hh hn hp
  have hat := parse_ok hdone (hdone.decodeCheck_eq.trans hc)
  rw [hdone.parseHeader_eq] at hat
  have hpb : (parsePoint t).eng.pb = s.parsedBits := hat.pb
  obtain ⟨v, hpay, hstop⟩ := pay_run_refused (last := last) hat hm (by rw [hpb]; exact hlast) hpast (by omega)
    hmissing hbefore
  exact exec_of_refused (i := .decode) hi ((runEngine_add_next hhdr _).trans hpay) hstop (by rw [engineFuel]; omega)

/-- Settles O36: each walk is refused at its first missing pixel, which lies no later than the given one. -/
theorem walkStopsOutsideImage : Obligations.WalkStopsOutsideImage := by
  intro s k hi hn hmiss
  exact ⟨fun hc hf hk => exec_encode_refused hi hc hn hf hk hmiss, fun hk => exec_decode_refused_header hi hn hk hmiss,
    fun hp hc hk => exec_decode_refused_payload hi hn hp hc hk hmiss⟩

end Sys2Proof.Machine
end

section
/-! SUPPORT. O29: the image at every moment of an ENCODE. -/

namespace Sys2Proof.Machine

/-- Where an ENCODE accepted in `s` stands: accepted, before a slot of its walk, its last pixel written back, or
completed. -/
inductive EncodeRun (s u : State) : Prop
  | accepted (eq : u = accept 0x00000001#32 s)
  | walking (n : Nat) (le : n ≤ s.lastSlot) (encAt : EncAt s.encodeStart u n)
  | written (done : EncDone s.encodeStart u (s.lastSlot / 3))
  | completed (idle : u.eng.phase = .idle) (img : EncImg s.encodeStart u.image (3 * (s.lastSlot / 3 + 1)))

theorem EncodeRun.engineStep {s a b : State} (hc : encodeCheck s = .none) (hn : 580 ≤ 3 * s.n)
    (hf : 8 * s.len ≤ payloadCapacity s.mode s.n) (hp : ∀ k, k ≤ s.lastSlot / 3 → s.hasPixel k) (ha : EncodeRun s a)
    (h : Machine.engineStep a = .next b) : EncodeRun s b := by
  obtain ⟨-, -, hm, -, -, hv⟩ := encodeCheck_none hc
  cases ha with
  | accepted heq =>
    subst heq
    obtain ⟨u, hstart, hat⟩ := enc_start hc hn hf
    cases hstart.symm.trans h
    exact .walking 0 (Nat.zero_le _) hat
  | walking n hle hat =>
    have hlast : streamIndexAt s.mode (n + 1) = s.streamLen ↔ n = s.lastSlot := streamIndexAt_lastSlot hm hle
    obtain ⟨u, hstep, hcases⟩ := enc_step (storeHeader_encEnd_toNat hv _) hat
      fun j hj => hp j (hj.trans (Nat.div_le_div_right hle))
    cases hstep.symm.trans h
    rcases hcases with ⟨hmore, hat'⟩ | ⟨hend, hdone⟩
    · exact .walking (n + 1) (Nat.lt_of_le_of_ne hle (mt hlast.mpr hmore)) hat'
    · obtain rfl := hlast.mp hend
      exact .written hdone
  | written hdone =>
    rw [engineStep_finish hdone.phase] at h
    cases h
    exact .completed rfl hdone.img
  | completed hidle himg =>
    rw [engineStep_idle hidle] at h
    cases h
    exact .completed hidle himg

/-- At every moment the first pixels of the walk, up to some number, are processed, and nothing else is. -/
theorem EncodeRun.exists_encImg {s u : State} (h : EncodeRun s u) :
    ∃ p, p ≤ s.lastSlot / 3 + 1 ∧ EncImg s.encodeStart u.image (3 * p) := by
  cases h with
  | accepted heq =>
    subst heq
    exact ⟨0, Nat.zero_le _, rfl, rfl, nofun, fun _ _ => rfl⟩
  | walking n hle hat =>
    have hk : u.eng.k = n / 3 := by rw [hat.cursor, slotOf_div]
    exact ⟨u.eng.k, by omega, hat.img⟩
  | written hdone => exact ⟨_, Nat.le_refl _, hdone.img⟩
  | completed _ himg => exact ⟨_, Nat.le_refl _, himg⟩

/-- An ENCODE that is not refused has found every pixel of its walk. -/
theorem hasPixel_of_exec_encode {s t : State} (hi : s.idle) (hc : encodeCheck s = .none) (hn : 580 ≤ 3 * s.n)
    (hf : 8 * s.len ≤ payloadCapacity s.mode s.n) (h : exec .encode s = .next t) {k : Nat} (hk : k ≤ s.lastSlot / 3) :
    s.hasPixel k := by
  by_contra hmiss
  rw [exec_encode_refused hi hc hn hf hk hmiss] at h
  cases h

/-- Two images with the first `p` and the first `q` pixels of the walk processed agree on the pixels of both. -/
theorem EncImg.byteAt_eq {s : State} {img img' : Image} {p q : Nat} (h : EncImg s img (3 * p))
    (h' : EncImg s img' (3 * q)) {k : Nat} (hp : k < p) (hq : k < q) (c : Channel) :
    img.byteAt (s.slotAddr (slotOf k c)) = img'.byteAt (s.slotAddr (slotOf k c)) := by
  rw [h.done _ ((slotOf_lt_iff p k c).mpr hp), h'.done _ ((slotOf_lt_iff q k c).mpr hq)]

/-- An address outside the processed pixels holds what it held. -/
theorem EncImg.byteAt_outside {s : State} {img : Image} {p a : Nat} (h : EncImg s img (3 * p))
    (ha : ∀ k c, k < p → a ≠ s.slotAddr (slotOf k c)) : img.byteAt a = s.image.byteAt a := by
  refine h.keep a fun n hn e => ha (n / 3) (chanOfSlot n) (by omega) ?_
  rw [slotOf_chanOfSlot, e]

/-- Settles O29: every engine step keeps `EncodeRun`, whose image has the first pixels of the walk processed; `rst`
does not touch it. -/
theorem resetDuringEncodeLeavesPrefix : Obligations.ResetDuringEncodeLeavesPrefix := by
  intro s t u m hi hc hn hf ht hu
  have hp : ∀ k, k ≤ s.lastSlot / 3 → s.hasPixel k := fun _ => hasPixel_of_exec_encode hi hc hn hf ht
  obtain ⟨v, hv, hdone⟩ := exec_encode_ok hi hc hn hf hp
  cases hv.symm.trans ht
  have hrun : EncodeRun s u := runEngine_induct (fun _ _ => EncodeRun.engineStep hc hn hf hp) (.accepted rfl) hu
  obtain ⟨p, hle, himg⟩ := hrun.exists_encImg
  exact ⟨rfl, rfl, p, hle, fun k c hk => himg.byteAt_eq hdone.img hk (Nat.lt_of_lt_of_le hk hle) c,
    fun a ha => himg.byteAt_outside ha⟩

end Sys2Proof.Machine
end

section
/-! SUPPORT. O51: word accesses while BUSY. -/

namespace Sys2Proof.Machine

section busy

variable {s : State} (hb : s.regs.status.busy = true) {off : Word} (ha : off.toNat % 4 = 0)
include hb ha

theorem hostAccess_wr_hazard (hr : (regAt s.params.pbufBytes off.toNat).writeIsHazard = true) (v : Word) :
    hostAccess (Access.wr off v) s = setAccErr s := by
  rw [hostAccess_wr ha, wordWrite_busy hb hr]

theorem hostAccess_rd_hazard (hr : (regAt s.params.pbufBytes off.toNat).readIsHazard = true) :
    hostAccess (Access.rd off) s = setAccErr { s with rdata := Config.busyRead s.draws, draws := s.draws + 1 } := by
  rw [hostAccess_rd ha, wordRead_busy hb hr]

end busy

/-- Every word of NBUF, HDR and PBUF is a hazard in both directions. -/
theorem regAt_buffer_isHazard {p off : Nat}
    (h : (0x100 ≤ off ∧ off < 0x140) ∨ (0x200 ≤ off ∧ off < 0x24C) ∨ (0x1000 ≤ off ∧ off < 0x1000 + p)) :
    (regAt p off).writeIsHazard = true ∧ (regAt p off).readIsHazard = true := by
  rcases h with ⟨hlo, hhi⟩ | ⟨hlo, hhi⟩ | ⟨hlo, hhi⟩
  · rw [regAt_nbuf_word hlo hhi]
    exact ⟨rfl, rfl⟩
  · rw [regAt_hdr_word hlo hhi]
    exact ⟨rfl, rfl⟩
  · rw [regAt_pbuf_word hlo hhi]
    exact ⟨rfl, rfl⟩

/-- So is a write of WIDTH, HEIGHT, CFG or PAYLOAD_LEN. -/
theorem regAt_config_writeIsHazard (p : Nat) {off : Word} (h : off ∈ [0x010#32, 0x014#32, 0x018#32, 0x01C#32]) :
    (regAt p off.toNat).writeIsHazard = true := by
  simp only [List.mem_cons, List.not_mem_nil, or_false] at h
  rcases h with rfl | rfl | rfl | rfl <;> rw [regAt_page (by decide)] <;> rfl

/-- So is a read of ENC_END, OUT_LEN, P_HDR or P_START. -/
theorem regAt_result_readIsHazard (p : Nat) {off : Word} (h : off ∈ [0x020#32, 0x024#32, 0x028#32, 0x02C#32]) :
    (regAt p off.toNat).readIsHazard = true := by
  simp only [List.mem_cons, List.not_mem_nil, or_false] at h
  rcases h with rfl | rfl | rfl | rfl <;> rw [regAt_page (by decide)] <;> rfl

/-- Settles O51: a CMD write is dropped by `issue`, the other accesses of R287 are hazards, and the allowed ones are
none. -/
theorem busyAccesses : Obligations.BusyAccesses := by
  intro s v off hni ha
  have hb := busy_of_not_idle hni
  refine ⟨fun hoff => ?writes, fun hoff => ?reads, ?allowed⟩
  case writes =>
    rcases hoff with hmem | hbuf
    · rcases List.mem_cons.mp hmem with rfl | hmem
      · exact (hostAccess_wr_cmd v s).trans (issue_busy hb v)
      · exact hostAccess_wr_hazard hb ha (regAt_config_writeIsHazard _ hmem) v
    · exact hostAccess_wr_hazard hb ha (regAt_buffer_isHazard hbuf).1 v
  case reads =>
    rcases hoff with hmem | hbuf
    · exact hostAccess_rd_hazard hb ha (regAt_result_readIsHazard _ hmem)
    · exact hostAccess_rd_hazard hb ha (regAt_buffer_isHazard hbuf).2
  case allowed =>
    refine ⟨?_, ?_, ?_, ?_, ?_, wr_page_free (by decide) (by decide) rfl v s⟩ <;>
      exact rd_page_free (by decide) (by decide) rfl s

end Sys2Proof.Machine
end

section
/-! SUPPORT. O59: every stop of a step, by the input that the step takes. -/

namespace Sys2Proof.Machine

/-! ### the pending input -/

theorem nextInput_of_cons {s : State} {inp : Input} {rest : List Input} (h : s.inputs = inp :: rest) :
    s.nextInput = inp := by
  rw [State.nextInput, h, List.headD_cons]

theorem exists_cons_of_nextInput {s : State} {inp : Input} (h : s.nextInput = inp) (hne : inp ≠ .engine) :
    ∃ rest, s.inputs = inp :: rest :=
  (inputs_of_nextInput h).resolve_left fun hnil => hne hnil.2

/-- The collaborator's accesses that are a race while a command with the word `cmd` runs (70_reset_and_hazards.md R287,
log 10). -/
def Input.RacesWith (cmd : Word) (inp : Input) : Prop :=
  (∃ w h cs, inp = .loadImage w h cs) ∨ (cmd = 0x00000001#32 ∧ ∃ x y, inp = .readPixel x y) ∨
    ∃ x y p, inp = .writePixel x y p

theorem racesWith_nextInput_iff (s : State) (cmd : Word) :
    s.nextInput.RacesWith cmd ↔
      ∃ rest, (∃ w h cs, s.inputs = .loadImage w h cs :: rest) ∨
        (cmd = 0x00000001#32 ∧ ∃ x y, s.inputs = .readPixel x y :: rest) ∨
        (∃ x y p, s.inputs = .writePixel x y p :: rest) := by
  constructor
  · rintro (⟨w, h, cs, hin⟩ | ⟨hcmd, x, y, hin⟩ | ⟨x, y, p, hin⟩) <;>
      obtain ⟨rest, hcons⟩ := exists_cons_of_nextInput hin nofun
    · exact ⟨rest, .inl ⟨w, h, cs, hcons⟩⟩
    · exact ⟨rest, .inr (.inl ⟨hcmd, x, y, hcons⟩)⟩
    · exact ⟨rest, .inr (.inr ⟨x, y, p, hcons⟩)⟩
  · rintro ⟨rest, ⟨w, h, cs, hcons⟩ | ⟨hcmd, x, y, hcons⟩ | ⟨x, y, p, hcons⟩⟩
    · exact .inl ⟨w, h, cs, nextInput_of_cons hcons⟩
    · exact .inr (.inl ⟨hcmd, x, y, nextInput_of_cons hcons⟩)
    · exact .inr (.inr ⟨x, y, p, nextInput_of_cons hcons⟩)

/-! ### the stops of one input -/

theorem loadImage_eq_fault_iff {w h : Nat} {cs : List Byte} {s : State} {f : Fault} :
    loadImage w h cs s = .fault f ↔ ¬ s.idle ∧ f = .imageRace := by
  cases hb : s.regs.status.busy <;> simp [loadImage, State.idle, hb, eq_comm]

theorem loadImage_ne_refused (w h : Nat) (cs : List Byte) (s : State) (r : Refusal) :
    loadImage w h cs s ≠ .refused r := by
  unfold loadImage
  split <;> nofun

theorem readPixel_eq_fault_iff {x y : Nat} {s : State} {f : Fault} :
    readPixel x y s = .fault f ↔ ¬ s.idle ∧ f = .imageRace ∧ s.eng.cmd = 0x00000001#32 := by
  have hrace : s.encoding = true ↔ ¬ s.idle ∧ s.eng.cmd = 0x00000001#32 := by
    simp [State.encoding, State.idle, encode]
  rw [and_left_comm, ← hrace]
  unfold readPixel
  split
  · simp [*]
  · split <;> simp [*]

theorem readPixel_eq_refused {x y : Nat} {s : State} {r : Refusal} (h : readPixel x y s = .refused r) :
    r = .pixelOutsideImage := by
  unfold readPixel at h
  split at h
  · cases h
  · split at h <;> cases h
    rfl

theorem writePixel_eq_fault_iff {x y : Nat} {p : Pixel} {s : State} {f : Fault} :
    writePixel x y p s = .fault f ↔ ¬ s.idle ∧ f = .imageRace := by
  unfold writePixel
  split
  · simp [State.idle, *, eq_comm]
  · split <;> simp [State.idle, *]

theorem writePixel_eq_refused {x y : Nat} {p : Pixel} {s : State} {r : Refusal}
    (h : writePixel x y p s = .refused r) : r = .pixelOutsideImage := by
  unfold writePixel at h
  split at h
  · cases h
  · split at h <;> cases h
    rfl

theorem callWord_ne_fault (v : Word) (s : State) (f : Fault) : callWord v s ≠ .fault f := by
  rw [callWord_eq_callCommand]
  unfold callCommand
  split
  · nofun
  · exact (runEngine_stops _ _).1 f

theorem callWord_eq_refused {v : Word} {s : State} {r : Refusal} (h : callWord v s = .refused r) :
    r = .pixelOutsideImage := by
  rw [callWord_eq_callCommand] at h
  unfold callCommand at h
  split at h
  · cases h
  · exact (runEngine_stops _ _).2 r h

/-! ### the stops of any input -/

/-- Out of reset an input faults exactly when it is a race. -/
theorem inputOutOfReset_eq_fault_iff {inp : Input} {s : State} {f : Fault} :
    inputOutOfReset inp s = .fault f ↔ ¬ s.idle ∧ f = .imageRace ∧ inp.RacesWith s.eng.cmd := by
  cases inp with
  | access a => simp [inputOutOfReset, Input.RacesWith]
  | call v => simp [inputOutOfReset, Input.RacesWith, callWord_ne_fault]
  | engine => simp [inputOutOfReset, Input.RacesWith, engineStep_ne_fault]
  | rst level => simp [inputOutOfReset, Input.RacesWith]
  | loadImage w h cs => simp [inputOutOfReset, Input.RacesWith, loadImage_eq_fault_iff]
  | readPixel x y => simp [inputOutOfReset, Input.RacesWith, readPixel_eq_fault_iff]
  | writePixel x y p => simp [inputOutOfReset, Input.RacesWith, writePixel_eq_fault_iff]

/-- While `rst` is asserted no input is a race: the block is idle. -/
theorem inputInReset_ne_fault {s : State} (hi : s.idle) (inp : Input) (f : Fault) : inputInReset inp s ≠ .fault f := by
  cases inp with
  | access a => nofun
  | call v => nofun
  | engine => nofun
  | rst level => nofun
  | loadImage w h cs => exact fun hf => (loadImage_eq_fault_iff.mp hf).1 hi
  | readPixel x y => exact fun hf => (readPixel_eq_fault_iff.mp hf).1 hi
  | writePixel x y p => exact fun hf => (writePixel_eq_fault_iff.mp hf).1 hi

/-- Out of reset no host access and no drive of `rst` is refused, and the only refusal is a missing pixel. -/
theorem inputOutOfReset_eq_refused {inp : Input} {s : State} {r : Refusal} (h : inputOutOfReset inp s = .refused r) :
    r = .pixelOutsideImage ∧ (∀ level, inp ≠ .rst level) ∧ ∀ a, inp ≠ .access a := by
  cases inp with
  | access a => cases h
  | call v => exact ⟨callWord_eq_refused h, nofun, nofun⟩
  | engine => exact ⟨engineStep_refused h, nofun, nofun⟩
  | rst level => cases h
  | loadImage w hh cs => exact absurd h (loadImage_ne_refused w hh cs s r)
  | readPixel x y => exact ⟨readPixel_eq_refused h, nofun, nofun⟩
  | writePixel x y p => exact ⟨writePixel_eq_refused h, nofun, nofun⟩

/-- While `rst` is asserted only a pixel access of the collaborator is refused, for a missing pixel. -/
theorem inputInReset_eq_refused {inp : Input} {s : State} {r : Refusal} (h : inputInReset inp s = .refused r) :
    r = .pixelOutsideImage ∧ ∃ x y, inp = .readPixel x y ∨ ∃ p, inp = .writePixel x y p := by
  cases inp with
  | access a => cases h
  | call v => cases h
  | engine => cases h
  | rst level => cases h
  | loadImage w hh cs => exact absurd h (loadImage_ne_refused w hh cs s r)
  | readPixel x y => exact ⟨readPixel_eq_refused h, x, y, .inl rfl⟩
  | writePixel x y p => exact ⟨writePixel_eq_refused h, x, y, .inr ⟨p, rfl⟩⟩

/-! ### the statement -/

theorem step_eq_fault_iff (s : State) (f : Fault) :
    step s = .fault f ↔ s.rst = false ∧ ¬ s.idle ∧ f = .imageRace ∧ s.nextInput.RacesWith s.eng.cmd := by
  cases hr : s.rst with
  | false =>
    rw [step_outOfReset hr, inputOutOfReset_eq_fault_iff]
    exact (and_iff_right rfl).symm
  | true =>
    rw [step_asserted hr]
    exact iff_of_false (inputInReset_ne_fault (s := resetBlock s.popInput) rfl _ f) nofun

/-- While `rst` is asserted a refused step is a pending pixel access of the collaborator. -/
theorem step_asserted_refused {s : State} {r : Refusal} (hr : s.rst = true) (h : step s = .refused r) :
    r = .pixelOutsideImage ∧ ∃ rest x y,
      s.inputs = .readPixel x y :: rest ∨ ∃ p, s.inputs = .writePixel x y p :: rest := by
  rw [step_asserted hr] at h
  obtain ⟨hname, x, y, hin⟩ := inputInReset_eq_refused h
  refine ⟨hname, ?_⟩
  rcases hin with hin | ⟨p, hin⟩ <;> obtain ⟨rest, hcons⟩ := exists_cons_of_nextInput hin nofun
  · exact ⟨rest, x, y, .inl hcons⟩
  · exact ⟨rest, x, y, .inr ⟨p, hcons⟩⟩

/-- Settles O59: the faults by `step_eq_fault_iff`; the refusals by the input, out of reset and in it. -/
theorem stopsAreNamed : Obligations.StopsAreNamed := by
  intro s
  refine ⟨fun f => ?fault, fun r h => ?refused⟩
  case fault => rw [step_eq_fault_iff, racesWith_nextInput_iff]
  case refused =>
    cases hr : s.rst with
    | false =>
      rw [step_outOfReset hr] at h
      obtain ⟨hname, hrst, haccess⟩ := inputOutOfReset_eq_refused h
      exact ⟨hname, fun rest => ⟨fun level hcons => hrst level (nextInput_of_cons hcons),
        fun a hcons => haccess a (nextInput_of_cons hcons)⟩, nofun⟩
    | true =>
      obtain ⟨hname, rest, x, y, hpending⟩ := step_asserted_refused hr h
      refine ⟨hname, fun rest' => ⟨fun level hcons => ?_, fun a hcons => ?_⟩, fun _ => ⟨rest, x, y, hpending⟩⟩ <;>
        simp [hcons] at hpending

end Sys2Proof.Machine
end

section
/-! SUPPORT. O60: steps while `rst` is asserted. -/

namespace Sys2Proof.Machine

/-- The level of `rst` changes only by being driven. -/
theorem inputInReset_rst {inp : Input} {s t : State} (h : inputInReset inp s = .next t) :
    t.rst = s.rst ∨ inp = .rst t.rst := by
  cases inp with
  | access a => cases h; exact .inl rfl
  | call v => cases h; exact .inl rfl
  | engine => cases h; exact .inl rfl
  | rst level => cases h; exact .inr rfl
  | loadImage w hh cs => rw [loadImage_eq_next h]; exact .inl rfl
  | readPixel x y => rw [readPixel_eq_next h]; exact .inl rfl
  | writePixel x y p => rw [(writePixel_eq_next h).2]; exact .inl rfl

/-- While `rst` is asserted it stays so, unless the step drives it low. -/
theorem step_asserted_rst {s t : State} (hr : s.rst = true) (h : step s = .next t) :
    t.rst = true ∨ ∃ rest, s.inputs = .rst false :: rest := by
  rw [step_asserted hr] at h
  rcases inputInReset_rst h with hsame | hin
  · exact .inl (hsame.trans hr)
  · cases hlevel : t.rst with
    | true => exact .inl rfl
    | false => exact .inr (exists_cons_of_nextInput (hlevel ▸ hin) nofun)

/-- While `rst` is asserted only the collaborator changes the image. -/
theorem step_asserted_image {s t : State} (hr : s.rst = true) (h : step s = .next t) :
    t.image = s.image ∨ ∃ rest, (∃ w h cs, s.inputs = .loadImage w h cs :: rest) ∨
      (∃ x y p, s.inputs = .writePixel x y p :: rest) := by
  rw [step_asserted hr] at h
  by_cases himg : t.image = s.image
  · exact .inl himg
  · exact .inr (inputs_of_writesImage (inputInReset_image h himg))

/-- Settles O60: `step_inReset` gives the block's fields; each input but the collaborator's is taken by definition. -/
theorem assertedResetHoldsBlock : Obligations.AssertedResetHoldsBlock := by
  intro s hr
  refine ⟨fun t h => ?block, fun hnil => ⟨_, step_inReset_nil hnil hr⟩, fun rest hin => ?taken,
    fun rest level hin => ?driven⟩
  case block =>
    have hframe := step_inReset hr h
    have hregs : t.regs = Regs.reset := congrArg State.regs hframe
    have hnbuf : t.nbuf = [] := congrArg State.nbuf hframe
    have hpbuf : t.pbuf = [] := congrArg State.pbuf hframe
    have hepoch : t.ramEpoch = s.ramEpoch + 1 := congrArg State.ramEpoch hframe
    refine ⟨hregs, congrArg State.hdr hframe, congrArg (fun u => u.eng.phase) hframe, ?irq, ?params,
      fun n => ?nbuf, fun n => ?pbuf, step_asserted_rst hr h, step_asserted_image hr h⟩
    case irq => rw [State.irq, hregs]; rfl
    case params => rw [hframe]; rfl
    case nbuf => rw [nbufRead, hnbuf, hepoch]; rfl
    case pbuf => rw [pbufRead, hpbuf, hepoch]; rfl
  case taken =>
    rcases hin with hin | ⟨a, hin⟩ | ⟨v, hin⟩ <;> exact ⟨_, step_inReset_cons hin hr, rfl, hr, rfl⟩
  case driven => exact ⟨_, step_inReset_cons hin hr, rfl, rfl, rfl, rfl⟩

end Sys2Proof.Machine
end
